-- ==== Sys2Proof/Word.lean ====
section
/-! DEFINITION. The word types of the block: registers of 32 bits (XLEN, rule R5), bytes of memory, quantization-store entries of 16 bits (R28) and accumulators of 64 bits (ACCW). -/

namespace Sys2Proof

/-- A register of the register space, or a command word (XLEN = 32, rule R5). -/
abbrev Word := BitVec 32

/-- One byte of the memory space; one sample (rules R45, R52). -/
abbrev Byte := BitVec 8

/-- An entry of the quantization store, UQ8.8 (rule R28). -/
abbrev Step := BitVec 16

/-- An accumulator (ACCW = 64, rule R25). -/
abbrev Acc := BitVec 64

end Sys2Proof
end

