-- ==== Sys2Proof/Machine/Basis.lean ====
section
/-! DEFINITION. The integer basis tables B(1) to B(32), the normative data of rule R96: one function for each length L, row k on a line of its own, entry n from left to right, as 96_basis_tables_a.md and 96_basis_tables_b.md print them. -/

namespace Sys2Proof.Machine

/-- The rows of B(1), rule R96. -/
def basis1 : Nat → List Int
  | 0 => [16384]
  | _ => []

/-- The rows of B(2), rule R96. -/
def basis2 : Nat → List Int
  | 0 => [11585, 11585]
  | 1 => [11585, -11585]
  | _ => []

/-- The rows of B(3), rule R96. -/
def basis3 : Nat → List Int
  | 0 => [9459, 9459, 9459]
  | 1 => [11585, 0, -11585]
  | 2 => [6689, -13377, 6689]
  | _ => []

/-- The rows of B(4), rule R96. -/
def basis4 : Nat → List Int
  | 0 => [8192, 8192, 8192, 8192]
  | 1 => [10703, 4433, -4433, -10703]
  | 2 => [8192, -8192, -8192, 8192]
  | 3 => [4433, -10703, 10703, -4433]
  | _ => []

/-- The rows of B(5), rule R96. -/
def basis5 : Nat → List Int
  | 0 => [7327, 7327, 7327, 7327, 7327]
  | 1 => [9855, 6091, 0, -6091, -9855]
  | 2 => [8383, -3202, -10362, -3202, 8383]
  | 3 => [6091, -9855, 0, 9855, -6091]
  | 4 => [3202, -8383, 10362, -8383, 3202]
  | _ => []

/-- The rows of B(6), rule R96. -/
def basis6 : Nat → List Int
  | 0 => [6689, 6689, 6689, 6689, 6689, 6689]
  | 1 => [9137, 6689, 2448, -2448, -6689, -9137]
  | 2 => [8192, 0, -8192, -8192, 0, 8192]
  | 3 => [6689, -6689, -6689, 6689, 6689, -6689]
  | 4 => [4730, -9459, 4730, 4730, -9459, 4730]
  | 5 => [2448, -6689, 9137, -9137, 6689, -2448]
  | _ => []

/-- The rows of B(7), rule R96. -/
def basis7 : Nat → List Int
  | 0 => [6193, 6193, 6193, 6193, 6193, 6193, 6193]
  | 1 => [8538, 6847, 3800, 0, -3800, -6847, -8538]
  | 2 => [7890, 1949, -5460, -8758, -5460, 1949, 7890]
  | 3 => [6847, -3800, -8538, 0, 8538, 3800, -6847]
  | 4 => [5460, -7890, -1949, 8758, -1949, -7890, 5460]
  | 5 => [3800, -8538, 6847, 0, -6847, 8538, -3800]
  | 6 => [1949, -5460, 7890, -8758, 7890, -5460, 1949]
  | _ => []

/-- The rows of B(8), rule R96. -/
def basis8 : Nat → List Int
  | 0 => [5793, 5793, 5793, 5793, 5793, 5793, 5793, 5793]
  | 1 => [8035, 6811, 4551, 1598, -1598, -4551, -6811, -8035]
  | 2 => [7568, 3135, -3135, -7568, -7568, -3135, 3135, 7568]
  | 3 => [6811, -1598, -8035, -4551, 4551, 8035, 1598, -6811]
  | 4 => [5793, -5793, -5793, 5793, 5793, -5793, -5793, 5793]
  | 5 => [4551, -8035, 1598, 6811, -6811, -1598, 8035, -4551]
  | 6 => [3135, -7568, 7568, -3135, -3135, 7568, -7568, 3135]
  | 7 => [1598, -4551, 6811, -8035, 8035, -6811, 4551, -1598]
  | _ => []

/-- The rows of B(9), rule R96. -/
def basis9 : Nat → List Int
  | 0 => [5461, 5461, 5461, 5461, 5461, 5461, 5461, 5461, 5461]
  | 1 => [7606, 6689, 4965, 2642, 0, -2642, -4965, -6689, -7606]
  | 2 => [7258, 3862, -1341, -5917, -7723, -5917, -1341, 3862, 7258]
  | 3 => [6689, 0, -6689, -6689, 0, 6689, 6689, 0, -6689]
  | 4 => [5917, -3862, -7258, 1341, 7723, 1341, -7258, -3862, 5917]
  | 5 => [4965, -6689, -2642, 7606, 0, -7606, 2642, 6689, -4965]
  | 6 => [3862, -7723, 3862, 3862, -7723, 3862, 3862, -7723, 3862]
  | 7 => [2642, -6689, 7606, -4965, 0, 4965, -7606, 6689, -2642]
  | 8 => [1341, -3862, 5917, -7258, 7723, -7258, 5917, -3862, 1341]
  | _ => []

/-- The rows of B(10), rule R96. -/
def basis10 : Nat → List Int
  | 0 => [5181, 5181, 5181, 5181, 5181, 5181, 5181, 5181, 5181, 5181]
  | 1 => [7237, 6529, 5181, 3326, 1146, -1146, -3326, -5181, -6529, -7237]
  | 2 => [6969, 4307, 0, -4307, -6969, -6969, -4307, 0, 4307, 6969]
  | 3 => [6529, 1146, -5181, -7237, -3326, 3326, 7237, 5181, -1146, -6529]
  | 4 => [5928, -2264, -7327, -2264, 5928, 5928, -2264, -7327, -2264, 5928]
  | 5 => [5181, -5181, -5181, 5181, 5181, -5181, -5181, 5181, 5181, -5181]
  | 6 => [4307, -6969, 0, 6969, -4307, -4307, 6969, 0, -6969, 4307]
  | 7 => [3326, -7237, 5181, 1146, -6529, 6529, -1146, -5181, 7237, -3326]
  | 8 => [2264, -5928, 7327, -5928, 2264, 2264, -5928, 7327, -5928, 2264]
  | 9 => [1146, -3326, 5181, -6529, 7237, -7237, 6529, -5181, 3326, -1146]
  | _ => []

/-- The rows of B(11), rule R96. -/
def basis11 : Nat → List Int
  | 0 => [4940, 4940, 4940, 4940, 4940, 4940, 4940, 4940, 4940, 4940, 4940]
  | 1 => [6915, 6355, 5280, 3777, 1968, 0, -1968, -3777, -5280, -6355, -6915]
  | 2 => [6703, 4575, 994, -2902, -5877, -6986, -5877, -2902, 994, 4575, 6703]
  | 3 => [6355, 1968, -3777, -6915, -5280, 0, 5280, 6915, 3777, -1968, -6355]
  | 4 => [5877, -994, -6703, -4575, 2902, 6986, 2902, -4575, -6703, -994, 5877]
  | 5 => [5280, -3777, -6355, 1968, 6915, 0, -6915, -1968, 6355, 3777, -5280]
  | 6 => [4575, -5877, -2902, 6703, 994, -6986, 994, 6703, -2902, -5877, 4575]
  | 7 => [3777, -6915, 1968, 5280, -6355, 0, 6355, -5280, -1968, 6915, -3777]
  | 8 => [2902, -6703, 5877, -994, -4575, 6986, -4575, -994, 5877, -6703, 2902]
  | 9 => [1968, -5280, 6915, -6355, 3777, 0, -3777, 6355, -6915, 5280, -1968]
  | 10 => [994, -2902, 4575, -5877, 6703, -6986, 6703, -5877, 4575, -2902, 994]
  | _ => []

/-- The rows of B(12), rule R96. -/
def basis12 : Nat → List Int
  | 0 => [4730, 4730, 4730, 4730, 4730, 4730, 4730, 4730, 4730, 4730, 4730, 4730]
  | 1 => [6632, 6180, 5307, 4072, 2560, 873, -873, -2560, -4072, -5307, -6180, -6632]
  | 2 => [6461, 4730, 1731, -1731, -4730, -6461, -6461, -4730, -1731, 1731, 4730, 6461]
  | 3 => [6180, 2560, -2560, -6180, -6180, -2560, 2560, 6180, 6180, 2560, -2560, -6180]
  | 4 => [5793, 0, -5793, -5793, 0, 5793, 5793, 0, -5793, -5793, 0, 5793]
  | 5 => [5307, -2560, -6632, -873, 6180, 4072, -4072, -6180, 873, 6632, 2560, -5307]
  | 6 => [4730, -4730, -4730, 4730, 4730, -4730, -4730, 4730, 4730, -4730, -4730, 4730]
  | 7 => [4072, -6180, -873, 6632, -2560, -5307, 5307, 2560, -6632, 873, 6180, -4072]
  | 8 => [3344, -6689, 3344, 3344, -6689, 3344, 3344, -6689, 3344, 3344, -6689, 3344]
  | 9 => [2560, -6180, 6180, -2560, -2560, 6180, -6180, 2560, 2560, -6180, 6180, -2560]
  | 10 => [1731, -4730, 6461, -6461, 4730, -1731, -1731, 4730, -6461, 6461, -4730, 1731]
  | 11 => [873, -2560, 4072, -5307, 6180, -6632, 6632, -6180, 5307, -4072, 2560, -873]
  | _ => []

/-- The rows of B(13), rule R96. -/
def basis13 : Nat → List Int
  | 0 => [4544, 4544, 4544, 4544, 4544, 4544, 4544, 4544, 4544, 4544, 4544, 4544, 4544]
  | 1 => [6379, 6009, 5289, 4261, 2986, 1538, 0, -1538, -2986, -4261, -5289, -6009, -6379]
  | 2 => [6240, 4810, 2279, -775, -3651, -5690, -6426, -5690, -3651, -775, 2279, 4810, 6240]
  | 3 => [6009, 2986, -1538, -5289, -6379, -4261, 0, 4261, 6379, 5289, 1538, -2986, -6009]
  | 4 => [5690, 775, -4810, -6240, -2279, 3651, 6426, 3651, -2279, -6240, -4810, 775, 5690]
  | 5 => [5289, -1538, -6379, -2986, 4261, 6009, 0, -6009, -4261, 2986, 6379, 1538, -5289]
  | 6 => [4810, -3651, -5690, 2279, 6240, -775, -6426, -775, 6240, 2279, -5690, -3651, 4810]
  | 7 => [4261, -5289, -2986, 6009, 1538, -6379, 0, 6379, -1538, -6009, 2986, 5289, -4261]
  | 8 => [3651, -6240, 775, 5690, -4810, -2279, 6426, -2279, -4810, 5690, 775, -6240, 3651]
  | 9 => [2986, -6379, 4261, 1538, -6009, 5289, 0, -5289, 6009, -1538, -4261, 6379, -2986]
  | 10 => [2279, -5690, 6240, -3651, -775, 4810, -6426, 4810, -775, -3651, 6240, -5690, 2279]
  | 11 => [1538, -4261, 6009, -6379, 5289, -2986, 0, 2986, -5289, 6379, -6009, 4261, -1538]
  | 12 => [775, -2279, 3651, -4810, 5690, -6240, 6426, -6240, 5690, -4810, 3651, -2279, 775]
  | _ => []

/-- The rows of B(14), rule R96. -/
def basis14 : Nat → List Int
  | 0 => [4379, 4379, 4379, 4379, 4379, 4379, 4379, 4379, 4379, 4379, 4379, 4379, 4379, 4379]
  | 1 => [6154, 5845, 5243, 4379, 3295, 2045, 693, -693, -2045, -3295, -4379, -5243, -5845, -6154]
  | 2 => [6037, 4842, 2687, 0, -2687, -4842, -6037, -6037, -4842, -2687, 0, 2687, 4842, 6037]
  | 3 => [5845, 3295, -693, -4379, -6154, -5243, -2045, 2045, 5243, 6154, 4379, 693, -3295, -5845]
  | 4 => [5579, 1378, -3861, -6193, -3861, 1378, 5579, 5579, 1378, -3861, -6193, -3861, 1378, 5579]
  | 5 => [5243, -693, -5845, -4379, 2045, 6154, 3295, -3295, -6154, -2045, 4379, 5845, 693, -5243]
  | 6 => [4842, -2687, -6037, 0, 6037, 2687, -4842, -4842, 2687, 6037, 0, -6037, -2687, 4842]
  | 7 => [4379, -4379, -4379, 4379, 4379, -4379, -4379, 4379, 4379, -4379, -4379, 4379, 4379, -4379]
  | 8 => [3861, -5579, -1378, 6193, -1378, -5579, 3861, 3861, -5579, -1378, 6193, -1378, -5579, 3861]
  | 9 => [3295, -6154, 2045, 4379, -5845, 693, 5243, -5243, -693, 5845, -4379, -2045, 6154, -3295]
  | 10 => [2687, -6037, 4842, 0, -4842, 6037, -2687, -2687, 6037, -4842, 0, 4842, -6037, 2687]
  | 11 => [2045, -5243, 6154, -4379, 693, 3295, -5845, 5845, -3295, -693, 4379, -6154, 5243, -2045]
  | 12 => [1378, -3861, 5579, -6193, 5579, -3861, 1378, 1378, -3861, 5579, -6193, 5579, -3861, 1378]
  | 13 => [693, -2045, 3295, -4379, 5243, -5845, 6154, -6154, 5845, -5243, 4379, -3295, 2045, -693]
  | _ => []

/-- The rows of B(15), rule R96. -/
def basis15 : Nat → List Int
  | 0 => [4230, 4230, 4230, 4230, 4230, 4230, 4230, 4230, 4230, 4230, 4230, 4230, 4230, 4230, 4230]
  | 1 => [5950, 5690, 5181, 4446, 3516, 2433, 1244, 0, -1244, -2433, -3516, -4446, -5181, -5690, -5950]
  | 2 => [5852, 4840, 2991, 625, -1849, -4003, -5465, -5983, -5465, -4003, -1849, 625, 2991, 4840, 5852]
  | 3 => [5690, 3516, 0, -3516, -5690, -5690, -3516, 0, 3516, 5690, 5690, 3516, 0, -3516, -5690]
  | 4 => [5465, 1849, -2991, -5852, -4840, -625, 4003, 5983, 4003, -625, -4840, -5852, -2991, 1849, 5465]
  | 5 => [5181, 0, -5181, -5181, 0, 5181, 5181, 0, -5181, -5181, 0, 5181, 5181, 0, -5181]
  | 6 => [4840, -1849, -5983, -1849, 4840, 4840, -1849, -5983, -1849, 4840, 4840, -1849, -5983, -1849, 4840]
  | 7 => [4446, -3516, -5181, 2433, 5690, -1244, -5950, 0, 5950, 1244, -5690, -2433, 5181, 3516, -4446]
  | 8 => [4003, -4840, -2991, 5465, 1849, -5852, -625, 5983, -625, -5852, 1849, 5465, -2991, -4840, 4003]
  | 9 => [3516, -5690, 0, 5690, -3516, -3516, 5690, 0, -5690, 3516, 3516, -5690, 0, 5690, -3516]
  | 10 => [2991, -5983, 2991, 2991, -5983, 2991, 2991, -5983, 2991, 2991, -5983, 2991, 2991, -5983, 2991]
  | 11 => [2433, -5690, 5181, -1244, -3516, 5950, -4446, 0, 4446, -5950, 3516, 1244, -5181, 5690, -2433]
  | 12 => [1849, -4840, 5983, -4840, 1849, 1849, -4840, 5983, -4840, 1849, 1849, -4840, 5983, -4840, 1849]
  | 13 => [1244, -3516, 5181, -5950, 5690, -4446, 2433, 0, -2433, 4446, -5690, 5950, -5181, 3516, -1244]
  | 14 => [625, -1849, 2991, -4003, 4840, -5465, 5852, -5983, 5852, -5465, 4840, -4003, 2991, -1849, 625]
  | _ => []

/-- The rows of B(16), rule R96. -/
def basis16 : Nat → List Int
  | 0 => [4096, 4096, 4096, 4096, 4096, 4096, 4096, 4096, 4096, 4096, 4096, 4096, 4096, 4096, 4096, 4096]
  | 1 => [5765, 5543, 5109, 4478, 3675, 2731, 1682, 568, -568, -1682, -2731, -3675, -4478, -5109, -5543, -5765]
  | 2 => [5681, 4816, 3218, 1130, -1130, -3218, -4816, -5681, -5681, -4816, -3218, -1130, 1130, 3218, 4816, 5681]
  | 3 => [5543, 3675, 568, -2731, -5109, -5765, -4478, -1682, 1682, 4478, 5765, 5109, 2731, -568, -3675, -5543]
  | 4 => [5352, 2217, -2217, -5352, -5352, -2217, 2217, 5352, 5352, 2217, -2217, -5352, -5352, -2217, 2217, 5352]
  | 5 => [5109, 568, -4478, -5543, -1682, 3675, 5765, 2731, -2731, -5765, -3675, 1682, 5543, 4478, -568, -5109]
  | 6 => [4816, -1130, -5681, -3218, 3218, 5681, 1130, -4816, -4816, 1130, 5681, 3218, -3218, -5681, -1130, 4816]
  | 7 => [4478, -2731, -5543, 568, 5765, 1682, -5109, -3675, 3675, 5109, -1682, -5765, -568, 5543, 2731, -4478]
  | 8 => [4096, -4096, -4096, 4096, 4096, -4096, -4096, 4096, 4096, -4096, -4096, 4096, 4096, -4096, -4096, 4096]
  | 9 => [3675, -5109, -1682, 5765, -568, -5543, 2731, 4478, -4478, -2731, 5543, 568, -5765, 1682, 5109, -3675]
  | 10 => [3218, -5681, 1130, 4816, -4816, -1130, 5681, -3218, -3218, 5681, -1130, -4816, 4816, 1130, -5681, 3218]
  | 11 => [2731, -5765, 3675, 1682, -5543, 4478, 568, -5109, 5109, -568, -4478, 5543, -1682, -3675, 5765, -2731]
  | 12 => [2217, -5352, 5352, -2217, -2217, 5352, -5352, 2217, 2217, -5352, 5352, -2217, -2217, 5352, -5352, 2217]
  | 13 => [1682, -4478, 5765, -5109, 2731, 568, -3675, 5543, -5543, 3675, -568, -2731, 5109, -5765, 4478, -1682]
  | 14 => [1130, -3218, 4816, -5681, 5681, -4816, 3218, -1130, -1130, 3218, -4816, 5681, -5681, 4816, -3218, 1130]
  | 15 => [568, -1682, 2731, -3675, 4478, -5109, 5543, -5765, 5765, -5543, 5109, -4478, 3675, -2731, 1682, -568]
  | _ => []

/-- The rows of B(17), rule R96. -/
def basis17 : Nat → List Int
  | 0 => [3974, 3974, 3974, 3974, 3974, 3974, 3974, 3974, 3974, 3974, 3974, 3974, 3974, 3974, 3974, 3974, 3974]
  | 1 => [5596, 5405, 5031, 4485, 3786, 2958, 2030, 1033, 0, -1033, -2030, -2958, -3786, -4485, -5031, -5405, -5596]
  | 2 => [5524, 4778, 3387, 1538, -519, -2505, -4153, -5240, -5620, -5240, -4153, -2505, -519, 1538, 3387, 4778, 5524]
  | 3 => [5405, 3786, 1033, -2030, -4485, -5596, -5031, -2958, 0, 2958, 5031, 5596, 4485, 2030, -1033, -3786, -5405]
  | 4 => [5240, 2505, -1538, -4778, -5524, -3387, 519, 4153, 5620, 4153, 519, -3387, -5524, -4778, -1538, 2505, 5240]
  | 5 => [5031, 1033, -3786, -5596, -2958, 2030, 5405, 4485, 0, -4485, -5405, -2030, 2958, 5596, 3786, -1033, -5031]
  | 6 => [4778, -519, -5240, -4153, 1538, 5524, 3387, -2505, -5620, -2505, 3387, 5524, 1538, -4153, -5240, -519, 4778]
  | 7 => [4485, -2030, -5596, -1033, 5031, 3786, -2958, -5405, 0, 5405, 2958, -3786, -5031, 1033, 5596, 2030, -4485]
  | 8 => [4153, -3387, -4778, 2505, 5240, -1538, -5524, 519, 5620, 519, -5524, -1538, 5240, 2505, -4778, -3387, 4153]
  | 9 => [3786, -4485, -2958, 5031, 2030, -5405, -1033, 5596, 0, -5596, 1033, 5405, -2030, -5031, 2958, 4485, -3786]
  | 10 => [3387, -5240, -519, 5524, -2505, -4153, 4778, 1538, -5620, 1538, 4778, -4153, -2505, 5524, -519, -5240, 3387]
  | 11 => [2958, -5596, 2030, 3786, -5405, 1033, 4485, -5031, 0, 5031, -4485, -1033, 5405, -3786, -2030, 5596, -2958]
  | 12 => [2505, -5524, 4153, 519, -4778, 5240, -1538, -3387, 5620, -3387, -1538, 5240, -4778, 519, 4153, -5524, 2505]
  | 13 => [2030, -5031, 5405, -2958, -1033, 4485, -5596, 3786, 0, -3786, 5596, -4485, 1033, 2958, -5405, 5031, -2030]
  | 14 => [1538, -4153, 5524, -5240, 3387, -519, -2505, 4778, -5620, 4778, -2505, -519, 3387, -5240, 5524, -4153, 1538]
  | 15 => [1033, -2958, 4485, -5405, 5596, -5031, 3786, -2030, 0, 2030, -3786, 5031, -5596, 5405, -4485, 2958, -1033]
  | 16 => [519, -1538, 2505, -3387, 4153, -4778, 5240, -5524, 5620, -5524, 5240, -4778, 4153, -3387, 2505, -1538, 519]
  | _ => []

/-- The rows of B(18), rule R96. -/
def basis18 : Nat → List Int
  | 0 => [3862, 3862, 3862, 3862, 3862, 3862, 3862, 3862, 3862, 3862, 3862, 3862, 3862, 3862, 3862, 3862, 3862, 3862]
  | 1 => [5441, 5275, 4950, 4474, 3862, 3132, 2308, 1413, 476, -476, -1413, -2308, -3132, -3862, -4474, -4950, -5275, -5441]
  | 2 => [5378, 4730, 3510, 1868, 0, -1868, -3510, -4730, -5378, -5378, -4730, -3510, -1868, 0, 1868, 3510, 4730, 5378]
  | 3 => [5275, 3862, 1413, -1413, -3862, -5275, -5275, -3862, -1413, 1413, 3862, 5275, 5275, 3862, 1413, -1413, -3862, -5275]
  | 4 => [5132, 2731, -948, -4184, -5461, -4184, -948, 2731, 5132, 5132, 2731, -948, -4184, -5461, -4184, -948, 2731, 5132]
  | 5 => [4950, 1413, -3132, -5441, -3862, 476, 4474, 5275, 2308, -2308, -5275, -4474, -476, 3862, 5441, 3132, -1413, -4950]
  | 6 => [4730, 0, -4730, -4730, 0, 4730, 4730, 0, -4730, -4730, 0, 4730, 4730, 0, -4730, -4730, 0, 4730]
  | 7 => [4474, -1413, -5441, -2308, 3862, 4950, -476, -5275, -3132, 3132, 5275, 476, -4950, -3862, 2308, 5441, 1413, -4474]
  | 8 => [4184, -2731, -5132, 948, 5461, 948, -5132, -2731, 4184, 4184, -2731, -5132, 948, 5461, 948, -5132, -2731, 4184]
  | 9 => [3862, -3862, -3862, 3862, 3862, -3862, -3862, 3862, 3862, -3862, -3862, 3862, 3862, -3862, -3862, 3862, 3862, -3862]
  | 10 => [3510, -4730, -1868, 5378, 0, -5378, 1868, 4730, -3510, -3510, 4730, 1868, -5378, 0, 5378, -1868, -4730, 3510]
  | 11 => [3132, -5275, 476, 4950, -3862, -2308, 5441, -1413, -4474, 4474, 1413, -5441, 2308, 3862, -4950, -476, 5275, -3132]
  | 12 => [2731, -5461, 2731, 2731, -5461, 2731, 2731, -5461, 2731, 2731, -5461, 2731, 2731, -5461, 2731, 2731, -5461, 2731]
  | 13 => [2308, -5275, 4474, -476, -3862, 5441, -3132, -1413, 4950, -4950, 1413, 3132, -5441, 3862, 476, -4474, 5275, -2308]
  | 14 => [1868, -4730, 5378, -3510, 0, 3510, -5378, 4730, -1868, -1868, 4730, -5378, 3510, 0, -3510, 5378, -4730, 1868]
  | 15 => [1413, -3862, 5275, -5275, 3862, -1413, -1413, 3862, -5275, 5275, -3862, 1413, 1413, -3862, 5275, -5275, 3862, -1413]
  | 16 => [948, -2731, 4184, -5132, 5461, -5132, 4184, -2731, 948, 948, -2731, 4184, -5132, 5461, -5132, 4184, -2731, 948]
  | 17 => [476, -1413, 2308, -3132, 3862, -4474, 4950, -5275, 5441, -5441, 5275, -4950, 4474, -3862, 3132, -2308, 1413, -476]
  | _ => []

/-- The rows of B(19), rule R96. -/
def basis19 : Nat → List Int
  | 0 => [3759, 3759, 3759, 3759, 3759, 3759, 3759, 3759, 3759, 3759, 3759, 3759, 3759, 3759, 3759, 3759, 3759, 3759, 3759]
  | 1 => [5298, 5153, 4868, 4450, 3911, 3265, 2530, 1726, 875, 0, -875, -1726, -2530, -3265, -3911, -4450, -4868, -5153, -5298]
  | 2 => [5243, 4675, 3600, 2135, 439, -1305, -2907, -4195, -5028, -5316, -5028, -4195, -2907, -1305, 439, 2135, 3600, 4675, 5243]
  | 3 => [5153, 3911, 1726, -875, -3265, -4868, -5298, -4450, -2530, 0, 2530, 4450, 5298, 4868, 3265, 875, -1726, -3911, -5153]
  | 4 => [5028, 2907, -439, -3600, -5243, -4675, -2135, 1305, 4195, 5316, 4195, 1305, -2135, -4675, -5243, -3600, -439, 2907, 5028]
  | 5 => [4868, 1726, -2530, -5153, -4450, -875, 3265, 5298, 3911, 0, -3911, -5298, -3265, 875, 4450, 5153, 2530, -1726, -4868]
  | 6 => [4675, 439, -4195, -5028, -1305, 3600, 5243, 2135, -2907, -5316, -2907, 2135, 5243, 3600, -1305, -5028, -4195, 439, 4675]
  | 7 => [4450, -875, -5153, -3265, 2530, 5298, 1726, -3911, -4868, 0, 4868, 3911, -1726, -5298, -2530, 3265, 5153, 875, -4450]
  | 8 => [4195, -2135, -5243, -439, 5028, 2907, -3600, -4675, 1305, 5316, 1305, -4675, -3600, 2907, 5028, -439, -5243, -2135, 4195]
  | 9 => [3911, -3265, -4450, 2530, 4868, -1726, -5153, 875, 5298, 0, -5298, -875, 5153, 1726, -4868, -2530, 4450, 3265, -3911]
  | 10 => [3600, -4195, -2907, 4675, 2135, -5028, -1305, 5243, 439, -5316, 439, 5243, -1305, -5028, 2135, 4675, -2907, -4195, 3600]
  | 11 => [3265, -4868, -875, 5298, -1726, -4450, 3911, 2530, -5153, 0, 5153, -2530, -3911, 4450, 1726, -5298, 875, 4868, -3265]
  | 12 => [2907, -5243, 1305, 4195, -4675, -439, 5028, -3600, -2135, 5316, -2135, -3600, 5028, -439, -4675, 4195, 1305, -5243, 2907]
  | 13 => [2530, -5298, 3265, 1726, -5153, 3911, 875, -4868, 4450, 0, -4450, 4868, -875, -3911, 5153, -1726, -3265, 5298, -2530]
  | 14 => [2135, -5028, 4675, -1305, -2907, 5243, -4195, 439, 3600, -5316, 3600, 439, -4195, 5243, -2907, -1305, 4675, -5028, 2135]
  | 15 => [1726, -4450, 5298, -3911, 875, 2530, -4868, 5153, -3265, 0, 3265, -5153, 4868, -2530, -875, 3911, -5298, 4450, -1726]
  | 16 => [1305, -3600, 5028, -5243, 4195, -2135, -439, 2907, -4675, 5316, -4675, 2907, -439, -2135, 4195, -5243, 5028, -3600, 1305]
  | 17 => [875, -2530, 3911, -4868, 5298, -5153, 4450, -3265, 1726, 0, -1726, 3265, -4450, 5153, -5298, 4868, -3911, 2530, -875]
  | 18 => [439, -1305, 2135, -2907, 3600, -4195, 4675, -5028, 5243, -5316, 5243, -5028, 4675, -4195, 3600, -2907, 2135, -1305, 439]
  | _ => []

/-- The rows of B(20), rule R96. -/
def basis20 : Nat → List Int
  | 0 => [3664, 3664, 3664, 3664, 3664, 3664, 3664, 3664, 3664, 3664, 3664, 3664, 3664, 3664, 3664, 3664, 3664, 3664, 3664, 3664]
  | 1 => [5165, 5038, 4787, 4418, 3940, 3365, 2707, 1983, 1209, 407, -407, -1209, -1983, -2707, -3365, -3940, -4418, -4787, -5038, -5165]
  | 2 => [5117, 4616, 3664, 2352, 810, -810, -2352, -3664, -4616, -5117, -5117, -4616, -3664, -2352, -810, 810, 2352, 3664, 4616, 5117]
  | 3 => [5038, 3940, 1983, -407, -2707, -4418, -5165, -4787, -3365, -1209, 1209, 3365, 4787, 5165, 4418, 2707, 407, -1983, -3940, -5038]
  | 4 => [4927, 3045, 0, -3045, -4927, -4927, -3045, 0, 3045, 4927, 4927, 3045, 0, -3045, -4927, -4927, -3045, 0, 3045, 4927]
  | 5 => [4787, 1983, -1983, -4787, -4787, -1983, 1983, 4787, 4787, 1983, -1983, -4787, -4787, -1983, 1983, 4787, 4787, 1983, -1983, -4787]
  | 6 => [4616, 810, -3664, -5117, -2352, 2352, 5117, 3664, -810, -4616, -4616, -810, 3664, 5117, 2352, -2352, -5117, -3664, 810, 4616]
  | 7 => [4418, -407, -4787, -3940, 1209, 5038, 3365, -1983, -5165, -2707, 2707, 5165, 1983, -3365, -5038, -1209, 3940, 4787, 407, -4418]
  | 8 => [4192, -1601, -5181, -1601, 4192, 4192, -1601, -5181, -1601, 4192, 4192, -1601, -5181, -1601, 4192, 4192, -1601, -5181, -1601, 4192]
  | 9 => [3940, -2707, -4787, 1209, 5165, 407, -5038, -1983, 4418, 3365, -3365, -4418, 1983, 5038, -407, -5165, -1209, 4787, 2707, -3940]
  | 10 => [3664, -3664, -3664, 3664, 3664, -3664, -3664, 3664, 3664, -3664, -3664, 3664, 3664, -3664, -3664, 3664, 3664, -3664, -3664, 3664]
  | 11 => [3365, -4418, -1983, 5038, 407, -5165, 1209, 4787, -2707, -3940, 3940, 2707, -4787, -1209, 5165, -407, -5038, 1983, 4418, -3365]
  | 12 => [3045, -4927, 0, 4927, -3045, -3045, 4927, 0, -4927, 3045, 3045, -4927, 0, 4927, -3045, -3045, 4927, 0, -4927, 3045]
  | 13 => [2707, -5165, 1983, 3365, -5038, 1209, 3940, -4787, 407, 4418, -4418, -407, 4787, -3940, -1209, 5038, -3365, -1983, 5165, -2707]
  | 14 => [2352, -5117, 3664, 810, -4616, 4616, -810, -3664, 5117, -2352, -2352, 5117, -3664, -810, 4616, -4616, 810, 3664, -5117, 2352]
  | 15 => [1983, -4787, 4787, -1983, -1983, 4787, -4787, 1983, 1983, -4787, 4787, -1983, -1983, 4787, -4787, 1983, 1983, -4787, 4787, -1983]
  | 16 => [1601, -4192, 5181, -4192, 1601, 1601, -4192, 5181, -4192, 1601, 1601, -4192, 5181, -4192, 1601, 1601, -4192, 5181, -4192, 1601]
  | 17 => [1209, -3365, 4787, -5165, 4418, -2707, 407, 1983, -3940, 5038, -5038, 3940, -1983, -407, 2707, -4418, 5165, -4787, 3365, -1209]
  | 18 => [810, -2352, 3664, -4616, 5117, -5117, 4616, -3664, 2352, -810, -810, 2352, -3664, 4616, -5117, 5117, -4616, 3664, -2352, 810]
  | 19 => [407, -1209, 1983, -2707, 3365, -3940, 4418, -4787, 5038, -5165, 5165, -5038, 4787, -4418, 3940, -3365, 2707, -1983, 1209, -407]
  | _ => []

/-- The rows of B(21), rule R96. -/
def basis21 : Nat → List Int
  | 0 => [3575, 3575, 3575, 3575, 3575, 3575, 3575, 3575, 3575, 3575, 3575, 3575, 3575, 3575, 3575, 3575, 3575, 3575, 3575, 3575, 3575]
  | 1 => [5042, 4929, 4707, 4379, 3953, 3439, 2848, 2194, 1490, 754, 0, -754, -1490, -2194, -2848, -3439, -3953, -4379, -4707, -4929, -5042]
  | 2 => [5000, 4555, 3706, 2528, 1125, -378, -1847, -3152, -4178, -4832, -5056, -4832, -4178, -3152, -1847, -378, 1125, 2528, 3706, 4555, 5000]
  | 3 => [4929, 3953, 2194, 0, -2194, -3953, -4929, -4929, -3953, -2194, 0, 2194, 3953, 4929, 4929, 3953, 2194, 0, -2194, -3953, -4929]
  | 4 => [4832, 3152, 378, -2528, -4555, -5000, -3706, -1125, 1847, 4178, 5056, 4178, 1847, -1125, -3706, -5000, -4555, -2528, 378, 3152, 4832]
  | 5 => [4707, 2194, -1490, -4379, -4929, -2848, 754, 3953, 5042, 3439, 0, -3439, -5042, -3953, -754, 2848, 4929, 4379, 1490, -2194, -4707]
  | 6 => [4555, 1125, -3152, -5056, -3152, 1125, 4555, 4555, 1125, -3152, -5056, -3152, 1125, 4555, 4555, 1125, -3152, -5056, -3152, 1125, 4555]
  | 7 => [4379, 0, -4379, -4379, 0, 4379, 4379, 0, -4379, -4379, 0, 4379, 4379, 0, -4379, -4379, 0, 4379, 4379, 0, -4379]
  | 8 => [4178, -1125, -5000, -2528, 3152, 4832, 378, -4555, -3706, 1847, 5056, 1847, -3706, -4555, 378, 4832, 3152, -2528, -5000, -1125, 4178]
  | 9 => [3953, -2194, -4929, 0, 4929, 2194, -3953, -3953, 2194, 4929, 0, -4929, -2194, 3953, 3953, -2194, -4929, 0, 4929, 2194, -3953]
  | 10 => [3706, -3152, -4178, 2528, 4555, -1847, -4832, 1125, 5000, -378, -5056, -378, 5000, 1125, -4832, -1847, 4555, 2528, -4178, -3152, 3706]
  | 11 => [3439, -3953, -2848, 4379, 2194, -4707, -1490, 4929, 754, -5042, 0, 5042, -754, -4929, 1490, 4707, -2194, -4379, 2848, 3953, -3439]
  | 12 => [3152, -4555, -1125, 5056, -1125, -4555, 3152, 3152, -4555, -1125, 5056, -1125, -4555, 3152, 3152, -4555, -1125, 5056, -1125, -4555, 3152]
  | 13 => [2848, -4929, 754, 4379, -3953, -1490, 5042, -2194, -3439, 4707, 0, -4707, 3439, 2194, -5042, 1490, 3953, -4379, -754, 4929, -2848]
  | 14 => [2528, -5056, 2528, 2528, -5056, 2528, 2528, -5056, 2528, 2528, -5056, 2528, 2528, -5056, 2528, 2528, -5056, 2528, 2528, -5056, 2528]
  | 15 => [2194, -4929, 3953, 0, -3953, 4929, -2194, -2194, 4929, -3953, 0, 3953, -4929, 2194, 2194, -4929, 3953, 0, -3953, 4929, -2194]
  | 16 => [1847, -4555, 4832, -2528, -1125, 4178, -5000, 3152, 378, -3706, 5056, -3706, 378, 3152, -5000, 4178, -1125, -2528, 4832, -4555, 1847]
  | 17 => [1490, -3953, 5042, -4379, 2194, 754, -3439, 4929, -4707, 2848, 0, -2848, 4707, -4929, 3439, -754, -2194, 4379, -5042, 3953, -1490]
  | 18 => [1125, -3152, 4555, -5056, 4555, -3152, 1125, 1125, -3152, 4555, -5056, 4555, -3152, 1125, 1125, -3152, 4555, -5056, 4555, -3152, 1125]
  | 19 => [754, -2194, 3439, -4379, 4929, -5042, 4707, -3953, 2848, -1490, 0, 1490, -2848, 3953, -4707, 5042, -4929, 4379, -3439, 2194, -754]
  | 20 => [378, -1125, 1847, -2528, 3152, -3706, 4178, -4555, 4832, -5000, 5056, -5000, 4832, -4555, 4178, -3706, 3152, -2528, 1847, -1125, 378]
  | _ => []

/-- The rows of B(22), rule R96. -/
def basis22 : Nat → List Int
  | 0 => [3493, 3493, 3493, 3493, 3493, 3493, 3493, 3493, 3493, 3493, 3493, 3493, 3493, 3493, 3493, 3493, 3493, 3493, 3493, 3493, 3493, 3493]
  | 1 => [4927, 4827, 4628, 4336, 3955, 3493, 2960, 2367, 1726, 1050, 352, -352, -1050, -1726, -2367, -2960, -3493, -3955, -4336, -4628, -4827, -4927]
  | 2 => [4890, 4494, 3733, 2671, 1392, 0, -1392, -2671, -3733, -4494, -4890, -4890, -4494, -3733, -2671, -1392, 0, 1392, 2671, 3733, 4494, 4890]
  | 3 => [4827, 3955, 2367, 352, -1726, -3493, -4628, -4927, -4336, -2960, -1050, 1050, 2960, 4336, 4927, 4628, 3493, 1726, -352, -2367, -3955, -4827]
  | 4 => [4740, 3235, 703, -2052, -4156, -4940, -4156, -2052, 703, 3235, 4740, 4740, 3235, 703, -2052, -4156, -4940, -4156, -2052, 703, 3235, 4740]
  | 5 => [4628, 2367, -1050, -3955, -4927, -3493, -352, 2960, 4827, 4336, 1726, -1726, -4336, -4827, -2960, 352, 3493, 4927, 3955, 1050, -2367, -4628]
  | 6 => [4494, 1392, -2671, -4890, -3733, 0, 3733, 4890, 2671, -1392, -4494, -4494, -1392, 2671, 4890, 3733, 0, -3733, -4890, -2671, 1392, 4494]
  | 7 => [4336, 352, -3955, -4628, -1050, 3493, 4827, 1726, -2960, -4927, -2367, 2367, 4927, 2960, -1726, -4827, -3493, 1050, 4628, 3955, -352, -4336]
  | 8 => [4156, -703, -4740, -3235, 2052, 4940, 2052, -3235, -4740, -703, 4156, 4156, -703, -4740, -3235, 2052, 4940, 2052, -3235, -4740, -703, 4156]
  | 9 => [3955, -1726, -4927, -1050, 4336, 3493, -2367, -4827, -352, 4628, 2960, -2960, -4628, 352, 4827, 2367, -3493, -4336, 1050, 4927, 1726, -3955]
  | 10 => [3733, -2671, -4494, 1392, 4890, 0, -4890, -1392, 4494, 2671, -3733, -3733, 2671, 4494, -1392, -4890, 0, 4890, 1392, -4494, -2671, 3733]
  | 11 => [3493, -3493, -3493, 3493, 3493, -3493, -3493, 3493, 3493, -3493, -3493, 3493, 3493, -3493, -3493, 3493, 3493, -3493, -3493, 3493, 3493, -3493]
  | 12 => [3235, -4156, -2052, 4740, 703, -4940, 703, 4740, -2052, -4156, 3235, 3235, -4156, -2052, 4740, 703, -4940, 703, 4740, -2052, -4156, 3235]
  | 13 => [2960, -4628, -352, 4827, -2367, -3493, 4336, 1050, -4927, 1726, 3955, -3955, -1726, 4927, -1050, -4336, 3493, 2367, -4827, 352, 4628, -2960]
  | 14 => [2671, -4890, 1392, 3733, -4494, 0, 4494, -3733, -1392, 4890, -2671, -2671, 4890, -1392, -3733, 4494, 0, -4494, 3733, 1392, -4890, 2671]
  | 15 => [2367, -4927, 2960, 1726, -4827, 3493, 1050, -4628, 3955, 352, -4336, 4336, -352, -3955, 4628, -1050, -3493, 4827, -1726, -2960, 4927, -2367]
  | 16 => [2052, -4740, 4156, -703, -3235, 4940, -3235, -703, 4156, -4740, 2052, 2052, -4740, 4156, -703, -3235, 4940, -3235, -703, 4156, -4740, 2052]
  | 17 => [1726, -4336, 4827, -2960, -352, 3493, -4927, 3955, -1050, -2367, 4628, -4628, 2367, 1050, -3955, 4927, -3493, 352, 2960, -4827, 4336, -1726]
  | 18 => [1392, -3733, 4890, -4494, 2671, 0, -2671, 4494, -4890, 3733, -1392, -1392, 3733, -4890, 4494, -2671, 0, 2671, -4494, 4890, -3733, 1392]
  | 19 => [1050, -2960, 4336, -4927, 4628, -3493, 1726, 352, -2367, 3955, -4827, 4827, -3955, 2367, -352, -1726, 3493, -4628, 4927, -4336, 2960, -1050]
  | 20 => [703, -2052, 3235, -4156, 4740, -4940, 4740, -4156, 3235, -2052, 703, 703, -2052, 3235, -4156, 4740, -4940, 4740, -4156, 3235, -2052, 703]
  | 21 => [352, -1050, 1726, -2367, 2960, -3493, 3955, -4336, 4628, -4827, 4927, -4927, 4827, -4628, 4336, -3955, 3493, -2960, 2367, -1726, 1050, -352]
  | _ => []

/-- The rows of B(23), rule R96. -/
def basis23 : Nat → List Int
  | 0 => [3416, 3416, 3416, 3416, 3416, 3416, 3416, 3416, 3416, 3416, 3416, 3416, 3416, 3416, 3416, 3416, 3416, 3416, 3416, 3416, 3416, 3416, 3416]
  | 1 => [4820, 4730, 4552, 4290, 3947, 3531, 3049, 2510, 1925, 1303, 658, 0, -658, -1303, -1925, -2510, -3049, -3531, -3947, -4290, -4552, -4730, -4820]
  | 2 => [4786, 4431, 3748, 2786, 1618, 330, -983, -2223, -3298, -4128, -4652, -4831, -4652, -4128, -3298, -2223, -983, 330, 1618, 2786, 3748, 4431, 4786]
  | 3 => [4730, 3947, 2510, 658, -1303, -3049, -4290, -4820, -4552, -3531, -1925, 0, 1925, 3531, 4552, 4820, 4290, 3049, 1303, -658, -2510, -3947, -4730]
  | 4 => [4652, 3298, 983, -1618, -3748, -4786, -4431, -2786, -330, 2223, 4128, 4831, 4128, 2223, -330, -2786, -4431, -4786, -3748, -1618, 983, 3298, 4652]
  | 5 => [4552, 2510, -658, -3531, -4820, -3947, -1303, 1925, 4290, 4730, 3049, 0, -3049, -4730, -4290, -1925, 1303, 3947, 4820, 3531, 658, -2510, -4552]
  | 6 => [4431, 1618, -2223, -4652, -4128, -983, 2786, 4786, 3748, 330, -3298, -4831, -3298, 330, 3748, 4786, 2786, -983, -4128, -4652, -2223, 1618, 4431]
  | 7 => [4290, 658, -3531, -4730, -1925, 2510, 4820, 3049, -1303, -4552, -3947, 0, 3947, 4552, 1303, -3049, -4820, -2510, 1925, 4730, 3531, -658, -4290]
  | 8 => [4128, -330, -4431, -3748, 983, 4652, 3298, -1618, -4786, -2786, 2223, 4831, 2223, -2786, -4786, -1618, 3298, 4652, 983, -3748, -4431, -330, 4128]
  | 9 => [3947, -1303, -4820, -1925, 3531, 4290, -658, -4730, -2510, 3049, 4552, 0, -4552, -3049, 2510, 4730, 658, -4290, -3531, 1925, 4820, 1303, -3947]
  | 10 => [3748, -2223, -4652, 330, 4786, 1618, -4128, -3298, 2786, 4431, -983, -4831, -983, 4431, 2786, -3298, -4128, 1618, 4786, 330, -4652, -2223, 3748]
  | 11 => [3531, -3049, -3947, 2510, 4290, -1925, -4552, 1303, 4730, -658, -4820, 0, 4820, 658, -4730, -1303, 4552, 1925, -4290, -2510, 3947, 3049, -3531]
  | 12 => [3298, -3748, -2786, 4128, 2223, -4431, -1618, 4652, 983, -4786, -330, 4831, -330, -4786, 983, 4652, -1618, -4431, 2223, 4128, -2786, -3748, 3298]
  | 13 => [3049, -4290, -1303, 4820, -658, -4552, 2510, 3531, -3947, -1925, 4730, 0, -4730, 1925, 3947, -3531, -2510, 4552, 658, -4820, 1303, 4290, -3049]
  | 14 => [2786, -4652, 330, 4431, -3298, -2223, 4786, -983, -4128, 3748, 1618, -4831, 1618, 3748, -4128, -983, 4786, -2223, -3298, 4431, 330, -4652, 2786]
  | 15 => [2510, -4820, 1925, 3049, -4730, 1303, 3531, -4552, 658, 3947, -4290, 0, 4290, -3947, -658, 4552, -3531, -1303, 4730, -3049, -1925, 4820, -2510]
  | 16 => [2223, -4786, 3298, 983, -4431, 4128, -330, -3748, 4652, -1618, -2786, 4831, -2786, -1618, 4652, -3748, -330, 4128, -4431, 983, 3298, -4786, 2223]
  | 17 => [1925, -4552, 4290, -1303, -2510, 4730, -3947, 658, 3049, -4820, 3531, 0, -3531, 4820, -3049, -658, 3947, -4730, 2510, 1303, -4290, 4552, -1925]
  | 18 => [1618, -4128, 4786, -3298, 330, 2786, -4652, 4431, -2223, -983, 3748, -4831, 3748, -983, -2223, 4431, -4652, 2786, 330, -3298, 4786, -4128, 1618]
  | 19 => [1303, -3531, 4730, -4552, 3049, -658, -1925, 3947, -4820, 4290, -2510, 0, 2510, -4290, 4820, -3947, 1925, 658, -3049, 4552, -4730, 3531, -1303]
  | 20 => [983, -2786, 4128, -4786, 4652, -3748, 2223, -330, -1618, 3298, -4431, 4831, -4431, 3298, -1618, -330, 2223, -3748, 4652, -4786, 4128, -2786, 983]
  | 21 => [658, -1925, 3049, -3947, 4552, -4820, 4730, -4290, 3531, -2510, 1303, 0, -1303, 2510, -3531, 4290, -4730, 4820, -4552, 3947, -3049, 1925, -658]
  | 22 => [330, -983, 1618, -2223, 2786, -3298, 3748, -4128, 4431, -4652, 4786, -4831, 4786, -4652, 4431, -4128, 3748, -3298, 2786, -2223, 1618, -983, 330]
  | _ => []

/-- The rows of B(24), rule R96. -/
def basis24 : Nat → List Int
  | 0 => [3344, 3344, 3344, 3344, 3344, 3344, 3344, 3344, 3344, 3344, 3344, 3344, 3344, 3344, 3344, 3344, 3344, 3344, 3344, 3344, 3344, 3344, 3344, 3344]
  | 1 => [4720, 4639, 4479, 4242, 3933, 3556, 3118, 2628, 2092, 1520, 923, 309, -309, -923, -1520, -2092, -2628, -3118, -3556, -3933, -4242, -4479, -4639, -4720]
  | 2 => [4689, 4370, 3752, 2879, 1810, 617, -617, -1810, -2879, -3752, -4370, -4689, -4689, -4370, -3752, -2879, -1810, -617, 617, 1810, 2879, 3752, 4370, 4689]
  | 3 => [4639, 3933, 2628, 923, -923, -2628, -3933, -4639, -4639, -3933, -2628, -923, 923, 2628, 3933, 4639, 4639, 3933, 2628, 923, -923, -2628, -3933, -4639]
  | 4 => [4568, 3344, 1224, -1224, -3344, -4568, -4568, -3344, -1224, 1224, 3344, 4568, 4568, 3344, 1224, -1224, -3344, -4568, -4568, -3344, -1224, 1224, 3344, 4568]
  | 5 => [4479, 2628, -309, -3118, -4639, -4242, -2092, 923, 3556, 4720, 3933, 1520, -1520, -3933, -4720, -3556, -923, 2092, 4242, 4639, 3118, 309, -2628, -4479]
  | 6 => [4370, 1810, -1810, -4370, -4370, -1810, 1810, 4370, 4370, 1810, -1810, -4370, -4370, -1810, 1810, 4370, 4370, 1810, -1810, -4370, -4370, -1810, 1810, 4370]
  | 7 => [4242, 923, -3118, -4720, -2628, 1520, 4479, 3933, 309, -3556, -4639, -2092, 2092, 4639, 3556, -309, -3933, -4479, -1520, 2628, 4720, 3118, -923, -4242]
  | 8 => [4096, 0, -4096, -4096, 0, 4096, 4096, 0, -4096, -4096, 0, 4096, 4096, 0, -4096, -4096, 0, 4096, 4096, 0, -4096, -4096, 0, 4096]
  | 9 => [3933, -923, -4639, -2628, 2628, 4639, 923, -3933, -3933, 923, 4639, 2628, -2628, -4639, -923, 3933, 3933, -923, -4639, -2628, 2628, 4639, 923, -3933]
  | 10 => [3752, -1810, -4689, -617, 4370, 2879, -2879, -4370, 617, 4689, 1810, -3752, -3752, 1810, 4689, 617, -4370, -2879, 2879, 4370, -617, -4689, -1810, 3752]
  | 11 => [3556, -2628, -4242, 1520, 4639, -309, -4720, -923, 4479, 2092, -3933, -3118, 3118, 3933, -2092, -4479, 923, 4720, 309, -4639, -1520, 4242, 2628, -3556]
  | 12 => [3344, -3344, -3344, 3344, 3344, -3344, -3344, 3344, 3344, -3344, -3344, 3344, 3344, -3344, -3344, 3344, 3344, -3344, -3344, 3344, 3344, -3344, -3344, 3344]
  | 13 => [3118, -3933, -2092, 4479, 923, -4720, 309, 4639, -1520, -4242, 2628, 3556, -3556, -2628, 4242, 1520, -4639, -309, 4720, -923, -4479, 2092, 3933, -3118]
  | 14 => [2879, -4370, -617, 4689, -1810, -3752, 3752, 1810, -4689, 617, 4370, -2879, -2879, 4370, 617, -4689, 1810, 3752, -3752, -1810, 4689, -617, -4370, 2879]
  | 15 => [2628, -4639, 923, 3933, -3933, -923, 4639, -2628, -2628, 4639, -923, -3933, 3933, 923, -4639, 2628, 2628, -4639, 923, 3933, -3933, -923, 4639, -2628]
  | 16 => [2365, -4730, 2365, 2365, -4730, 2365, 2365, -4730, 2365, 2365, -4730, 2365, 2365, -4730, 2365, 2365, -4730, 2365, 2365, -4730, 2365, 2365, -4730, 2365]
  | 17 => [2092, -4639, 3556, 309, -3933, 4479, -1520, -2628, 4720, -3118, -923, 4242, -4242, 923, 3118, -4720, 2628, 1520, -4479, 3933, -309, -3556, 4639, -2092]
  | 18 => [1810, -4370, 4370, -1810, -1810, 4370, -4370, 1810, 1810, -4370, 4370, -1810, -1810, 4370, -4370, 1810, 1810, -4370, 4370, -1810, -1810, 4370, -4370, 1810]
  | 19 => [1520, -3933, 4720, -3556, 923, 2092, -4242, 4639, -3118, 309, 2628, -4479, 4479, -2628, -309, 3118, -4639, 4242, -2092, -923, 3556, -4720, 3933, -1520]
  | 20 => [1224, -3344, 4568, -4568, 3344, -1224, -1224, 3344, -4568, 4568, -3344, 1224, 1224, -3344, 4568, -4568, 3344, -1224, -1224, 3344, -4568, 4568, -3344, 1224]
  | 21 => [923, -2628, 3933, -4639, 4639, -3933, 2628, -923, -923, 2628, -3933, 4639, -4639, 3933, -2628, 923, 923, -2628, 3933, -4639, 4639, -3933, 2628, -923]
  | 22 => [617, -1810, 2879, -3752, 4370, -4689, 4689, -4370, 3752, -2879, 1810, -617, -617, 1810, -2879, 3752, -4370, 4689, -4689, 4370, -3752, 2879, -1810, 617]
  | 23 => [309, -923, 1520, -2092, 2628, -3118, 3556, -3933, 4242, -4479, 4639, -4720, 4720, -4639, 4479, -4242, 3933, -3556, 3118, -2628, 2092, -1520, 923, -309]
  | _ => []

/-- The rows of B(25), rule R96. -/
def basis25 : Nat → List Int
  | 0 => [3277, 3277, 3277, 3277, 3277, 3277, 3277, 3277, 3277, 3277, 3277, 3277, 3277, 3277, 3277, 3277, 3277, 3277, 3277, 3277, 3277, 3277, 3277, 3277, 3277]
  | 1 => [4625, 4552, 4407, 4193, 3913, 3571, 3172, 2724, 2232, 1706, 1152, 581, 0, -581, -1152, -1706, -2232, -2724, -3172, -3571, -3913, -4193, -4407, -4552, -4625]
  | 2 => [4598, 4309, 3749, 2954, 1973, 868, -291, -1432, -2483, -3378, -4061, -4489, -4634, -4489, -4061, -3378, -2483, -1432, -291, 868, 1973, 2954, 3749, 4309, 4598]
  | 3 => [4552, 3913, 2724, 1152, -581, -2232, -3571, -4407, -4625, -4193, -3172, -1706, 0, 1706, 3172, 4193, 4625, 4407, 3571, 2232, 581, -1152, -2724, -3913, -4552]
  | 4 => [4489, 3378, 1432, -868, -2954, -4309, -4598, -3749, -1973, 291, 2483, 4061, 4634, 4061, 2483, 291, -1973, -3749, -4598, -4309, -2954, -868, 1432, 3378, 4489]
  | 5 => [4407, 2724, 0, -2724, -4407, -4407, -2724, 0, 2724, 4407, 4407, 2724, 0, -2724, -4407, -4407, -2724, 0, 2724, 4407, 4407, 2724, 0, -2724, -4407]
  | 6 => [4309, 1973, -1432, -4061, -4489, -2483, 868, 3749, 4598, 2954, -291, -3378, -4634, -3378, -291, 2954, 4598, 3749, 868, -2483, -4489, -4061, -1432, 1973, 4309]
  | 7 => [4193, 1152, -2724, -4625, -3172, 581, 3913, 4407, 1706, -2232, -4552, -3571, 0, 3571, 4552, 2232, -1706, -4407, -3913, -581, 3172, 4625, 2724, -1152, -4193]
  | 8 => [4061, 291, -3749, -4309, -868, 3378, 4489, 1432, -2954, -4598, -1973, 2483, 4634, 2483, -1973, -4598, -2954, 1432, 4489, 3378, -868, -4309, -3749, 291, 4061]
  | 9 => [3913, -581, -4407, -3172, 1706, 4625, 2232, -2724, -4552, -1152, 3571, 4193, 0, -4193, -3571, 1152, 4552, 2724, -2232, -4625, -1706, 3172, 4407, 581, -3913]
  | 10 => [3749, -1432, -4634, -1432, 3749, 3749, -1432, -4634, -1432, 3749, 3749, -1432, -4634, -1432, 3749, 3749, -1432, -4634, -1432, 3749, 3749, -1432, -4634, -1432, 3749]
  | 11 => [3571, -2232, -4407, 581, 4625, 1152, -4193, -2724, 3172, 3913, -1706, -4552, 0, 4552, 1706, -3913, -3172, 2724, 4193, -1152, -4625, -581, 4407, 2232, -3571]
  | 12 => [3378, -2954, -3749, 2483, 4061, -1973, -4309, 1432, 4489, -868, -4598, 291, 4634, 291, -4598, -868, 4489, 1432, -4309, -1973, 4061, 2483, -3749, -2954, 3378]
  | 13 => [3172, -3571, -2724, 3913, 2232, -4193, -1706, 4407, 1152, -4552, -581, 4625, 0, -4625, 581, 4552, -1152, -4407, 1706, 4193, -2232, -3913, 2724, 3571, -3172]
  | 14 => [2954, -4061, -1432, 4598, -291, -4489, 1973, 3749, -3378, -2483, 4309, 868, -4634, 868, 4309, -2483, -3378, 3749, 1973, -4489, -291, 4598, -1432, -4061, 2954]
  | 15 => [2724, -4407, 0, 4407, -2724, -2724, 4407, 0, -4407, 2724, 2724, -4407, 0, 4407, -2724, -2724, 4407, 0, -4407, 2724, 2724, -4407, 0, 4407, -2724]
  | 16 => [2483, -4598, 1432, 3378, -4309, 291, 4061, -3749, -868, 4489, -2954, -1973, 4634, -1973, -2954, 4489, -868, -3749, 4061, 291, -4309, 3378, 1432, -4598, 2483]
  | 17 => [2232, -4625, 2724, 1706, -4552, 3172, 1152, -4407, 3571, 581, -4193, 3913, 0, -3913, 4193, -581, -3571, 4407, -1152, -3172, 4552, -1706, -2724, 4625, -2232]
  | 18 => [1973, -4489, 3749, -291, -3378, 4598, -2483, -1432, 4309, -4061, 868, 2954, -4634, 2954, 868, -4061, 4309, -1432, -2483, 4598, -3378, -291, 3749, -4489, 1973]
  | 19 => [1706, -4193, 4407, -2232, -1152, 3913, -4552, 2724, 581, -3571, 4625, -3172, 0, 3172, -4625, 3571, -581, -2724, 4552, -3913, 1152, 2232, -4407, 4193, -1706]
  | 20 => [1432, -3749, 4634, -3749, 1432, 1432, -3749, 4634, -3749, 1432, 1432, -3749, 4634, -3749, 1432, 1432, -3749, 4634, -3749, 1432, 1432, -3749, 4634, -3749, 1432]
  | 21 => [1152, -3172, 4407, -4552, 3571, -1706, -581, 2724, -4193, 4625, -3913, 2232, 0, -2232, 3913, -4625, 4193, -2724, 581, 1706, -3571, 4552, -4407, 3172, -1152]
  | 22 => [868, -2483, 3749, -4489, 4598, -4061, 2954, -1432, -291, 1973, -3378, 4309, -4634, 4309, -3378, 1973, -291, -1432, 2954, -4061, 4598, -4489, 3749, -2483, 868]
  | 23 => [581, -1706, 2724, -3571, 4193, -4552, 4625, -4407, 3913, -3172, 2232, -1152, 0, 1152, -2232, 3172, -3913, 4407, -4625, 4552, -4193, 3571, -2724, 1706, -581]
  | 24 => [291, -868, 1432, -1973, 2483, -2954, 3378, -3749, 4061, -4309, 4489, -4598, 4634, -4598, 4489, -4309, 4061, -3749, 3378, -2954, 2483, -1973, 1432, -868, 291]
  | _ => []

/-- The rows of B(26), rule R96. -/
def basis26 : Nat → List Int
  | 0 => [3213, 3213, 3213, 3213, 3213, 3213, 3213, 3213, 3213, 3213, 3213, 3213, 3213, 3213, 3213, 3213, 3213, 3213, 3213, 3213, 3213, 3213, 3213, 3213, 3213, 3213]
  | 1 => [4536, 4470, 4338, 4144, 3889, 3577, 3213, 2802, 2351, 1865, 1352, 819, 274, -274, -819, -1352, -1865, -2351, -2802, -3213, -3577, -3889, -4144, -4338, -4470, -4536]
  | 2 => [4511, 4249, 3740, 3013, 2112, 1087, 0, -1087, -2112, -3013, -3740, -4249, -4511, -4511, -4249, -3740, -3013, -2112, -1087, 0, 1087, 2112, 3013, 3740, 4249, 4511]
  | 3 => [4470, 3889, 2802, 1352, -274, -1865, -3213, -4144, -4536, -4338, -3577, -2351, -819, 819, 2351, 3577, 4338, 4536, 4144, 3213, 1865, 274, -1352, -2802, -3889, -4470]
  | 4 => [4412, 3401, 1611, -548, -2581, -4024, -4544, -4024, -2581, -548, 1611, 3401, 4412, 4412, 3401, 1611, -548, -2581, -4024, -4544, -4024, -2581, -548, 1611, 3401, 4412]
  | 5 => [4338, 2802, 274, -2351, -4144, -4470, -3213, -819, 1865, 3889, 4536, 3577, 1352, -1352, -3577, -4536, -3889, -1865, 819, 3213, 4470, 4144, 2351, -274, -2802, -4338]
  | 6 => [4249, 2112, -1087, -3740, -4511, -3013, 0, 3013, 4511, 3740, 1087, -2112, -4249, -4249, -2112, 1087, 3740, 4511, 3013, 0, -3013, -4511, -3740, -1087, 2112, 4249]
  | 7 => [4144, 1352, -2351, -4470, -3577, -274, 3213, 4536, 2802, -819, -3889, -4338, -1865, 1865, 4338, 3889, 819, -2802, -4536, -3213, 274, 3577, 4470, 2351, -1352, -4144]
  | 8 => [4024, 548, -3401, -4412, -1611, 2581, 4544, 2581, -1611, -4412, -3401, 548, 4024, 4024, 548, -3401, -4412, -1611, 2581, 4544, 2581, -1611, -4412, -3401, 548, 4024]
  | 9 => [3889, -274, -4144, -3577, 819, 4338, 3213, -1352, -4470, -2802, 1865, 4536, 2351, -2351, -4536, -1865, 2802, 4470, 1352, -3213, -4338, -819, 3577, 4144, 274, -3889]
  | 10 => [3740, -1087, -4511, -2112, 3013, 4249, 0, -4249, -3013, 2112, 4511, 1087, -3740, -3740, 1087, 4511, 2112, -3013, -4249, 0, 4249, 3013, -2112, -4511, -1087, 3740]
  | 11 => [3577, -1865, -4470, -274, 4338, 2351, -3213, -3889, 1352, 4536, 819, -4144, -2802, 2802, 4144, -819, -4536, -1352, 3889, 3213, -2351, -4338, 274, 4470, 1865, -3577]
  | 12 => [3401, -2581, -4024, 1611, 4412, -548, -4544, -548, 4412, 1611, -4024, -2581, 3401, 3401, -2581, -4024, 1611, 4412, -548, -4544, -548, 4412, 1611, -4024, -2581, 3401]
  | 13 => [3213, -3213, -3213, 3213, 3213, -3213, -3213, 3213, 3213, -3213, -3213, 3213, 3213, -3213, -3213, 3213, 3213, -3213, -3213, 3213, 3213, -3213, -3213, 3213, 3213, -3213]
  | 14 => [3013, -3740, -2112, 4249, 1087, -4511, 0, 4511, -1087, -4249, 2112, 3740, -3013, -3013, 3740, 2112, -4249, -1087, 4511, 0, -4511, 1087, 4249, -2112, -3740, 3013]
  | 15 => [2802, -4144, -819, 4536, -1352, -3889, 3213, 2351, -4338, -274, 4470, -1865, -3577, 3577, 1865, -4470, 274, 4338, -2351, -3213, 3889, 1352, -4536, 819, 4144, -2802]
  | 16 => [2581, -4412, 548, 4024, -3401, -1611, 4544, -1611, -3401, 4024, 548, -4412, 2581, 2581, -4412, 548, 4024, -3401, -1611, 4544, -1611, -3401, 4024, 548, -4412, 2581]
  | 17 => [2351, -4536, 1865, 2802, -4470, 1352, 3213, -4338, 819, 3577, -4144, 274, 3889, -3889, -274, 4144, -3577, -819, 4338, -3213, -1352, 4470, -2802, -1865, 4536, -2351]
  | 18 => [2112, -4511, 3013, 1087, -4249, 3740, 0, -3740, 4249, -1087, -3013, 4511, -2112, -2112, 4511, -3013, -1087, 4249, -3740, 0, 3740, -4249, 1087, 3013, -4511, 2112]
  | 19 => [1865, -4338, 3889, -819, -2802, 4536, -3213, -274, 3577, -4470, 2351, 1352, -4144, 4144, -1352, -2351, 4470, -3577, 274, 3213, -4536, 2802, 819, -3889, 4338, -1865]
  | 20 => [1611, -4024, 4412, -2581, -548, 3401, -4544, 3401, -548, -2581, 4412, -4024, 1611, 1611, -4024, 4412, -2581, -548, 3401, -4544, 3401, -548, -2581, 4412, -4024, 1611]
  | 21 => [1352, -3577, 4536, -3889, 1865, 819, -3213, 4470, -4144, 2351, 274, -2802, 4338, -4338, 2802, -274, -2351, 4144, -4470, 3213, -819, -1865, 3889, -4536, 3577, -1352]
  | 22 => [1087, -3013, 4249, -4511, 3740, -2112, 0, 2112, -3740, 4511, -4249, 3013, -1087, -1087, 3013, -4249, 4511, -3740, 2112, 0, -2112, 3740, -4511, 4249, -3013, 1087]
  | 23 => [819, -2351, 3577, -4338, 4536, -4144, 3213, -1865, 274, 1352, -2802, 3889, -4470, 4470, -3889, 2802, -1352, -274, 1865, -3213, 4144, -4536, 4338, -3577, 2351, -819]
  | 24 => [548, -1611, 2581, -3401, 4024, -4412, 4544, -4412, 4024, -3401, 2581, -1611, 548, 548, -1611, 2581, -3401, 4024, -4412, 4544, -4412, 4024, -3401, 2581, -1611, 548]
  | 25 => [274, -819, 1352, -1865, 2351, -2802, 3213, -3577, 3889, -4144, 4338, -4470, 4536, -4536, 4470, -4338, 4144, -3889, 3577, -3213, 2802, -2351, 1865, -1352, 819, -274]
  | _ => []

/-- The rows of B(27), rule R96. -/
def basis27 : Nat → List Int
  | 0 => [3153, 3153, 3153, 3153, 3153, 3153, 3153, 3153, 3153, 3153, 3153, 3153, 3153, 3153, 3153, 3153, 3153, 3153, 3153, 3153, 3153, 3153, 3153, 3153, 3153, 3153, 3153]
  | 1 => [4452, 4391, 4272, 4094, 3862, 3577, 3243, 2866, 2450, 2001, 1525, 1028, 518, 0, -518, -1028, -1525, -2001, -2450, -2866, -3243, -3577, -3862, -4094, -4272, -4391, -4452]
  | 2 => [4429, 4190, 3726, 3060, 2230, 1279, 259, -774, -1766, -2663, -3416, -3985, -4339, -4459, -4339, -3985, -3416, -2663, -1766, -774, 259, 1279, 2230, 3060, 3726, 4190, 4429]
  | 3 => [4391, 3862, 2866, 1525, 0, -1525, -2866, -3862, -4391, -4391, -3862, -2866, -1525, 0, 1525, 2866, 3862, 4391, 4391, 3862, 2866, 1525, 0, -1525, -2866, -3862, -4391]
  | 4 => [4339, 3416, 1766, -259, -2230, -3726, -4429, -4190, -3060, -1279, 774, 2663, 3985, 4459, 3985, 2663, 774, -1279, -3060, -4190, -4429, -3726, -2230, -259, 1766, 3416, 4339]
  | 5 => [4272, 2866, 518, -2001, -3862, -4452, -3577, -1525, 1028, 3243, 4391, 4094, 2450, 0, -2450, -4094, -4391, -3243, -1028, 1525, 3577, 4452, 3862, 2001, -518, -2866, -4272]
  | 6 => [4190, 2230, -774, -3416, -4459, -3416, -774, 2230, 4190, 4190, 2230, -774, -3416, -4459, -3416, -774, 2230, 4190, 4190, 2230, -774, -3416, -4459, -3416, -774, 2230, 4190]
  | 7 => [4094, 1525, -2001, -4272, -3862, -1028, 2450, 4391, 3577, 518, -2866, -4452, -3243, 0, 3243, 4452, 2866, -518, -3577, -4391, -2450, 1028, 3862, 4272, 2001, -1525, -4094]
  | 8 => [3985, 774, -3060, -4429, -2230, 1766, 4339, 3416, -259, -3726, -4190, -1279, 2663, 4459, 2663, -1279, -4190, -3726, -259, 3416, 4339, 1766, -2230, -4429, -3060, 774, 3985]
  | 9 => [3862, 0, -3862, -3862, 0, 3862, 3862, 0, -3862, -3862, 0, 3862, 3862, 0, -3862, -3862, 0, 3862, 3862, 0, -3862, -3862, 0, 3862, 3862, 0, -3862]
  | 10 => [3726, -774, -4339, -2663, 2230, 4429, 1279, -3416, -3985, 259, 4190, 3060, -1766, -4459, -1766, 3060, 4190, 259, -3985, -3416, 1279, 4429, 2230, -2663, -4339, -774, 3726]
  | 11 => [3577, -1525, -4452, -1028, 3862, 3243, -2001, -4391, -518, 4094, 2866, -2450, -4272, 0, 4272, 2450, -2866, -4094, 518, 4391, 2001, -3243, -3862, 1028, 4452, 1525, -3577]
  | 12 => [3416, -2230, -4190, 774, 4459, 774, -4190, -2230, 3416, 3416, -2230, -4190, 774, 4459, 774, -4190, -2230, 3416, 3416, -2230, -4190, 774, 4459, 774, -4190, -2230, 3416]
  | 13 => [3243, -2866, -3577, 2450, 3862, -2001, -4094, 1525, 4272, -1028, -4391, 518, 4452, 0, -4452, -518, 4391, 1028, -4272, -1525, 4094, 2001, -3862, -2450, 3577, 2866, -3243]
  | 14 => [3060, -3416, -2663, 3726, 2230, -3985, -1766, 4190, 1279, -4339, -774, 4429, 259, -4459, 259, 4429, -774, -4339, 1279, 4190, -1766, -3985, 2230, 3726, -2663, -3416, 3060]
  | 15 => [2866, -3862, -1525, 4391, 0, -4391, 1525, 3862, -2866, -2866, 3862, 1525, -4391, 0, 4391, -1525, -3862, 2866, 2866, -3862, -1525, 4391, 0, -4391, 1525, 3862, -2866]
  | 16 => [2663, -4190, -259, 4339, -2230, -3060, 3985, 774, -4429, 1766, 3416, -3726, -1279, 4459, -1279, -3726, 3416, 1766, -4429, 774, 3985, -3060, -2230, 4339, -259, -4190, 2663]
  | 17 => [2450, -4391, 1028, 3577, -3862, -518, 4272, -2866, -2001, 4452, -1525, -3243, 4094, 0, -4094, 3243, 1525, -4452, 2001, 2866, -4272, 518, 3862, -3577, -1028, 4391, -2450]
  | 18 => [2230, -4459, 2230, 2230, -4459, 2230, 2230, -4459, 2230, 2230, -4459, 2230, 2230, -4459, 2230, 2230, -4459, 2230, 2230, -4459, 2230, 2230, -4459, 2230, 2230, -4459, 2230]
  | 19 => [2001, -4391, 3243, 518, -3862, 4094, -1028, -2866, 4452, -2450, -1525, 4272, -3577, 0, 3577, -4272, 1525, 2450, -4452, 2866, 1028, -4094, 3862, -518, -3243, 4391, -2001]
  | 20 => [1766, -4190, 3985, -1279, -2230, 4339, -3726, 774, 2663, -4429, 3416, -259, -3060, 4459, -3060, -259, 3416, -4429, 2663, 774, -3726, 4339, -2230, -1279, 3985, -4190, 1766]
  | 21 => [1525, -3862, 4391, -2866, 0, 2866, -4391, 3862, -1525, -1525, 3862, -4391, 2866, 0, -2866, 4391, -3862, 1525, 1525, -3862, 4391, -2866, 0, 2866, -4391, 3862, -1525]
  | 22 => [1279, -3416, 4429, -3985, 2230, 259, -2663, 4190, -4339, 3060, -774, -1766, 3726, -4459, 3726, -1766, -774, 3060, -4339, 4190, -2663, 259, 2230, -3985, 4429, -3416, 1279]
  | 23 => [1028, -2866, 4094, -4452, 3862, -2450, 518, 1525, -3243, 4272, -4391, 3577, -2001, 0, 2001, -3577, 4391, -4272, 3243, -1525, -518, 2450, -3862, 4452, -4094, 2866, -1028]
  | 24 => [774, -2230, 3416, -4190, 4459, -4190, 3416, -2230, 774, 774, -2230, 3416, -4190, 4459, -4190, 3416, -2230, 774, 774, -2230, 3416, -4190, 4459, -4190, 3416, -2230, 774]
  | 25 => [518, -1525, 2450, -3243, 3862, -4272, 4452, -4391, 4094, -3577, 2866, -2001, 1028, 0, -1028, 2001, -2866, 3577, -4094, 4391, -4452, 4272, -3862, 3243, -2450, 1525, -518]
  | 26 => [259, -774, 1279, -1766, 2230, -2663, 3060, -3416, 3726, -3985, 4190, -4339, 4429, -4459, 4429, -4339, 4190, -3985, 3726, -3416, 3060, -2663, 2230, -1766, 1279, -774, 259]
  | _ => []

/-- The rows of B(28), rule R96. -/
def basis28 : Nat → List Int
  | 0 => [3096, 3096, 3096, 3096, 3096, 3096, 3096, 3096, 3096, 3096, 3096, 3096, 3096, 3096, 3096, 3096, 3096, 3096, 3096, 3096, 3096, 3096, 3096, 3096, 3096, 3096, 3096, 3096]
  | 1 => [4372, 4317, 4208, 4045, 3832, 3571, 3265, 2918, 2534, 2118, 1676, 1212, 733, 246, -246, -733, -1212, -1676, -2118, -2534, -2918, -3265, -3571, -3832, -4045, -4208, -4317, -4372]
  | 2 => [4351, 4133, 3708, 3096, 2330, 1446, 490, -490, -1446, -2330, -3096, -3708, -4133, -4351, -4351, -4133, -3708, -3096, -2330, -1446, -490, 490, 1446, 2330, 3096, 3708, 4133, 4351]
  | 3 => [4317, 3832, 2918, 1676, 246, -1212, -2534, -3571, -4208, -4372, -4045, -3265, -2118, -733, 733, 2118, 3265, 4045, 4372, 4208, 3571, 2534, 1212, -246, -1676, -2918, -3832, -4317]
  | 4 => [4269, 3423, 1900, 0, -1900, -3423, -4269, -4269, -3423, -1900, 0, 1900, 3423, 4269, 4269, 3423, 1900, 0, -1900, -3423, -4269, -4269, -3423, -1900, 0, 1900, 3423, 4269]
  | 5 => [4208, 2918, 733, -1676, -3571, -4372, -3832, -2118, 246, 2534, 4045, 4317, 3265, 1212, -1212, -3265, -4317, -4045, -2534, -246, 2118, 3832, 4372, 3571, 1676, -733, -2918, -4208]
  | 6 => [4133, 2330, -490, -3096, -4351, -3708, -1446, 1446, 3708, 4351, 3096, 490, -2330, -4133, -4133, -2330, 490, 3096, 4351, 3708, 1446, -1446, -3708, -4351, -3096, -490, 2330, 4133]
  | 7 => [4045, 1676, -1676, -4045, -4045, -1676, 1676, 4045, 4045, 1676, -1676, -4045, -4045, -1676, 1676, 4045, 4045, 1676, -1676, -4045, -4045, -1676, 1676, 4045, 4045, 1676, -1676, -4045]
  | 8 => [3945, 974, -2730, -4379, -2730, 974, 3945, 3945, 974, -2730, -4379, -2730, 974, 3945, 3945, 974, -2730, -4379, -2730, 974, 3945, 3945, 974, -2730, -4379, -2730, 974, 3945]
  | 9 => [3832, 246, -3571, -4045, -733, 3265, 4208, 1212, -2918, -4317, -1676, 2534, 4372, 2118, -2118, -4372, -2534, 1676, 4317, 2918, -1212, -4208, -3265, 733, 4045, 3571, -246, -3832]
  | 10 => [3708, -490, -4133, -3096, 1446, 4351, 2330, -2330, -4351, -1446, 3096, 4133, 490, -3708, -3708, 490, 4133, 3096, -1446, -4351, -2330, 2330, 4351, 1446, -3096, -4133, -490, 3708]
  | 11 => [3571, -1212, -4372, -1676, 3265, 3832, -733, -4317, -2118, 2918, 4045, -246, -4208, -2534, 2534, 4208, 246, -4045, -2918, 2118, 4317, 733, -3832, -3265, 1676, 4372, 1212, -3571]
  | 12 => [3423, -1900, -4269, 0, 4269, 1900, -3423, -3423, 1900, 4269, 0, -4269, -1900, 3423, 3423, -1900, -4269, 0, 4269, 1900, -3423, -3423, 1900, 4269, 0, -4269, -1900, 3423]
  | 13 => [3265, -2534, -3832, 1676, 4208, -733, -4372, -246, 4317, 1212, -4045, -2118, 3571, 2918, -2918, -3571, 2118, 4045, -1212, -4317, 246, 4372, 733, -4208, -1676, 3832, 2534, -3265]
  | 14 => [3096, -3096, -3096, 3096, 3096, -3096, -3096, 3096, 3096, -3096, -3096, 3096, 3096, -3096, -3096, 3096, 3096, -3096, -3096, 3096, 3096, -3096, -3096, 3096, 3096, -3096, -3096, 3096]
  | 15 => [2918, -3571, -2118, 4045, 1212, -4317, -246, 4372, -733, -4208, 1676, 3832, -2534, -3265, 3265, 2534, -3832, -1676, 4208, 733, -4372, 246, 4317, -1212, -4045, 2118, 3571, -2918]
  | 16 => [2730, -3945, -974, 4379, -974, -3945, 2730, 2730, -3945, -974, 4379, -974, -3945, 2730, 2730, -3945, -974, 4379, -974, -3945, 2730, 2730, -3945, -974, 4379, -974, -3945, 2730]
  | 17 => [2534, -4208, 246, 4045, -2918, -2118, 4317, -733, -3832, 3265, 1676, -4372, 1212, 3571, -3571, -1212, 4372, -1676, -3265, 3832, 733, -4317, 2118, 2918, -4045, -246, 4208, -2534]
  | 18 => [2330, -4351, 1446, 3096, -4133, 490, 3708, -3708, -490, 4133, -3096, -1446, 4351, -2330, -2330, 4351, -1446, -3096, 4133, -490, -3708, 3708, 490, -4133, 3096, 1446, -4351, 2330]
  | 19 => [2118, -4372, 2534, 1676, -4317, 2918, 1212, -4208, 3265, 733, -4045, 3571, 246, -3832, 3832, -246, -3571, 4045, -733, -3265, 4208, -1212, -2918, 4317, -1676, -2534, 4372, -2118]
  | 20 => [1900, -4269, 3423, 0, -3423, 4269, -1900, -1900, 4269, -3423, 0, 3423, -4269, 1900, 1900, -4269, 3423, 0, -3423, 4269, -1900, -1900, 4269, -3423, 0, 3423, -4269, 1900]
  | 21 => [1676, -4045, 4045, -1676, -1676, 4045, -4045, 1676, 1676, -4045, 4045, -1676, -1676, 4045, -4045, 1676, 1676, -4045, 4045, -1676, -1676, 4045, -4045, 1676, 1676, -4045, 4045, -1676]
  | 22 => [1446, -3708, 4351, -3096, 490, 2330, -4133, 4133, -2330, -490, 3096, -4351, 3708, -1446, -1446, 3708, -4351, 3096, -490, -2330, 4133, -4133, 2330, 490, -3096, 4351, -3708, 1446]
  | 23 => [1212, -3265, 4317, -4045, 2534, -246, -2118, 3832, -4372, 3571, -1676, -733, 2918, -4208, 4208, -2918, 733, 1676, -3571, 4372, -3832, 2118, 246, -2534, 4045, -4317, 3265, -1212]
  | 24 => [974, -2730, 3945, -4379, 3945, -2730, 974, 974, -2730, 3945, -4379, 3945, -2730, 974, 974, -2730, 3945, -4379, 3945, -2730, 974, 974, -2730, 3945, -4379, 3945, -2730, 974]
  | 25 => [733, -2118, 3265, -4045, 4372, -4208, 3571, -2534, 1212, 246, -1676, 2918, -3832, 4317, -4317, 3832, -2918, 1676, -246, -1212, 2534, -3571, 4208, -4372, 4045, -3265, 2118, -733]
  | 26 => [490, -1446, 2330, -3096, 3708, -4133, 4351, -4351, 4133, -3708, 3096, -2330, 1446, -490, -490, 1446, -2330, 3096, -3708, 4133, -4351, 4351, -4133, 3708, -3096, 2330, -1446, 490]
  | 27 => [246, -733, 1212, -1676, 2118, -2534, 2918, -3265, 3571, -3832, 4045, -4208, 4317, -4372, 4372, -4317, 4208, -4045, 3832, -3571, 3265, -2918, 2534, -2118, 1676, -1212, 733, -246]
  | _ => []

/-- The rows of B(29), rule R96. -/
def basis29 : Nat → List Int
  | 0 => [3042, 3042, 3042, 3042, 3042, 3042, 3042, 3042, 3042, 3042, 3042, 3042, 3042, 3042, 3042, 3042, 3042, 3042, 3042, 3042, 3042, 3042, 3042, 3042, 3042, 3042, 3042, 3042, 3042]
  | 1 => [4296, 4246, 4146, 3997, 3801, 3561, 3279, 2959, 2604, 2218, 1807, 1374, 925, 465, 0, -465, -925, -1374, -1807, -2218, -2604, -2959, -3279, -3561, -3801, -3997, -4146, -4246, -4296]
  | 2 => [4277, 4077, 3687, 3124, 2415, 1593, 696, -233, -1151, -2015, -2785, -3425, -3905, -4202, -4303, -4202, -3905, -3425, -2785, -2015, -1151, -233, 696, 1593, 2415, 3124, 3687, 4077, 4277]
  | 3 => [4246, 3801, 2959, 1807, 465, -925, -2218, -3279, -3997, -4296, -4146, -3561, -2604, -1374, 0, 1374, 2604, 3561, 4146, 4296, 3997, 3279, 2218, 925, -465, -1807, -2959, -3801, -4246]
  | 4 => [4202, 3425, 2015, 233, -1593, -3124, -4077, -4277, -3687, -2415, -696, 1151, 2785, 3905, 4303, 3905, 2785, 1151, -696, -2415, -3687, -4277, -4077, -3124, -1593, 233, 2015, 3425, 4202]
  | 5 => [4146, 2959, 925, -1374, -3279, -4246, -3997, -2604, -465, 1807, 3561, 4296, 3801, 2218, 0, -2218, -3801, -4296, -3561, -1807, 465, 2604, 3997, 4246, 3279, 1374, -925, -2959, -4146]
  | 6 => [4077, 2415, -233, -2785, -4202, -3905, -2015, 696, 3124, 4277, 3687, 1593, -1151, -3425, -4303, -3425, -1151, 1593, 3687, 4277, 3124, 696, -2015, -3905, -4202, -2785, -233, 2415, 4077]
  | 7 => [3997, 1807, -1374, -3801, -4146, -2218, 925, 3561, 4246, 2604, -465, -3279, -4296, -2959, 0, 2959, 4296, 3279, 465, -2604, -4246, -3561, -925, 2218, 4146, 3801, 1374, -1807, -3997]
  | 8 => [3905, 1151, -2415, -4277, -3124, 233, 3425, 4202, 2015, -1593, -4077, -3687, -696, 2785, 4303, 2785, -696, -3687, -4077, -1593, 2015, 4202, 3425, 233, -3124, -4277, -2415, 1151, 3905]
  | 9 => [3801, 465, -3279, -4146, -1374, 2604, 4296, 2218, -1807, -4246, -2959, 925, 3997, 3561, 0, -3561, -3997, -925, 2959, 4246, 1807, -2218, -4296, -2604, 1374, 4146, 3279, -465, -3801]
  | 10 => [3687, -233, -3905, -3425, 696, 4077, 3124, -1151, -4202, -2785, 1593, 4277, 2415, -2015, -4303, -2015, 2415, 4277, 1593, -2785, -4202, -1151, 3124, 4077, 696, -3425, -3905, -233, 3687]
  | 11 => [3561, -925, -4246, -2218, 2604, 4146, 465, -3801, -3279, 1374, 4296, 1807, -2959, -3997, 0, 3997, 2959, -1807, -4296, -1374, 3279, 3801, -465, -4146, -2604, 2218, 4246, 925, -3561]
  | 12 => [3425, -1593, -4277, -696, 3905, 2785, -2415, -4077, 233, 4202, 2015, -3124, -3687, 1151, 4303, 1151, -3687, -3124, 2015, 4202, 233, -4077, -2415, 2785, 3905, -696, -4277, -1593, 3425]
  | 13 => [3279, -2218, -3997, 925, 4296, 465, -4146, -1807, 3561, 2959, -2604, -3801, 1374, 4246, 0, -4246, -1374, 3801, 2604, -2959, -3561, 1807, 4146, -465, -4296, -925, 3997, 2218, -3279]
  | 14 => [3124, -2785, -3425, 2415, 3687, -2015, -3905, 1593, 4077, -1151, -4202, 696, 4277, -233, -4303, -233, 4277, 696, -4202, -1151, 4077, 1593, -3905, -2015, 3687, 2415, -3425, -2785, 3124]
  | 15 => [2959, -3279, -2604, 3561, 2218, -3801, -1807, 3997, 1374, -4146, -925, 4246, 465, -4296, 0, 4296, -465, -4246, 925, 4146, -1374, -3997, 1807, 3801, -2218, -3561, 2604, 3279, -2959]
  | 16 => [2785, -3687, -1593, 4202, 233, -4277, 1151, 3905, -2415, -3124, 3425, 2015, -4077, -696, 4303, -696, -4077, 2015, 3425, -3124, -2415, 3905, 1151, -4277, 233, 4202, -1593, -3687, 2785]
  | 17 => [2604, -3997, -465, 4246, -1807, -3279, 3561, 1374, -4296, 925, 3801, -2959, -2218, 4146, 0, -4146, 2218, 2959, -3801, -925, 4296, -1374, -3561, 3279, 1807, -4246, 465, 3997, -2604]
  | 18 => [2415, -4202, 696, 3687, -3425, -1151, 4277, -2015, -2785, 4077, -233, -3905, 3124, 1593, -4303, 1593, 3124, -3905, -233, 4077, -2785, -2015, 4277, -1151, -3425, 3687, 696, -4202, 2415]
  | 19 => [2218, -4296, 1807, 2604, -4246, 1374, 2959, -4146, 925, 3279, -3997, 465, 3561, -3801, 0, 3801, -3561, -465, 3997, -3279, -925, 4146, -2959, -1374, 4246, -2604, -1807, 4296, -2218]
  | 20 => [2015, -4277, 2785, 1151, -4077, 3425, 233, -3687, 3905, -696, -3124, 4202, -1593, -2415, 4303, -2415, -1593, 4202, -3124, -696, 3905, -3687, 233, 3425, -4077, 1151, 2785, -4277, 2015]
  | 21 => [1807, -4146, 3561, -465, -2959, 4296, -2604, -925, 3801, -3997, 1374, 2218, -4246, 3279, 0, -3279, 4246, -2218, -1374, 3997, -3801, 925, 2604, -4296, 2959, 465, -3561, 4146, -1807]
  | 22 => [1593, -3905, 4077, -2015, -1151, 3687, -4202, 2415, 696, -3425, 4277, -2785, -233, 3124, -4303, 3124, -233, -2785, 4277, -3425, 696, 2415, -4202, 3687, -1151, -2015, 4077, -3905, 1593]
  | 23 => [1374, -3561, 4296, -3279, 925, 1807, -3801, 4246, -2959, 465, 2218, -3997, 4146, -2604, 0, 2604, -4146, 3997, -2218, -465, 2959, -4246, 3801, -1807, -925, 3279, -4296, 3561, -1374]
  | 24 => [1151, -3124, 4202, -4077, 2785, -696, -1593, 3425, -4277, 3905, -2415, 233, 2015, -3687, 4303, -3687, 2015, 233, -2415, 3905, -4277, 3425, -1593, -696, 2785, -4077, 4202, -3124, 1151]
  | 25 => [925, -2604, 3801, -4296, 3997, -2959, 1374, 465, -2218, 3561, -4246, 4146, -3279, 1807, 0, -1807, 3279, -4146, 4246, -3561, 2218, -465, -1374, 2959, -3997, 4296, -3801, 2604, -925]
  | 26 => [696, -2015, 3124, -3905, 4277, -4202, 3687, -2785, 1593, -233, -1151, 2415, -3425, 4077, -4303, 4077, -3425, 2415, -1151, -233, 1593, -2785, 3687, -4202, 4277, -3905, 3124, -2015, 696]
  | 27 => [465, -1374, 2218, -2959, 3561, -3997, 4246, -4296, 4146, -3801, 3279, -2604, 1807, -925, 0, 925, -1807, 2604, -3279, 3801, -4146, 4296, -4246, 3997, -3561, 2959, -2218, 1374, -465]
  | 28 => [233, -696, 1151, -1593, 2015, -2415, 2785, -3124, 3425, -3687, 3905, -4077, 4202, -4277, 4303, -4277, 4202, -4077, 3905, -3687, 3425, -3124, 2785, -2415, 2015, -1593, 1151, -696, 233]
  | _ => []

/-- The rows of B(30), rule R96. -/
def basis30 : Nat → List Int
  | 0 => [2991, 2991, 2991, 2991, 2991, 2991, 2991, 2991, 2991, 2991, 2991, 2991, 2991, 2991, 2991, 2991, 2991, 2991, 2991, 2991, 2991, 2991, 2991, 2991, 2991, 2991, 2991, 2991, 2991, 2991]
  | 1 => [4225, 4178, 4086, 3949, 3769, 3548, 3288, 2991, 2662, 2304, 1921, 1516, 1095, 662, 221, -221, -662, -1095, -1516, -1921, -2304, -2662, -2991, -3288, -3548, -3769, -3949, -4086, -4178, -4225]
  | 2 => [4207, 4023, 3664, 3144, 2487, 1721, 880, 0, -880, -1721, -2487, -3144, -3664, -4023, -4207, -4207, -4023, -3664, -3144, -2487, -1721, -880, 0, 880, 1721, 2487, 3144, 3664, 4023, 4207]
  | 3 => [4178, 3769, 2991, 1921, 662, -662, -1921, -2991, -3769, -4178, -4178, -3769, -2991, -1921, -662, 662, 1921, 2991, 3769, 4178, 4178, 3769, 2991, 1921, 662, -662, -1921, -2991, -3769, -4178]
  | 4 => [4138, 3422, 2115, 442, -1307, -2831, -3865, -4230, -3865, -2831, -1307, 442, 2115, 3422, 4138, 4138, 3422, 2115, 442, -1307, -2831, -3865, -4230, -3865, -2831, -1307, 442, 2115, 3422, 4138]
  | 5 => [4086, 2991, 1095, -1095, -2991, -4086, -4086, -2991, -1095, 1095, 2991, 4086, 4086, 2991, 1095, -1095, -2991, -4086, -4086, -2991, -1095, 1095, 2991, 4086, 4086, 2991, 1095, -1095, -2991, -4086]
  | 6 => [4023, 2487, 0, -2487, -4023, -4023, -2487, 0, 2487, 4023, 4023, 2487, 0, -2487, -4023, -4023, -2487, 0, 2487, 4023, 4023, 2487, 0, -2487, -4023, -4023, -2487, 0, 2487, 4023]
  | 7 => [3949, 1921, -1095, -3548, -4178, -2662, 221, 2991, 4225, 3288, 662, -2304, -4086, -3769, -1516, 1516, 3769, 4086, 2304, -662, -3288, -4225, -2991, -221, 2662, 4178, 3548, 1095, -1921, -3949]
  | 8 => [3865, 1307, -2115, -4138, -3422, -442, 2831, 4230, 2831, -442, -3422, -4138, -2115, 1307, 3865, 3865, 1307, -2115, -4138, -3422, -442, 2831, 4230, 2831, -442, -3422, -4138, -2115, 1307, 3865]
  | 9 => [3769, 662, -2991, -4178, -1921, 1921, 4178, 2991, -662, -3769, -3769, -662, 2991, 4178, 1921, -1921, -4178, -2991, 662, 3769, 3769, 662, -2991, -4178, -1921, 1921, 4178, 2991, -662, -3769]
  | 10 => [3664, 0, -3664, -3664, 0, 3664, 3664, 0, -3664, -3664, 0, 3664, 3664, 0, -3664, -3664, 0, 3664, 3664, 0, -3664, -3664, 0, 3664, 3664, 0, -3664, -3664, 0, 3664]
  | 11 => [3548, -662, -4086, -2662, 1921, 4225, 1516, -2991, -3949, -221, 3769, 3288, -1095, -4178, -2304, 2304, 4178, 1095, -3288, -3769, 221, 3949, 2991, -1516, -4225, -1921, 2662, 4086, 662, -3548]
  | 12 => [3422, -1307, -4230, -1307, 3422, 3422, -1307, -4230, -1307, 3422, 3422, -1307, -4230, -1307, 3422, 3422, -1307, -4230, -1307, 3422, 3422, -1307, -4230, -1307, 3422, 3422, -1307, -4230, -1307, 3422]
  | 13 => [3288, -1921, -4086, 221, 4178, 1516, -3548, -2991, 2304, 3949, -662, -4225, -1095, 3769, 2662, -2662, -3769, 1095, 4225, 662, -3949, -2304, 2991, 3548, -1516, -4178, -221, 4086, 1921, -3288]
  | 14 => [3144, -2487, -3664, 1721, 4023, -880, -4207, 0, 4207, 880, -4023, -1721, 3664, 2487, -3144, -3144, 2487, 3664, -1721, -4023, 880, 4207, 0, -4207, -880, 4023, 1721, -3664, -2487, 3144]
  | 15 => [2991, -2991, -2991, 2991, 2991, -2991, -2991, 2991, 2991, -2991, -2991, 2991, 2991, -2991, -2991, 2991, 2991, -2991, -2991, 2991, 2991, -2991, -2991, 2991, 2991, -2991, -2991, 2991, 2991, -2991]
  | 16 => [2831, -3422, -2115, 3865, 1307, -4138, -442, 4230, -442, -4138, 1307, 3865, -2115, -3422, 2831, 2831, -3422, -2115, 3865, 1307, -4138, -442, 4230, -442, -4138, 1307, 3865, -2115, -3422, 2831]
  | 17 => [2662, -3769, -1095, 4225, -662, -3949, 2304, 2991, -3548, -1516, 4178, -221, -4086, 1921, 3288, -3288, -1921, 4086, 221, -4178, 1516, 3548, -2991, -2304, 3949, 662, -4225, 1095, 3769, -2662]
  | 18 => [2487, -4023, 0, 4023, -2487, -2487, 4023, 0, -4023, 2487, 2487, -4023, 0, 4023, -2487, -2487, 4023, 0, -4023, 2487, 2487, -4023, 0, 4023, -2487, -2487, 4023, 0, -4023, 2487]
  | 19 => [2304, -4178, 1095, 3288, -3769, -221, 3949, -2991, -1516, 4225, -1921, -2662, 4086, -662, -3548, 3548, 662, -4086, 2662, 1921, -4225, 1516, 2991, -3949, 221, 3769, -3288, -1095, 4178, -2304]
  | 20 => [2115, -4230, 2115, 2115, -4230, 2115, 2115, -4230, 2115, 2115, -4230, 2115, 2115, -4230, 2115, 2115, -4230, 2115, 2115, -4230, 2115, 2115, -4230, 2115, 2115, -4230, 2115, 2115, -4230, 2115]
  | 21 => [1921, -4178, 2991, 662, -3769, 3769, -662, -2991, 4178, -1921, -1921, 4178, -2991, -662, 3769, -3769, 662, 2991, -4178, 1921, 1921, -4178, 2991, 662, -3769, 3769, -662, -2991, 4178, -1921]
  | 22 => [1721, -4023, 3664, -880, -2487, 4207, -3144, 0, 3144, -4207, 2487, 880, -3664, 4023, -1721, -1721, 4023, -3664, 880, 2487, -4207, 3144, 0, -3144, 4207, -2487, -880, 3664, -4023, 1721]
  | 23 => [1516, -3769, 4086, -2304, -662, 3288, -4225, 2991, -221, -2662, 4178, -3548, 1095, 1921, -3949, 3949, -1921, -1095, 3548, -4178, 2662, 221, -2991, 4225, -3288, 662, 2304, -4086, 3769, -1516]
  | 24 => [1307, -3422, 4230, -3422, 1307, 1307, -3422, 4230, -3422, 1307, 1307, -3422, 4230, -3422, 1307, 1307, -3422, 4230, -3422, 1307, 1307, -3422, 4230, -3422, 1307, 1307, -3422, 4230, -3422, 1307]
  | 25 => [1095, -2991, 4086, -4086, 2991, -1095, -1095, 2991, -4086, 4086, -2991, 1095, 1095, -2991, 4086, -4086, 2991, -1095, -1095, 2991, -4086, 4086, -2991, 1095, 1095, -2991, 4086, -4086, 2991, -1095]
  | 26 => [880, -2487, 3664, -4207, 4023, -3144, 1721, 0, -1721, 3144, -4023, 4207, -3664, 2487, -880, -880, 2487, -3664, 4207, -4023, 3144, -1721, 0, 1721, -3144, 4023, -4207, 3664, -2487, 880]
  | 27 => [662, -1921, 2991, -3769, 4178, -4178, 3769, -2991, 1921, -662, -662, 1921, -2991, 3769, -4178, 4178, -3769, 2991, -1921, 662, 662, -1921, 2991, -3769, 4178, -4178, 3769, -2991, 1921, -662]
  | 28 => [442, -1307, 2115, -2831, 3422, -3865, 4138, -4230, 4138, -3865, 3422, -2831, 2115, -1307, 442, 442, -1307, 2115, -2831, 3422, -3865, 4138, -4230, 4138, -3865, 3422, -2831, 2115, -1307, 442]
  | 29 => [221, -662, 1095, -1516, 1921, -2304, 2662, -2991, 3288, -3548, 3769, -3949, 4086, -4178, 4225, -4225, 4178, -4086, 3949, -3769, 3548, -3288, 2991, -2662, 2304, -1921, 1516, -1095, 662, -221]
  | _ => []

/-- The rows of B(31), rule R96. -/
def basis31 : Nat → List Int
  | 0 => [2943, 2943, 2943, 2943, 2943, 2943, 2943, 2943, 2943, 2943, 2943, 2943, 2943, 2943, 2943, 2943, 2943, 2943, 2943, 2943, 2943, 2943, 2943, 2943, 2943, 2943, 2943, 2943, 2943, 2943, 2943]
  | 1 => [4156, 4114, 4029, 3902, 3736, 3532, 3291, 3016, 2711, 2377, 2020, 1641, 1246, 838, 421, 0, -421, -838, -1246, -1641, -2020, -2377, -2711, -3016, -3291, -3532, -3736, -3902, -4029, -4114, -4156]
  | 2 => [4140, 3971, 3639, 3158, 2547, 1833, 1043, 211, -630, -1445, -2201, -2867, -3416, -3824, -4076, -4162, -4076, -3824, -3416, -2867, -2201, -1445, -630, 211, 1043, 1833, 2547, 3158, 3639, 3971, 4140]
  | 3 => [4114, 3736, 3016, 2020, 838, -421, -1641, -2711, -3532, -4029, -4156, -3902, -3291, -2377, -1246, 0, 1246, 2377, 3291, 3902, 4156, 4029, 3532, 2711, 1641, 421, -838, -2020, -3016, -3736, -4114]
  | 4 => [4076, 3416, 2201, 630, -1043, -2547, -3639, -4140, -3971, -3158, -1833, -211, 1445, 2867, 3824, 4162, 3824, 2867, 1445, -211, -1833, -3158, -3971, -4140, -3639, -2547, -1043, 630, 2201, 3416, 4076]
  | 5 => [4029, 3016, 1246, -838, -2711, -3902, -4114, -3291, -1641, 421, 2377, 3736, 4156, 3532, 2020, 0, -2020, -3532, -4156, -3736, -2377, -421, 1641, 3291, 4114, 3902, 2711, 838, -1246, -3016, -4029]
  | 6 => [3971, 2547, 211, -2201, -3824, -4076, -2867, -630, 1833, 3639, 4140, 3158, 1043, -1445, -3416, -4162, -3416, -1445, 1043, 3158, 4140, 3639, 1833, -630, -2867, -4076, -3824, -2201, 211, 2547, 3971]
  | 7 => [3902, 2020, -838, -3291, -4156, -3016, -421, 2377, 4029, 3736, 1641, -1246, -3532, -4114, -2711, 0, 2711, 4114, 3532, 1246, -1641, -3736, -4029, -2377, 421, 3016, 4156, 3291, 838, -2020, -3902]
  | 8 => [3824, 1445, -1833, -3971, -3639, -1043, 2201, 4076, 3416, 630, -2547, -4140, -3158, -211, 2867, 4162, 2867, -211, -3158, -4140, -2547, 630, 3416, 4076, 2201, -1043, -3639, -3971, -1833, 1445, 3824]
  | 9 => [3736, 838, -2711, -4156, -2377, 1246, 3902, 3532, 421, -3016, -4114, -2020, 1641, 4029, 3291, 0, -3291, -4029, -1641, 2020, 4114, 3016, -421, -3532, -3902, -1246, 2377, 4156, 2711, -838, -3736]
  | 10 => [3639, 211, -3416, -3824, -630, 3158, 3971, 1043, -2867, -4076, -1445, 2547, 4140, 1833, -2201, -4162, -2201, 1833, 4140, 2547, -1445, -4076, -2867, 1043, 3971, 3158, -630, -3824, -3416, 211, 3639]
  | 11 => [3532, -421, -3902, -3016, 1246, 4114, 2377, -2020, -4156, -1641, 2711, 4029, 838, -3291, -3736, 0, 3736, 3291, -838, -4029, -2711, 1641, 4156, 2020, -2377, -4114, -1246, 3016, 3902, 421, -3532]
  | 12 => [3416, -1043, -4140, -1833, 2867, 3824, -211, -3971, -2547, 2201, 4076, 630, -3639, -3158, 1445, 4162, 1445, -3158, -3639, 630, 4076, 2201, -2547, -3971, -211, 3824, 2867, -1833, -4140, -1043, 3416]
  | 13 => [3291, -1641, -4114, -421, 3902, 2377, -2711, -3736, 838, 4156, 1246, -3532, -3016, 2020, 4029, 0, -4029, -2020, 3016, 3532, -1246, -4156, -838, 3736, 2711, -2377, -3902, 421, 4114, 1641, -3291]
  | 14 => [3158, -2201, -3824, 1043, 4140, 211, -4076, -1445, 3639, 2547, -2867, -3416, 1833, 3971, -630, -4162, -630, 3971, 1833, -3416, -2867, 2547, 3639, -1445, -4076, 211, 4140, 1043, -3824, -2201, 3158]
  | 15 => [3016, -2711, -3291, 2377, 3532, -2020, -3736, 1641, 3902, -1246, -4029, 838, 4114, -421, -4156, 0, 4156, 421, -4114, -838, 4029, 1246, -3902, -1641, 3736, 2020, -3532, -2377, 3291, 2711, -3016]
  | 16 => [2867, -3158, -2547, 3416, 2201, -3639, -1833, 3824, 1445, -3971, -1043, 4076, 630, -4140, -211, 4162, -211, -4140, 630, 4076, -1043, -3971, 1445, 3824, -1833, -3639, 2201, 3416, -2547, -3158, 2867]
  | 17 => [2711, -3532, -1641, 4029, 421, -4156, 838, 3902, -2020, -3291, 3016, 2377, -3736, -1246, 4114, 0, -4114, 1246, 3736, -2377, -3016, 3291, 2020, -3902, -838, 4156, -421, -4029, 1641, 3532, -2711]
  | 18 => [2547, -3824, -630, 4140, -1445, -3416, 3158, 1833, -4076, 211, 3971, -2201, -2867, 3639, 1043, -4162, 1043, 3639, -2867, -2201, 3971, 211, -4076, 1833, 3158, -3416, -1445, 4140, -630, -3824, 2547]
  | 19 => [2377, -4029, 421, 3736, -3016, -1641, 4156, -1246, -3291, 3532, 838, -4114, 2020, 2711, -3902, 0, 3902, -2711, -2020, 4114, -838, -3532, 3291, 1246, -4156, 1641, 3016, -3736, -421, 4029, -2377]
  | 20 => [2201, -4140, 1445, 2867, -3971, 630, 3416, -3639, -211, 3824, -3158, -1043, 4076, -2547, -1833, 4162, -1833, -2547, 4076, -1043, -3158, 3824, -211, -3639, 3416, 630, -3971, 2867, 1445, -4140, 2201]
  | 21 => [2020, -4156, 2377, 1641, -4114, 2711, 1246, -4029, 3016, 838, -3902, 3291, 421, -3736, 3532, 0, -3532, 3736, -421, -3291, 3902, -838, -3016, 4029, -1246, -2711, 4114, -1641, -2377, 4156, -2020]
  | 22 => [1833, -4076, 3158, 211, -3416, 3971, -1445, -2201, 4140, -2867, -630, 3639, -3824, 1043, 2547, -4162, 2547, 1043, -3824, 3639, -630, -2867, 4140, -2201, -1445, 3971, -3416, 211, 3158, -4076, 1833]
  | 23 => [1641, -3902, 3736, -1246, -2020, 4029, -3532, 838, 2377, -4114, 3291, -421, -2711, 4156, -3016, 0, 3016, -4156, 2711, 421, -3291, 4114, -2377, -838, 3532, -4029, 2020, 1246, -3736, 3902, -1641]
  | 24 => [1445, -3639, 4076, -2547, -211, 2867, -4140, 3416, -1043, -1833, 3824, -3971, 2201, 630, -3158, 4162, -3158, 630, 2201, -3971, 3824, -1833, -1043, 3416, -4140, 2867, -211, -2547, 4076, -3639, 1445]
  | 25 => [1246, -3291, 4156, -3532, 1641, 838, -3016, 4114, -3736, 2020, 421, -2711, 4029, -3902, 2377, 0, -2377, 3902, -4029, 2711, -421, -2020, 3736, -4114, 3016, -838, -1641, 3532, -4156, 3291, -1246]
  | 26 => [1043, -2867, 3971, -4076, 3158, -1445, -630, 2547, -3824, 4140, -3416, 1833, 211, -2201, 3639, -4162, 3639, -2201, 211, 1833, -3416, 4140, -3824, 2547, -630, -1445, 3158, -4076, 3971, -2867, 1043]
  | 27 => [838, -2377, 3532, -4114, 4029, -3291, 2020, -421, -1246, 2711, -3736, 4156, -3902, 3016, -1641, 0, 1641, -3016, 3902, -4156, 3736, -2711, 1246, 421, -2020, 3291, -4029, 4114, -3532, 2377, -838]
  | 28 => [630, -1833, 2867, -3639, 4076, -4140, 3824, -3158, 2201, -1043, -211, 1445, -2547, 3416, -3971, 4162, -3971, 3416, -2547, 1445, -211, -1043, 2201, -3158, 3824, -4140, 4076, -3639, 2867, -1833, 630]
  | 29 => [421, -1246, 2020, -2711, 3291, -3736, 4029, -4156, 4114, -3902, 3532, -3016, 2377, -1641, 838, 0, -838, 1641, -2377, 3016, -3532, 3902, -4114, 4156, -4029, 3736, -3291, 2711, -2020, 1246, -421]
  | 30 => [211, -630, 1043, -1445, 1833, -2201, 2547, -2867, 3158, -3416, 3639, -3824, 3971, -4076, 4140, -4162, 4140, -4076, 3971, -3824, 3639, -3416, 3158, -2867, 2547, -2201, 1833, -1445, 1043, -630, 211]
  | _ => []

/-- The rows of B(32), rule R96. -/
def basis32 : Nat → List Int
  | 0 => [2896, 2896, 2896, 2896, 2896, 2896, 2896, 2896, 2896, 2896, 2896, 2896, 2896, 2896, 2896, 2896, 2896, 2896, 2896, 2896, 2896, 2896, 2896, 2896, 2896, 2896, 2896, 2896, 2896, 2896, 2896, 2896]
  | 1 => [4091, 4052, 3973, 3857, 3703, 3513, 3290, 3035, 2751, 2440, 2106, 1751, 1380, 995, 601, 201, -201, -601, -995, -1380, -1751, -2106, -2440, -2751, -3035, -3290, -3513, -3703, -3857, -3973, -4052, -4091]
  | 2 => [4076, 3920, 3612, 3166, 2598, 1931, 1189, 401, -401, -1189, -1931, -2598, -3166, -3612, -3920, -4076, -4076, -3920, -3612, -3166, -2598, -1931, -1189, -401, 401, 1189, 1931, 2598, 3166, 3612, 3920, 4076]
  | 3 => [4052, 3703, 3035, 2106, 995, -201, -1380, -2440, -3290, -3857, -4091, -3973, -3513, -2751, -1751, -601, 601, 1751, 2751, 3513, 3973, 4091, 3857, 3290, 2440, 1380, 201, -995, -2106, -3035, -3703, -4052]
  | 4 => [4017, 3406, 2276, 799, -799, -2276, -3406, -4017, -4017, -3406, -2276, -799, 799, 2276, 3406, 4017, 4017, 3406, 2276, 799, -799, -2276, -3406, -4017, -4017, -3406, -2276, -799, 799, 2276, 3406, 4017]
  | 5 => [3973, 3035, 1380, -601, -2440, -3703, -4091, -3513, -2106, -201, 1751, 3290, 4052, 3857, 2751, 995, -995, -2751, -3857, -4052, -3290, -1751, 201, 2106, 3513, 4091, 3703, 2440, 601, -1380, -3035, -3973]
  | 6 => [3920, 2598, 401, -1931, -3612, -4076, -3166, -1189, 1189, 3166, 4076, 3612, 1931, -401, -2598, -3920, -3920, -2598, -401, 1931, 3612, 4076, 3166, 1189, -1189, -3166, -4076, -3612, -1931, 401, 2598, 3920]
  | 7 => [3857, 2106, -601, -3035, -4091, -3290, -995, 1751, 3703, 3973, 2440, -201, -2751, -4052, -3513, -1380, 1380, 3513, 4052, 2751, 201, -2440, -3973, -3703, -1751, 995, 3290, 4091, 3035, 601, -2106, -3857]
  | 8 => [3784, 1567, -1567, -3784, -3784, -1567, 1567, 3784, 3784, 1567, -1567, -3784, -3784, -1567, 1567, 3784, 3784, 1567, -1567, -3784, -3784, -1567, 1567, 3784, 3784, 1567, -1567, -3784, -3784, -1567, 1567, 3784]
  | 9 => [3703, 995, -2440, -4091, -2751, 601, 3513, 3857, 1380, -2106, -4052, -3035, 201, 3290, 3973, 1751, -1751, -3973, -3290, -201, 3035, 4052, 2106, -1380, -3857, -3513, -601, 2751, 4091, 2440, -995, -3703]
  | 10 => [3612, 401, -3166, -3920, -1189, 2598, 4076, 1931, -1931, -4076, -2598, 1189, 3920, 3166, -401, -3612, -3612, -401, 3166, 3920, 1189, -2598, -4076, -1931, 1931, 4076, 2598, -1189, -3920, -3166, 401, 3612]
  | 11 => [3513, -201, -3703, -3290, 601, 3857, 3035, -995, -3973, -2751, 1380, 4052, 2440, -1751, -4091, -2106, 2106, 4091, 1751, -2440, -4052, -1380, 2751, 3973, 995, -3035, -3857, -601, 3290, 3703, 201, -3513]
  | 12 => [3406, -799, -4017, -2276, 2276, 4017, 799, -3406, -3406, 799, 4017, 2276, -2276, -4017, -799, 3406, 3406, -799, -4017, -2276, 2276, 4017, 799, -3406, -3406, 799, 4017, 2276, -2276, -4017, -799, 3406]
  | 13 => [3290, -1380, -4091, -995, 3513, 3035, -1751, -4052, -601, 3703, 2751, -2106, -3973, -201, 3857, 2440, -2440, -3857, 201, 3973, 2106, -2751, -3703, 601, 4052, 1751, -3035, -3513, 995, 4091, 1380, -3290]
  | 14 => [3166, -1931, -3920, 401, 4076, 1189, -3612, -2598, 2598, 3612, -1189, -4076, -401, 3920, 1931, -3166, -3166, 1931, 3920, -401, -4076, -1189, 3612, 2598, -2598, -3612, 1189, 4076, 401, -3920, -1931, 3166]
  | 15 => [3035, -2440, -3513, 1751, 3857, -995, -4052, 201, 4091, 601, -3973, -1380, 3703, 2106, -3290, -2751, 2751, 3290, -2106, -3703, 1380, 3973, -601, -4091, -201, 4052, 995, -3857, -1751, 3513, 2440, -3035]
  | 16 => [2896, -2896, -2896, 2896, 2896, -2896, -2896, 2896, 2896, -2896, -2896, 2896, 2896, -2896, -2896, 2896, 2896, -2896, -2896, 2896, 2896, -2896, -2896, 2896, 2896, -2896, -2896, 2896, 2896, -2896, -2896, 2896]
  | 17 => [2751, -3290, -2106, 3703, 1380, -3973, -601, 4091, -201, -4052, 995, 3857, -1751, -3513, 2440, 3035, -3035, -2440, 3513, 1751, -3857, -995, 4052, 201, -4091, 601, 3973, -1380, -3703, 2106, 3290, -2751]
  | 18 => [2598, -3612, -1189, 4076, -401, -3920, 1931, 3166, -3166, -1931, 3920, 401, -4076, 1189, 3612, -2598, -2598, 3612, 1189, -4076, 401, 3920, -1931, -3166, 3166, 1931, -3920, -401, 4076, -1189, -3612, 2598]
  | 19 => [2440, -3857, -201, 3973, -2106, -2751, 3703, 601, -4052, 1751, 3035, -3513, -995, 4091, -1380, -3290, 3290, 1380, -4091, 995, 3513, -3035, -1751, 4052, -601, -3703, 2751, 2106, -3973, 201, 3857, -2440]
  | 20 => [2276, -4017, 799, 3406, -3406, -799, 4017, -2276, -2276, 4017, -799, -3406, 3406, 799, -4017, 2276, 2276, -4017, 799, 3406, -3406, -799, 4017, -2276, -2276, 4017, -799, -3406, 3406, 799, -4017, 2276]
  | 21 => [2106, -4091, 1751, 2440, -4052, 1380, 2751, -3973, 995, 3035, -3857, 601, 3290, -3703, 201, 3513, -3513, -201, 3703, -3290, -601, 3857, -3035, -995, 3973, -2751, -1380, 4052, -2440, -1751, 4091, -2106]
  | 22 => [1931, -4076, 2598, 1189, -3920, 3166, 401, -3612, 3612, -401, -3166, 3920, -1189, -2598, 4076, -1931, -1931, 4076, -2598, -1189, 3920, -3166, -401, 3612, -3612, 401, 3166, -3920, 1189, 2598, -4076, 1931]
  | 23 => [1751, -3973, 3290, -201, -3035, 4052, -2106, -1380, 3857, -3513, 601, 2751, -4091, 2440, 995, -3703, 3703, -995, -2440, 4091, -2751, -601, 3513, -3857, 1380, 2106, -4052, 3035, 201, -3290, 3973, -1751]
  | 24 => [1567, -3784, 3784, -1567, -1567, 3784, -3784, 1567, 1567, -3784, 3784, -1567, -1567, 3784, -3784, 1567, 1567, -3784, 3784, -1567, -1567, 3784, -3784, 1567, 1567, -3784, 3784, -1567, -1567, 3784, -3784, 1567]
  | 25 => [1380, -3513, 4052, -2751, 201, 2440, -3973, 3703, -1751, -995, 3290, -4091, 3035, -601, -2106, 3857, -3857, 2106, 601, -3035, 4091, -3290, 995, 1751, -3703, 3973, -2440, -201, 2751, -4052, 3513, -1380]
  | 26 => [1189, -3166, 4076, -3612, 1931, 401, -2598, 3920, -3920, 2598, -401, -1931, 3612, -4076, 3166, -1189, -1189, 3166, -4076, 3612, -1931, -401, 2598, -3920, 3920, -2598, 401, 1931, -3612, 4076, -3166, 1189]
  | 27 => [995, -2751, 3857, -4052, 3290, -1751, -201, 2106, -3513, 4091, -3703, 2440, -601, -1380, 3035, -3973, 3973, -3035, 1380, 601, -2440, 3703, -4091, 3513, -2106, 201, 1751, -3290, 4052, -3857, 2751, -995]
  | 28 => [799, -2276, 3406, -4017, 4017, -3406, 2276, -799, -799, 2276, -3406, 4017, -4017, 3406, -2276, 799, 799, -2276, 3406, -4017, 4017, -3406, 2276, -799, -799, 2276, -3406, 4017, -4017, 3406, -2276, 799]
  | 29 => [601, -1751, 2751, -3513, 3973, -4091, 3857, -3290, 2440, -1380, 201, 995, -2106, 3035, -3703, 4052, -4052, 3703, -3035, 2106, -995, -201, 1380, -2440, 3290, -3857, 4091, -3973, 3513, -2751, 1751, -601]
  | 30 => [401, -1189, 1931, -2598, 3166, -3612, 3920, -4076, 4076, -3920, 3612, -3166, 2598, -1931, 1189, -401, -401, 1189, -1931, 2598, -3166, 3612, -3920, 4076, -4076, 3920, -3612, 3166, -2598, 1931, -1189, 401]
  | 31 => [201, -601, 995, -1380, 1751, -2106, 2440, -2751, 3035, -3290, 3513, -3703, 3857, -3973, 4052, -4091, 4091, -4052, 3973, -3857, 3703, -3513, 3290, -3035, 2751, -2440, 2106, -1751, 1380, -995, 601, -201]
  | _ => []

/-- Row `k` of the table of length `L`; rule R96 gives the lengths 1 to 32 and no other. -/
def basisRow : Nat → Nat → List Int
  | 1 => basis1
  | 2 => basis2
  | 3 => basis3
  | 4 => basis4
  | 5 => basis5
  | 6 => basis6
  | 7 => basis7
  | 8 => basis8
  | 9 => basis9
  | 10 => basis10
  | 11 => basis11
  | 12 => basis12
  | 13 => basis13
  | 14 => basis14
  | 15 => basis15
  | 16 => basis16
  | 17 => basis17
  | 18 => basis18
  | 19 => basis19
  | 20 => basis20
  | 21 => basis21
  | 22 => basis22
  | 23 => basis23
  | 24 => basis24
  | 25 => basis25
  | 26 => basis26
  | 27 => basis27
  | 28 => basis28
  | 29 => basis29
  | 30 => basis30
  | 31 => basis31
  | 32 => basis32
  | _ => fun _ => []

/-- `B(L)[k][n]` of rule R96. -/
def basisEntry (L k n : Nat) : Int := (basisRow L k).getD n 0

end Sys2Proof.Machine
end

