-- ==== Sys2Proof/Machine/Numerics.lean ====
section
/-! DEFINITION. The arithmetic of the codec datapath, exact on integers (rules R98 to R107), and of the metrics results (R144, R145). -/

namespace Sys2Proof.Machine

/-- ROUND(n, d) of rule R99: the integer nearest to n/d, halves away from zero. -/
def roundDiv (n d : Int) : Int := n.sign * ((2 * (n.natAbs : Int) + d) / (2 * d))

/-- CLAMP(v, lo, hi) of rule R7. -/
def clamp (v lo hi : Int) : Int := if v < lo then lo else if hi < v then hi else v

/-- The sum of `f 0` to `f (n - 1)`. -/
def sumTo : Nat → (Nat → Int) → Int
  | 0, _ => 0
  | n + 1, f => sumTo n f + f n

/-- A block buffer of rule R30: rows of entries. -/
abbrev Block := List (List Int)

/-- The `h` x `w` block with entry `f r c` at row r, column c. -/
def tabulate (h w : Nat) (f : Nat → Nat → Int) : Block :=
  (List.range h).map fun r => (List.range w).map fun c => f r c

/-- The entry at row `r`, column `c`. -/
def Block.entry (b : Block) (r c : Nat) : Int := (b.getD r []).getD c 0

/-- The level shift of rule R98. -/
def shiftDown (s : Byte) : Int := (s.toNat : Int) - 128

/-- FDCT2(h, w, x) of rule R100. -/
def fdct2 (h w : Nat) (x : Block) : Block :=
  tabulate h w fun u v => sumTo h fun r => sumTo w fun c =>
    basisEntry h u r * basisEntry w v c * x.entry r c

/-- QUANT(Y, m, S) of rule R102. -/
def quant (Y m S : Int) : Int := roundDiv (5 * Y) (m * S * 2 ^ 19)

/-- DEQ(q, m, S) of rule R103. -/
def deq (q m S : Int) : Int := q * m * S

/-- IDCT2(h, w, D) of rule R104: the same tables, summed over the first index. -/
def idct2 (h w : Nat) (D : Block) : Block :=
  tabulate h w fun r c => sumTo h fun u => sumTo w fun v =>
    basisEntry h u r * basisEntry w v c * D.entry u v

/-- The sample of rule R105: rounded, shifted up, then clamped, never wrapped (R106). -/
def reconstruct (Z : Int) : Int := clamp (roundDiv Z (5 * 2 ^ 37) + 128) 0 255

/-- `int16(v)` of rule R6. -/
def int16 (v : Int) : BitVec 16 := BitVec.ofInt 16 v

/-- The two bytes of a 16-bit item in memory order, rule R51: the low byte at the lower address. -/
def bytesLE (v : BitVec 16) : List Byte := [v.extractLsb' 0 8, v.extractLsb' 8 8]

/-- The squared difference of two samples, rule R137. -/
def sqDiff (a b : Byte) : Nat := ((a.toNat : Int) - (b.toNat : Int)).natAbs ^ 2

/-- The largest number below `2^n` above `acc` that `P` allows, bit by bit from the top, for a `P` that holds below any number it holds at. -/
def bitSearch (P : Nat → Bool) : Nat → Nat → Nat
  | 0, acc => acc
  | n + 1, acc => if P (acc + 2 ^ n) then bitSearch P n (acc + 2 ^ n) else bitSearch P n acc

/-- Rule R144: whether `2560 * log10(a/b)` is `k` or more, without real numbers. -/
def psnrAtLeast (a b k : Nat) : Bool := decide (10 ^ k * b ^ 2560 ≤ a ^ 2560)

/-- PSNRQ(SSE, CNT) of rule R144, by its integer characterisation. -/
def psnrq (sse cnt : Nat) : Nat :=
  if 65025 * cnt < sse then 0 else bitSearch (psnrAtLeast (65025 * cnt) sse) 16 0

/-- RATIOQ(LEVEL) of rule R145. -/
def ratioq (level : Nat) : Nat := 6553600 / (200 - level)

end Sys2Proof.Machine
end

