-- ==== Sys2Proof/Config.lean ====
section
/-! DEFINITION. The parameters of rule R5 that are fixed, and the free values. Nothing here changes while the machine runs. -/

namespace Sys2Proof.Config

/-- BSIZES, rule R5: the supported block sizes. -/
def blockSizes : List Nat := [4, 8, 16, 32]

/-- LEVELMIN, rule R5. -/
def levelMin : Nat := 1

/-- LEVELMAX, rule R5. -/
def levelMax : Nat := 100

/-- MAXDIM, rule R5: the largest legal WIDTH and HEIGHT. -/
def maxDim : Nat := 65535

/-- 2^AW, rule R5: the number of byte addresses of the memory space (rule R45). -/
def addressSpace : Nat := 2 ^ 32

/-- ID_VALUE, rules R5 and R12. -/
def idValue : Word := 0x4B524C01#32

/-- The least valid entry of the quantization store, rule R28: 1.0 in UQ8.8. -/
def qmMin : Nat := 0x0100

/-- What a byte that nothing has written reads as: DESIGN CHOICE, unsafe (log entry 4); the spec leaves memory's contents to the platform (rule R32). -/
def unwritten : Byte := 0x00#8

/-- NUM_ENGINES, rule R5: an argument with default 1. `State.reset` takes the default, and every step works for any number (log entry 5). -/
def numEngines : Nat := 1

/-- FREE VALUE (log entry 6): which of the values a byte has held a racing read returns, for the `slot`-th read of the step that has the number `tick`. Rule R58: "a model admits every one of them; it never picks one". -/
opaque raceChoice (tick slot : Nat) : Nat

end Sys2Proof.Config
end

