-- ==== Sys2Proof/Syntax.lean ====
section
/-! DEFINITION. The commands of the block (rule R66), the fields of a command word (R65), the registers of the register space (R11), and the steps of the agents around the engine (R9). -/

namespace Sys2Proof

/-- The fields of a command word, rule R65: OPC is bits 7:0, ACC bit 8, RSV bits 31:9. -/
structure Fields where
  opc : BitVec 8
  acc : Bool
  rsv : BitVec 23
  deriving DecidableEq, Repr

/-- The seven commands of rule R66, the block's instruction set (rule R2). -/
inductive Instr where
  /-- NOP, opcode 0x00, rule R163. -/
  | nop
  /-- PROC, opcode 0x01, rules R115 to R128; `acc` is bit 8 of the word. -/
  | proc (acc : Bool)
  /-- MACC, opcode 0x02, rules R139, R140. -/
  | macc
  /-- MCLR, opcode 0x03, rule R142. -/
  | mclr
  /-- MFIN, opcode 0x04, rule R143. -/
  | mfin
  /-- ABORT, opcode 0x05, rule R164. -/
  | abort
  /-- SRST, opcode 0x06, rule R165. -/
  | srst
  deriving DecidableEq, Repr

/-- Why a word is no command, rule R67 (2) and (3). -/
inductive DecodeError where
  /-- Unknown opcode: error class 1, detail 1. -/
  | opcode
  /-- A reserved bit is set: error class 1, detail 2. -/
  | reserved
  deriving DecidableEq, Repr

/-- The registers of the register space, rule R11; `reserved` stands for every aligned offset of the map that names no register. -/
inductive Reg where
  | id
  | cmd
  | status
  | errinfo
  | faddr
  | ien
  | bsize
  | level
  | width
  | height
  | srcBase
  | srcStride
  | dstBase
  | dstStride
  | arcBase
  | udone
  | utotal
  | sseLo
  | sseHi
  | cntLo
  | cntHi
  | psnr
  | ratio
  /-- Entry QM[i][j] of the quantization store, rule R28. -/
  | qm (i j : Fin 32)
  | reserved
  deriving DecidableEq, Repr

/-- One access of the host to a register space (rules R46 to R48): `bits` is its width, `off` its byte offset from the engine's base. -/
inductive HostAccess where
  | read (bits off : Nat)
  | write (bits off : Nat) (v : Word)
  deriving DecidableEq, Repr

/-- What the agents of rule R9 do. A list of events fixes one interleaving of their steps (rule R247). -/
inductive Event where
  /-- The host accesses the register space of engine `k`. -/
  | host (k : Nat) (a : HostAccess)
  /-- The host reads one byte of the memory space. -/
  | memRead (addr : Nat)
  /-- The host writes one byte of the memory space. -/
  | memWrite (addr : Nat) (b : Byte)
  /-- Engine `k` is scheduled: it takes one engine step if it has one (rule R160). -/
  | engine (k : Nat)
  /-- The platform's reset input of engine `k` (rule R230 a). -/
  | reset (k : Nat)
  deriving DecidableEq, Repr

end Sys2Proof
end

