-- ==== Sys2Proof/Machine/State.lean ====
section
/-! DEFINITION. The state of the block and of the platform around it, as plain data: rule R10 for one engine, R31 for the memory space, R214 for several engines; the reasons a step can stop; and the state after reset (R32, R231). -/

namespace Sys2Proof.Machine

/-- Why a step stops with a fault. -/
inductive Fault where
  /-- An agent names a byte address of 2^32 or more, which rule R45 says does not exist. Raised by memory accesses of the engine and of the host. Safe: the checks of rule R203 keep a command's accesses below 2^32 (rule R55), and the invariant of Safety.lean says so. -/
  | outsideMemorySpace (addr : Nat)
  deriving DecidableEq, Repr

/-- Why a step is refused. -/
inductive Refusal where
  /-- No meaning yet for the command of this mnemonic. Raised by no arm. Safe. -/
  | notModelled (mnemonic : String)
  /-- A host access that is not an aligned 32-bit access inside the register space. Raised by the register port: rule R48 tells a model to refuse the step. Safe. -/
  | registerAccess (bits off : Nat)
  /-- A register access, a scheduling or a reset of an engine that the platform does not have (rule R214). Raised by the choice of the engine. Safe. -/
  | noSuchEngine (k : Nat)
  deriving DecidableEq, Repr

/-- The command errors of rule R201, one name for each class and detail. They are no stops of the model: each is a next state (rule R206). -/
inductive CmdError where
  /-- InvalidParameter(OPCODE). -/
  | opcode
  /-- InvalidParameter(CMDRSV). -/
  | cmdrsv
  /-- InvalidParameter(BSIZE). -/
  | bsize
  /-- InvalidParameter(LEVEL). -/
  | level
  /-- InvalidParameter(STRIDE). -/
  | stride
  /-- InvalidParameter(ALIGN). -/
  | align
  /-- InvalidParameter(RANGE). -/
  | range
  /-- InvalidParameter(QM). -/
  | qm
  /-- DimensionMismatch(WZERO). -/
  | wzero
  /-- DimensionMismatch(HZERO). -/
  | hzero
  /-- DimensionMismatch(TOOBIG). -/
  | toobig
  /-- BusFault(READ). -/
  | busRead
  /-- BusFault(WRITE). -/
  | busWrite
  /-- MetricsState(EMPTY). -/
  | empty
  /-- MetricsState(OVERFLOW). -/
  | overflow
  deriving DecidableEq, Repr

/-- The seven flags of STATUS, rule R14. Bits 31:7 have no storage and read 0 (`Status.word` in Flags.lean gives the word). -/
structure Status where
  busy : Bool
  done : Bool
  err : Bool
  canc : Bool
  rej : Bool
  mvalid : Bool
  movf : Bool
  deriving DecidableEq, Repr

/-- The quantization store, rule R28: 32 rows of 32 entries. -/
abbrev Store := Vector (Vector Step 32) 32

/-- All the state of one engine, rule R10: registers, quantization store, and the hidden CUROP, ACCF, CREQ of rule R29. -/
structure Engine where
  status : Status
  errinfo : Word
  faddr : Word
  ien : Word
  bsize : Word
  level : Word
  width : Word
  height : Word
  srcBase : Word
  srcStride : Word
  dstBase : Word
  dstStride : Word
  arcBase : Word
  udone : Word
  utotal : Word
  sse : Acc
  cnt : Acc
  psnr : Word
  ratio : Word
  qm : Store
  curop : BitVec 8
  accf : Bool
  creq : Bool
  deriving DecidableEq, Repr

/-- The memory space (rule R31) as a list of cells in the canonical form of `Memory.wf` (Ops.lean). -/
abbrev Memory := List Host.Cell

/-- The two kinds of access that MemOK tells apart, rule R5. -/
inductive AccessKind where
  | read
  | write
  deriving DecidableEq, Repr

/-- A range of byte addresses, `lo` to `hi` inclusive, at which MemOK is false for accesses of this kind (rule R57, log entry 3). -/
structure Denial where
  lo : Nat
  hi : Nat
  kind : AccessKind
  deriving DecidableEq, Repr

/-- A window of the memory space: `height` rows of `width` bytes, `stride` bytes apart (rule R52); an archive is one row (R53). `written` says whether the command that has it writes it or only reads it (R58). -/
structure Region where
  base : Nat
  stride : Nat
  width : Nat
  height : Nat
  written : Bool
  deriving DecidableEq, Repr

/-- Rule R58: the region belongs to a long command of engine `engine`, from acceptance until the host has read STATUS with BUSY = 0. -/
structure Claim where
  engine : Nat
  region : Region
  deriving DecidableEq, Repr

/-- The accesses of engine `engine`'s latest command are in no order with those that agent `other` (`none` for the host) made or makes to `region` (rules R58, R59, R63; log entry 20). -/
structure Rival where
  engine : Nat
  other : Option Nat
  region : Region
  deriving DecidableEq, Repr

/-- The engine the current step acts on is `eng`; `before` are the engines of lower number, nearest first, and `after` those of higher number (rule R214, log entry 5). The fields from `inputs` on are the model's own. -/
structure State where
  before : List Engine
  eng : Engine
  after : List Engine
  mem : Memory
  /-- MemOK as data (log entry 3). -/
  denied : List Denial
  /-- The steps of the agents still to come, in their order (log entry 1). -/
  inputs : List Event
  /-- What the most recent host read returned (log entry 9). -/
  rdata : Word
  /-- The regions of outstanding long commands, rule R58 (log entry 8). -/
  owned : List Claim
  /-- What the accesses of the outstanding long commands are in no order with (log entry 20). -/
  rivals : List Rival
  /-- The addresses whose byte is undetermined after a race, rule R58 (log entries 6, 7). -/
  raced : List Nat
  /-- Every overwritten byte with its address, latest first: the candidates of a race (log entry 6). -/
  past : List Host.Cell
  /-- Counts the steps that read memory, so that each draws its own free values (log entry 6). -/
  tick : Nat
  deriving DecidableEq, Repr

/-- STATUS = 0, rule R32. -/
def Status.reset : Status :=
  { busy := false, done := false, err := false, canc := false, rej := false, mvalid := false, movf := false }

/-- Rules R32 and R231: every register but ID is 0, all 1024 entries of QM are 0, CUROP = ACCF = CREQ = 0. -/
def Engine.reset : Engine :=
  { status := Status.reset, errinfo := 0#32, faddr := 0#32, ien := 0#32, bsize := 0#32, level := 0#32
    width := 0#32, height := 0#32, srcBase := 0#32, srcStride := 0#32, dstBase := 0#32, dstStride := 0#32
    arcBase := 0#32, udone := 0#32, utotal := 0#32, sse := 0#64, cnt := 0#64, psnr := 0#32, ratio := 0#32
    qm := Vector.replicate 32 (Vector.replicate 32 0#16), curop := 0#8, accf := false, creq := false }

/-- The platform after reset: NUM_ENGINES engines (default 1, rule R5), each in the reset state. Memory lists nothing, MemOK is true, no step is pending (log entries 1, 3, 4). -/
def State.reset : State :=
  { before := [], eng := Engine.reset, after := List.replicate (Config.numEngines - 1) Engine.reset
    mem := [], denied := [], inputs := [], rdata := 0#32, owned := [], rivals := [], raced := [], past := [], tick := 0 }

end Sys2Proof.Machine
end

