-- ==== Sys2Proof/Machine/Flags.lean ====
section
/-! DEFINITION. The flags: STATUS as a word, its write-1-to-clear, the interrupt output, and the saturating add that sets MOVF (rules R14, R17, R210, R138). -/

namespace Sys2Proof.Machine

/-- STATUS as the host reads it, rule R14: bits 6:0 are the flags, bits 31:7 read 0. -/
def Status.word (st : Status) : Word :=
  BitVec.ofNat 32 (st.busy.toNat + 2 * st.done.toNat + 4 * st.err.toNat + 8 * st.canc.toNat
    + 16 * st.rej.toNat + 32 * st.mvalid.toNat + 64 * st.movf.toNat)

/-- Rule R14: a host write of `v` clears exactly the bits among 4:1 whose bit in `v` is 1. -/
def Status.w1c (st : Status) (v : Word) : Status :=
  { st with
    done := st.done && !v.getLsbD 1
    err := st.err && !v.getLsbD 2
    canc := st.canc && !v.getLsbD 3
    rej := st.rej && !v.getLsbD 4 }

/-- Rule R158: acceptance clears DONE, ERR and CANC; REJ, MVALID and MOVF stay. -/
def Status.clearOutcome (st : Status) : Status :=
  { st with done := false, err := false, canc := false }

/-- The enable bits 4:1 of rules R17 and R210. -/
def irqMask : Word := 0x0000001E#32

/-- Rule R210: the level of the interrupt output. -/
def Engine.irq (e : Engine) : Bool := (e.status.word &&& e.ien &&& irqMask) != 0#32

/-- Rule R138: the sum, saturated at 2^64 - 1. -/
def satadd64 (acc : Acc) (d : Nat) : Acc := BitVec.ofNat 64 (min (acc.toNat + d) (2 ^ 64 - 1))

/-- Rule R138: whether the sum saturates, which sets MOVF. -/
def saturates64 (acc : Acc) (d : Nat) : Bool := decide (2 ^ 64 - 1 < acc.toNat + d)

/-- Rules R137 and R138: `d` is added to SSE and `n` to CNT; MOVF is sticky. -/
def Engine.accumulate (e : Engine) (d n : Nat) : Engine :=
  { e with
    sse := satadd64 e.sse d
    cnt := satadd64 e.cnt n
    status := { e.status with movf := e.status.movf || saturates64 e.sse d || saturates64 e.cnt n } }

end Sys2Proof.Machine
end

