-- ==== Sys2Proof/Decode.lean ====
section
/-! DEFINITION. Decoding command words, total and rejecting by name (rule R67), the encoder (R65, R66), and the register map (R11). -/

namespace Sys2Proof

/-- Rule R67 (2): the opcode is one of the seven. -/
def Fields.opcodeDefined (f : Fields) : Bool := decide (f.opc.toNat ≤ 6)

/-- Rule R67 (3): RSV is 0, and ACC is 0 for every command but PROC. -/
def Fields.reservedClear (f : Fields) : Bool := f.rsv == 0#23 && (!f.acc || f.opc == 1#8)

/-- Rule R65: the fields of a 32-bit word. -/
def fieldsOf (w : Word) : Fields := ⟨w.extractLsb' 0 8, w.getLsbD 8, w.extractLsb' 9 23⟩

/-- The opcode column of rule R66. -/
def Instr.opc : Instr → BitVec 8
  | .nop => 0x00#8
  | .proc _ => 0x01#8
  | .macc => 0x02#8
  | .mclr => 0x03#8
  | .mfin => 0x04#8
  | .abort => 0x05#8
  | .srst => 0x06#8

/-- The ACC bit of a command's word: PROC's own, 0 for every other command (rule R65). -/
def Instr.accBit : Instr → Bool
  | .proc acc => acc
  | .nop => false
  | .macc => false
  | .mclr => false
  | .mfin => false
  | .abort => false
  | .srst => false

/-- The fields of a command's word. -/
def Instr.fields (i : Instr) : Fields := ⟨i.opc, i.accBit, 0#23⟩

/-- Rule R65: the word made of the three fields. -/
def wordOf (f : Fields) : Word := f.rsv ++ BitVec.ofBool f.acc ++ f.opc

/-- Rule R67 (4): the command of a legal opcode. -/
def instrOf (f : Fields) : Except DecodeError Instr :=
  match f.opc.toNat with
  | 0 => .ok .nop
  | 1 => .ok (.proc f.acc)
  | 2 => .ok .macc
  | 3 => .ok .mclr
  | 4 => .ok .mfin
  | 5 => .ok .abort
  | 6 => .ok .srst
  | _ => .error .opcode

/-- Rule R67, in its order: the exact words SRST and ABORT, then the opcode, then the reserved bits, then the command. -/
def decode (w : Word) : Except DecodeError Instr :=
  if w = 0x00000006#32 then .ok .srst
  else if w = 0x00000005#32 then .ok .abort
  else if !(fieldsOf w).opcodeDefined then .error .opcode
  else if !(fieldsOf w).reservedClear then .error .reserved
  else instrOf (fieldsOf w)

/-- The word of a command, from the encoding table of rule R66. -/
def encode (i : Instr) : Word := wordOf i.fields

/-- The command that the opcode table's bits `w` (`nbits` of them, the bits above being 0) decode to. -/
def decodeTableWord (nbits w : Nat) : Option Instr :=
  match decode (BitVec.ofNat 32 (w % 2 ^ nbits)) with
  | .ok i => some i
  | .error _ => none

/-- Rule R48: only aligned 32-bit accesses at offsets 0x0000 to 0x1FFC are legal. -/
def legalAccess (bits off : Nat) : Bool := bits == 32 && off % 4 == 0 && decide (off ≤ 0x1FFC)

/-- The register at an aligned offset below 0x1000, rule R11. -/
def regOfLow : Nat → Reg
  | 0x000 => .id
  | 0x004 => .cmd
  | 0x008 => .status
  | 0x00C => .errinfo
  | 0x010 => .faddr
  | 0x014 => .ien
  | 0x018 => .bsize
  | 0x01C => .level
  | 0x020 => .width
  | 0x024 => .height
  | 0x028 => .srcBase
  | 0x02C => .srcStride
  | 0x030 => .dstBase
  | 0x034 => .dstStride
  | 0x038 => .arcBase
  | 0x040 => .udone
  | 0x044 => .utotal
  | 0x048 => .sseLo
  | 0x04C => .sseHi
  | 0x050 => .cntLo
  | 0x054 => .cntHi
  | 0x058 => .psnr
  | 0x05C => .ratio
  | _ => .reserved

/-- The register at offset `off` (rule R11; QM[i][j] is at 0x1000 + 4*(32*i + j), rule R28), if a 32-bit access there is legal. -/
def regOf (off : Nat) : Option Reg :=
  if legalAccess 32 off then
    if off < 0x1000 then some (regOfLow off)
    else some (.qm (Fin.ofNat 32 ((off - 0x1000) / 4 / 32)) (Fin.ofNat 32 ((off - 0x1000) / 4 % 32)))
  else none

/-- The offset of a named register, rule R11; 0x03C for the reserved ones. -/
def Reg.offset : Reg → Nat
  | .id => 0x000
  | .cmd => 0x004
  | .status => 0x008
  | .errinfo => 0x00C
  | .faddr => 0x010
  | .ien => 0x014
  | .bsize => 0x018
  | .level => 0x01C
  | .width => 0x020
  | .height => 0x024
  | .srcBase => 0x028
  | .srcStride => 0x02C
  | .dstBase => 0x030
  | .dstStride => 0x034
  | .arcBase => 0x038
  | .reserved => 0x03C
  | .udone => 0x040
  | .utotal => 0x044
  | .sseLo => 0x048
  | .sseHi => 0x04C
  | .cntLo => 0x050
  | .cntHi => 0x054
  | .psnr => 0x058
  | .ratio => 0x05C
  | .qm i j => 0x1000 + 4 * (32 * i.val + j.val)

end Sys2Proof
end

