-- ==== Sys2Proof/WellFormed.lean ====
section
/-! DEFINITION. Which command words, commands and register accesses are well formed (rules R67 (2), (3) and R48); the single checks stand in Decode.lean. -/

namespace Sys2Proof

/-- A word with these fields is one of the commands of rule R66. -/
def Fields.wf (f : Fields) : Bool := f.opcodeDefined && f.reservedClear

/-- A command is well formed when its fields are. -/
def Instr.wf (i : Instr) : Bool := i.fields.wf

/-- The access is legal by rule R48. -/
def HostAccess.wf : HostAccess → Bool
  | .read bits off => legalAccess bits off
  | .write bits off _ => legalAccess bits off

end Sys2Proof
end

