-- ==== Sys2Proof/Machine/Ops.lean ====
section
/-! DEFINITION. The named operations: the choice of an engine, the memory space and its races (rules R31, R57, R58), the accesses of an engine step (R7, R56), the error entry (R206), and the acceptance of a command (R156 to R158). -/

namespace Sys2Proof.Machine

/-! ### Engines -/

/-- The number of the engine in focus. -/
def State.idx (s : State) : Nat := s.before.length

/-- All engines of the platform, engine 0 first (rule R214). -/
def State.engines (s : State) : List Engine := s.before.reverse ++ s.eng :: s.after

/-- The same platform with engine `k` in focus; `none` where the platform has no engine `k`. -/
def State.focus (s : State) (k : Nat) : Option State :=
  match s.engines.drop k with
  | [] => none
  | e :: rest => some { s with before := (s.engines.take k).reverse, eng := e, after := rest }

/-- The engine in focus gets a new state. -/
def State.setEng (s : State) (e : Engine) : State := { s with eng := e }

/-- The engine that runs when no input is pending: the one in focus if it is busy, else the first busy one (log entry 1). -/
def State.busyEngine (s : State) : Option Nat :=
  if s.eng.status.busy then some s.idx else s.engines.findIdx? (fun e => e.status.busy)

/-! ### The memory space -/

/-- The byte at address `a`. -/
def Memory.read : Memory → Nat → Byte
  | [], _ => Config.unwritten
  | c :: m, a => if c.1 = a then c.2 else Memory.read m a

/-- The memory with byte `b` at address `a`. -/
def Memory.write : Memory → Nat → Byte → Memory
  | [], a, b => if b = Config.unwritten then [] else [(a, b)]
  | c :: m, a, b =>
    if a < c.1 then (if b = Config.unwritten then c :: m else (a, b) :: c :: m)
    else if a = c.1 then (if b = Config.unwritten then m else (a, b) :: m)
    else c :: Memory.write m a b

/-- The canonical form: addresses strictly rising and inside the memory space, and no cell equal to what an unlisted address reads as. -/
abbrev Memory.wf (m : Memory) : Prop :=
  m.Pairwise (fun c d => c.1 < d.1) ∧ ∀ c ∈ m, c.1 < Config.addressSpace ∧ c.2 ≠ Config.unwritten

/-- Rule R45: the byte addresses are 0 to 2^32 - 1. -/
def inSpace (a : Nat) : Bool := decide (a < Config.addressSpace)

/-- MemOK(addr, kind) of rule R5. -/
def State.memOK (s : State) (a : Nat) (kind : AccessKind) : Bool :=
  !s.denied.any (fun d => d.kind == kind && decide (d.lo ≤ a) && decide (a ≤ d.hi))

/-- Whether a byte lies in the window: some row of it, a column below its width (rule R52). -/
def Region.contains (r : Region) (a : Nat) : Bool :=
  decide (r.base ≤ a) && decide ((a - r.base) / r.stride < r.height) && decide ((a - r.base) % r.stride < r.width)

/-! ### Ownership and races, rules R58, R59, R63. An agent is `none` for the host and `some k` for engine `k`. -/

/-- The window of the one byte `a`. -/
def Region.byte (a : Nat) : Region := { base := a, stride := 1, width := 1, height := 1, written := true }

/-- A long command of some engine that writes `a` is outstanding: duty R58 (b) forbids the host to access `a`. -/
def State.outputByte (s : State) (a : Nat) : Bool :=
  s.owned.any (fun c => c.region.written && c.region.contains a)

/-- The accesses of engine `k`'s command to `a` are in no order with another agent's writes of `a`: the host broke a duty of rule R58, or another engine's command that writes `a` ran at the same time (rules R63, R214). -/
def State.contested (s : State) (k a : Nat) : Bool :=
  s.rivals.any (fun r => r.engine == k && r.region.written && r.region.contains a)

/-- The host has written `a` against duty R58 (a) or (b), and the command it disturbed is outstanding and the latest long command of its engine (log entry 21). -/
def State.disturbed (s : State) (a : Nat) : Bool :=
  s.rivals.any (fun r => r.other == none && r.region.contains a)

/-- What this agent reads at `a` is undetermined: the byte is in a race, or a duty is broken and the two agents' accesses of it are in no order. -/
def State.racyRead (s : State) (agent : Option Nat) (a : Nat) : Bool :=
  s.raced.contains a ||
    match agent with
    | none => s.outputByte a || s.disturbed a
    | some k => s.contested k a

/-- A write of `a` by this agent is in no order with another agent's write of `a` in an outstanding command. -/
def State.racyWrite (s : State) (agent : Option Nat) (a : Nat) : Bool :=
  match agent with
  | none => s.outputByte a
  | some k => s.contested k a

/-- The values that byte `a` has held, the present one first. -/
def State.candidates (s : State) (a : Nat) : List Byte :=
  s.mem.read a :: (s.past.filter (fun c => c.1 == a)).map (fun c => c.2)

/-- What this agent reads at `a`: the byte, or in a race any of the values it has held (rule R58, free value of log entry 6). -/
def State.fetch (s : State) (agent : Option Nat) (slot a : Nat) : Byte :=
  if s.racyRead agent a then
    (s.candidates a).getD (Config.raceChoice s.tick slot % (s.candidates a).length) (s.mem.read a)
  else s.mem.read a

/-- The addresses in a race after this agent has written `a`: a racing write adds `a`; any other write comes after all earlier ones of `a` and settles it, so that rule R59 makes it visible (log entry 7). -/
def State.racedAfter (s : State) (agent : Option Nat) (a : Nat) : List Nat :=
  if s.racyWrite agent a then (if s.raced.contains a then s.raced else a :: s.raced)
  else s.raced.filter (fun b => b != a)

/-- The rivals after this agent has written `a`: a write of the host inside a region of an outstanding command is in no order with that command's accesses (rule R58). -/
def State.rivalsAfter (s : State) (agent : Option Nat) (a : Nat) : List Rival :=
  match agent with
  | none => s.rivals ++ (s.owned.filter (fun c => c.region.contains a)).map (fun c => ⟨c.engine, none, Region.byte a⟩)
  | some _ => s.rivals

/-- This agent writes one byte. -/
def State.store (s : State) (agent : Option Nat) (a : Nat) (b : Byte) : State :=
  { s with
    mem := s.mem.write a b
    past := (a, s.mem.read a) :: s.past
    raced := s.racedAfter agent a
    rivals := s.rivalsAfter agent a }

/-- The host has read STATUS with BUSY = 0: the regions of engine `k` are its own no more, and later accesses of the host come after those of its command (rules R58, R59 b). -/
def State.release (s : State) (k : Nat) : State :=
  { s with
    owned := s.owned.filter (fun c => c.engine != k)
    rivals := s.rivals.filter (fun r => r.engine != k) }

/-- The regions of outstanding commands of engines other than the one in focus. -/
def State.others (s : State) : List Claim := s.owned.filter (fun c => c.engine != s.idx)

/-- The rivals when the engine in focus begins a command with these regions: it comes after all that the host has seen or done (rule R59 a), and is in no order with the commands of other engines whose end the host has not seen (rule R63), nor they with it. The earlier rivals of this engine are dropped also where no STATUS read with BUSY = 0 came between its two commands, so that a source byte which the host wrote during the first one is determined again, to the host as to the engine: DESIGN CHOICE, where R58 does not say when the race ends (log entry 21). -/
def State.rivalsClaimed (s : State) (rs : List Region) : List Rival :=
  s.rivals.filter (fun r => r.engine != s.idx) ++
    s.others.map (fun c => ⟨s.idx, some c.engine, c.region⟩) ++
    s.others.flatMap (fun c => rs.map (fun r => ⟨c.engine, some s.idx, r⟩))

/-- Rule R58: the regions belong to the engine in focus from now on. A command without regions claims nothing. -/
def State.claim (s : State) (rs : List Region) : State :=
  if rs = [] then s
  else { s with owned := s.owned ++ rs.map (fun r => ⟨s.idx, r⟩), rivals := s.rivalsClaimed rs }

/-! ### The accesses of one engine step, rules R7, R56, R57 -/

/-- How a sequence of reads ends. -/
inductive ReadResult where
  /-- All of them happened. -/
  | ok (bytes : List Byte)
  /-- The platform refused the read of this address. -/
  | refused (addr : Nat)
  /-- This address does not exist. -/
  | outside (addr : Nat)
  deriving DecidableEq, Repr

/-- How a sequence of writes ends. -/
inductive WriteResult where
  /-- All of them happened. -/
  | ok (s : State)
  /-- The platform refused the access at this address; the earlier ones happened. -/
  | refused (s : State) (addr : Nat)
  /-- This address does not exist. -/
  | outside (addr : Nat)
  deriving DecidableEq, Repr

/-- `MemRead(a, 1)` of rule R7 for each address in turn, by the engine in focus; `slot` counts the reads of the step. -/
def State.readAll (s : State) : Nat → List Nat → ReadResult
  | _, [] => .ok []
  | slot, a :: as =>
    if !inSpace a then .outside a
    else if !s.memOK a .read then .refused a
    else
      match s.readAll (slot + 1) as with
      | .ok bs => .ok (s.fetch (some s.idx) slot a :: bs)
      | .refused r => .refused r
      | .outside r => .outside r

/-- The bytes are written at ascending addresses from `a` on, the first at the lowest (rule R51). -/
def State.storeBytes (s : State) (agent : Option Nat) : Nat → List Byte → State
  | _, [] => s
  | a, b :: bs => (s.store agent a b).storeBytes agent (a + 1) bs

/-- The byte addresses of an access of `n` bytes at `a`. -/
def accessBytes (a n : Nat) : List Nat := (List.range n).map (fun i => a + i)

/-- `MemWrite(a, n, v)` of rule R7 for each access in turn, by the engine in focus: an access that is refused at any of its bytes writes none of them. -/
def State.writeAll (s : State) : List (Nat × List Byte) → WriteResult
  | [] => .ok s
  | (a, bs) :: ws =>
    if !(accessBytes a bs.length).all inSpace then .outside a
    else if !(accessBytes a bs.length).all (fun b => s.memOK b .write) then .refused s a
    else (s.storeBytes (some s.idx) a bs).writeAll ws

/-! ### The error entry, and the end of an error -/

/-- The class of rule R201, ERRINFO[7:0]. -/
def CmdError.cls : CmdError → Nat
  | .opcode => 1
  | .cmdrsv => 1
  | .bsize => 1
  | .level => 1
  | .stride => 1
  | .align => 1
  | .range => 1
  | .qm => 1
  | .wzero => 2
  | .hzero => 2
  | .toobig => 2
  | .busRead => 3
  | .busWrite => 3
  | .empty => 4
  | .overflow => 4

/-- The detail of rule R201, ERRINFO[15:8]. -/
def CmdError.detail : CmdError → Nat
  | .opcode => 1
  | .cmdrsv => 2
  | .bsize => 3
  | .level => 4
  | .stride => 5
  | .align => 6
  | .range => 7
  | .qm => 8
  | .wzero => 1
  | .hzero => 2
  | .toobig => 3
  | .busRead => 1
  | .busWrite => 2
  | .empty => 1
  | .overflow => 2

/-- ERRINFO as a word, rule R201: `(DETAIL << 8) or CLASS`. -/
def CmdError.info (x : CmdError) : Word := (BitVec.ofNat 32 x.detail <<< 8) ||| BitVec.ofNat 32 x.cls

/-- The error entry of rule R206, the one way in which any command fails: `addr` is the refused address of a BusFault, 0 otherwise. -/
def Engine.raise (e : Engine) (x : CmdError) (addr : Word) : Engine :=
  { e with
    status := { e.status with busy := false, err := true }
    errinfo := x.info
    faddr := addr
    curop := 0#8
    accf := false
    creq := false }

/-- Rule R207: there is no return instruction; the acceptance of the next command clears DONE, ERR, CANC, ERRINFO and FADDR (R158). -/
def Engine.clearOutcome (e : Engine) : Engine :=
  { e with status := e.status.clearOutcome, errinfo := 0#32, faddr := 0#32 }

/-- Rule R207: the host acknowledges outcomes by writing 1 to their STATUS bits; ERRINFO stays (R15). -/
def Engine.acknowledge (e : Engine) (v : Word) : Engine := { e with status := e.status.w1c v }

/-- Rule R209: a dropped write sets REJ and changes nothing else. -/
def Engine.reject (e : Engine) : Engine := { e with status := { e.status with rej := true } }

/-- The success of an immediate command: DONE (rule R158). -/
def Engine.finish (e : Engine) : Engine := { e with status := { e.status with done := true } }

/-! ### Acceptance -/

/-- What the execution of an accepted command does to its engine: an error, or the new engine state and the regions that a long command owns from now on. -/
abbrev Body := Engine → Except CmdError (Engine × List Region)

/-- Rules R156 to R158 for every command but ABORT and SRST: rejected while busy; otherwise the outcome bits, ERRINFO and FADDR are cleared, then the command is executed, and an error takes the error entry. -/
def State.accept (s : State) (body : Body) : State :=
  if s.eng.status.busy then s.setEng s.eng.reject
  else
    match body s.eng.clearOutcome with
    | .ok (e, rs) => (s.setEng e).claim rs
    | .error x => s.setEng (s.eng.clearOutcome.raise x 0#32)

/-- An immediate command that cannot fail. -/
def Body.immediate (f : Engine → Engine) : Body := fun e => .ok ((f e).finish, [])

end Sys2Proof.Machine
end

