-- ==== Sys2Proof/Machine/Operands.lean ====
section
/-! DEFINITION. The operands of the commands, all taken by name from the parameter registers and the quantization store (rules R33, R65): the views of the registers as numbers, addresses, block geometry, and the checks at acceptance. -/

namespace Sys2Proof.Machine

/-- `ceil(a/b)` of rule R6. -/
def ceilDiv (a b : Nat) : Nat := (a + b - 1) / b

/-- Entry QM[i][j] of the store, rule R28. -/
def Store.entry (q : Store) (i j : Nat) : Step := ((q[i]?).bind (fun row => row[j]?)).getD 0#16

/-- The store with `v` at QM[i][j]. -/
def Store.put (q : Store) (i j : Fin 32) (v : Step) : Store :=
  q.set i.val ((q[i.val]'i.isLt).set j.val v j.isLt) i.isLt

/-- The block size N, rule R18. -/
def Engine.n (e : Engine) : Nat := e.bsize.toNat

/-- nbx of rule R116: blocks in a row of blocks. -/
def Engine.nbx (e : Engine) : Nat := ceilDiv e.width.toNat e.n

/-- nby of rule R116: rows of blocks. -/
def Engine.nby (e : Engine) : Nat := ceilDiv e.height.toNat e.n

/-- The scale numerator S of rule R85. -/
def Engine.scale (e : Engine) : Int := 110 - (e.level.toNat : Int)

/-- QM[u][v] as the integer m of rule R28. -/
def Engine.qmAt (e : Engine) (u v : Nat) : Int := ((e.qm.entry u v).toNat : Int)

/-- The address of sample (y, x) of the source plane, rule R52. -/
def Engine.srcAddr (e : Engine) (y x : Nat) : Nat := e.srcBase.toNat + y * e.srcStride.toNat + x

/-- The address of sample (y, x) of the reconstructed plane, rule R52. -/
def Engine.dstAddr (e : Engine) (y x : Nat) : Nat := e.dstBase.toNat + y * e.dstStride.toNat + x

/-- The address of entry (u, v) of block `k` of the archive, rules R53 and R124. -/
def Engine.arcAddr (e : Engine) (k u v : Nat) : Nat :=
  e.arcBase.toNat + k * 2 * e.n * e.n + 2 * (u * e.n + v)

/-- The length of the archive in bytes, rule R124. -/
def Engine.arcBytes (e : Engine) : Nat := e.nby * e.nbx * 2 * e.n * e.n

/-- The rectangle of a block, rule R117: top-left origin and clipped extent. -/
structure Geometry where
  y0 : Nat
  x0 : Nat
  h : Nat
  w : Nat
  deriving DecidableEq, Repr

/-- The geometry of unit `k`, rule R117. -/
def Engine.geometry (e : Engine) (k : Nat) : Geometry :=
  { y0 := k / e.nbx * e.n
    x0 := k % e.nbx * e.n
    h := min e.n (e.height.toNat - k / e.nbx * e.n)
    w := min e.n (e.width.toNat - k % e.nbx * e.n) }

/-! ### The checks of rule R203. Each answers the error it finds. -/

/-- Check 3. -/
def Engine.checkBsize (e : Engine) : Option CmdError :=
  if Config.blockSizes.contains e.n then none else some .bsize

/-- Check 4. -/
def Engine.checkLevel (e : Engine) : Option CmdError :=
  if e.level.toNat < Config.levelMin ∨ Config.levelMax < e.level.toNat then some .level else none

/-- Checks 5, 6 and 7. -/
def Engine.checkDims (e : Engine) : Option CmdError :=
  if e.width.toNat = 0 then some .wzero
  else if e.height.toNat = 0 then some .hzero
  else if Config.maxDim < e.width.toNat ∨ Config.maxDim < e.height.toNat then some .toobig
  else none

/-- Check 8. -/
def Engine.checkStrides (e : Engine) : Option CmdError :=
  if e.srcStride.toNat < e.width.toNat ∨ e.dstStride.toNat < e.width.toNat then some .stride else none

/-- Check 9. -/
def Engine.checkAlign (e : Engine) : Option CmdError :=
  if e.arcBase.toNat % 2 = 1 then some .align else none

/-- Checks 10 and 11, on unbounded integers. -/
def Engine.checkPlanes (e : Engine) : Option CmdError :=
  if Config.addressSpace < e.srcBase.toNat + (e.height.toNat - 1) * e.srcStride.toNat + e.width.toNat then
    some .range
  else if Config.addressSpace < e.dstBase.toNat + (e.height.toNat - 1) * e.dstStride.toNat + e.width.toNat then
    some .range
  else none

/-- Check 12, on unbounded integers. -/
def Engine.checkArchive (e : Engine) : Option CmdError :=
  if Config.addressSpace < e.arcBase.toNat + e.arcBytes then some .range else none

/-- Rule R82: every entry of the N x N corner is valid. -/
def Engine.cornerValid (e : Engine) : Bool :=
  (List.range e.n).all fun i => (List.range e.n).all fun j =>
    decide (Config.qmMin ≤ (e.qm.entry i j).toNat)

/-- Check 13. -/
def Engine.checkQm (e : Engine) : Option CmdError := if e.cornerValid then none else some .qm

/-- Rule R203 for PROC: the first failing check of 3 to 13. -/
def Engine.checkProc (e : Engine) : Option CmdError :=
  e.checkBsize <|> e.checkLevel <|> e.checkDims <|> e.checkStrides <|> e.checkAlign
    <|> e.checkPlanes <|> e.checkArchive <|> e.checkQm

/-- Rule R203 for MACC: the first failing check of 5, 6, 7, 8, 10, 11. -/
def Engine.checkMacc (e : Engine) : Option CmdError :=
  e.checkDims <|> e.checkStrides <|> e.checkPlanes

/-- Rules R203 and R143 for MFIN. -/
def Engine.checkMfin (e : Engine) : Option CmdError :=
  e.checkLevel <|>
    (if e.cnt = 0#64 then some .empty else if e.status.movf then some .overflow else none)

/-! ### The regions of a long command, rule R58 -/

/-- The source plane, which a command reads. -/
def Engine.srcRegion (e : Engine) : Region :=
  { base := e.srcBase.toNat, stride := e.srcStride.toNat, width := e.width.toNat, height := e.height.toNat, written := false }

/-- The reconstructed plane: PROC writes it, MACC reads it. -/
def Engine.dstRegion (e : Engine) (written : Bool) : Region :=
  { base := e.dstBase.toNat, stride := e.dstStride.toNat, width := e.width.toNat, height := e.height.toNat, written := written }

/-- The archive, which PROC writes. -/
def Engine.arcRegion (e : Engine) : Region :=
  { base := e.arcBase.toNat, stride := e.arcBytes, width := e.arcBytes, height := 1, written := true }

end Sys2Proof.Machine
end

