-- ==== Sys2Proof/Machine/Codec.lean ====
section
/-! DEFINITION. The block codec: the command PROC (rules R115, R116), its block step (R118) and its place in the engine. -/

namespace Sys2Proof.Machine

/-! ### The six steps of rule R118 as functions of a block's samples, its matrix and S alone (rule R121) -/

/-- Steps 1 and 2: the samples, read row by row, shifted. -/
def shiftedBlock (h w : Nat) (bytes : List Byte) : Block :=
  tabulate h w fun r c => shiftDown (bytes.getD (r * w + c) 0#8)

/-- Step 4: the quantized coefficients of the coefficients `Y`. -/
def quantBlock (h w : Nat) (m : Nat → Nat → Int) (S : Int) (Y : Block) : Block :=
  tabulate h w fun u v => quant (Y.entry u v) (m u v) S

/-- Step 5: dequantized. -/
def deqBlock (h w : Nat) (m : Nat → Nat → Int) (S : Int) (q : Block) : Block :=
  tabulate h w fun u v => deq (q.entry u v) (m u v) S

/-- Steps 1 to 4: what the archive keeps of a block. -/
def codeBlock (h w : Nat) (m : Nat → Nat → Int) (S : Int) (bytes : List Byte) : Block :=
  quantBlock h w m S (fdct2 h w (shiftedBlock h w bytes))

/-- Steps 5 and 6: the reconstructed samples of quantized coefficients. -/
def decodeBlock (h w : Nat) (m : Nat → Nat → Int) (S : Int) (q : Block) : Block :=
  let Z := idct2 h w (deqBlock h w m S q)
  tabulate h w fun r c => reconstruct (Z.entry r c)

/-- Steps 1 to 6: what comes back of a block. -/
def roundTrip (h w : Nat) (m : Nat → Nat → Int) (S : Int) (bytes : List Byte) : Block :=
  decodeBlock h w m S (codeBlock h w m S bytes)

/-- The property of rule R110 for one block, with tolerance `d`: every sample comes back within `d` of the original. R110 has `d` = 1 hold for most blocks and fail for vector V7, so it may be tested on a block and is assumed of none. -/
def roundTripWithin (d : Nat) (h w : Nat) (m : Nat → Nat → Int) (S : Int) (bytes : List Byte) : Bool :=
  (List.range h).all fun r => (List.range w).all fun c =>
    decide (((roundTrip h w m S bytes).entry r c - ((bytes.getD (r * w + c) 0#8).toNat : Int)).natAbs ≤ d)

/-- A reconstructed sample as a byte. -/
def sampleByte (p : Int) : Byte := BitVec.ofInt 8 p

/-! ### The accesses of a block step, rule R56 -/

/-- (1) The sample reads of unit `k`. -/
def Engine.blockReads (e : Engine) (k : Nat) : List Nat :=
  let g := e.geometry k
  (List.range g.h).flatMap fun r => (List.range g.w).map fun c => e.srcAddr (g.y0 + r) (g.x0 + c)

/-- The archive entry (u, v) of a block, rule R124: the quantized coefficient, 0 outside the clipped extent. -/
def slotEntry (h w : Nat) (q : Block) (u v : Nat) : Int := if u < h ∧ v < w then q.entry u v else 0

/-- (2) The archive writes of unit `k`. -/
def Engine.slotWrites (e : Engine) (k : Nat) (q : Block) : List (Nat × List Byte) :=
  let g := e.geometry k
  (List.range e.n).flatMap fun u => (List.range e.n).map fun v =>
    (e.arcAddr k u v, bytesLE (int16 (slotEntry g.h g.w q u v)))

/-- (3) The sample writes of unit `k`. -/
def Engine.sampleWrites (e : Engine) (k : Nat) (p : Block) : List (Nat × List Byte) :=
  let g := e.geometry k
  (List.range g.h).flatMap fun r => (List.range g.w).map fun c =>
    (e.dstAddr (g.y0 + r) (g.x0 + c), [sampleByte (p.entry r c)])

/-- The squared error of a block, rules R118 and R147. -/
def blockError (h w : Nat) (bytes : List Byte) (p : Block) : Nat :=
  ((List.range h).flatMap fun r => (List.range w).map fun c =>
    sqDiff (bytes.getD (r * w + c) 0#8) (sampleByte (p.entry r c))).sum

/-- A unit is counted: `UDONE <- k + 1`. -/
def Engine.countUnit (e : Engine) : Engine := { e with udone := BitVec.ofNat 32 (e.udone.toNat + 1) }

/-- The end of a block step: the secondary accumulator if ACCF, then UDONE (rule R118). -/
def Engine.endBlock (e : Engine) (bytes : List Byte) (p : Block) : Engine :=
  let g := e.geometry e.udone.toNat
  if e.accf then (e.accumulate (blockError g.h g.w bytes p) (g.h * g.w)).countUnit else e.countUnit

/-- The PROC block step of rule R118 for unit UDONE. A refused access ends it through the error entry (rule R57). -/
def procBlock (s : State) : Host.Outcome State Fault Refusal :=
  let e := s.eng
  let k := e.udone.toNat
  let g := e.geometry k
  let t := { s with tick := s.tick + 1 }
  match s.readAll 0 (e.blockReads k) with
  | .outside a => .fault (.outsideMemorySpace a)
  | .refused a => .next (t.setEng (e.raise .busRead (BitVec.ofNat 32 a)))
  | .ok bytes =>
    let q := codeBlock g.h g.w e.qmAt e.scale bytes
    let p := decodeBlock g.h g.w e.qmAt e.scale q
    match t.writeAll (e.slotWrites k q ++ e.sampleWrites k p) with
    | .outside a => .fault (.outsideMemorySpace a)
    | .refused u a => .next (u.setEng (e.raise .busWrite (BitVec.ofNat 32 a)))
    | .ok u => .next (u.setEng (e.endBlock bytes p))

/-- The acceptance of PROC, rule R116. -/
def procBody (acc : Bool) : Body := fun e =>
  match e.checkProc with
  | some x => .error x
  | none => .ok
    ({ e with
        utotal := BitVec.ofNat 32 (e.nbx * e.nby)
        udone := 0#32
        curop := 0x01#8
        accf := acc
        creq := false
        status := { e.status with busy := true, mvalid := e.status.mvalid && !acc } },
      [e.srcRegion, e.dstRegion true, e.arcRegion])

/-- PROC (rules R115, R116): the host step that issues it. Its blocks are the engine steps `procBlock`. -/
def execProc (acc : Bool) (s : State) : Host.Outcome State Fault Refusal := .next (s.accept (procBody acc))

end Sys2Proof.Machine
end

