-- ==== Sys2Proof/Machine/Metrics.lean ====
section
/-! DEFINITION. The metrics unit: the commands MACC, MCLR and MFIN (rules R139 to R145) and the row step of MACC. -/

namespace Sys2Proof.Machine

/-- The reads of row `y`, rules R140 and R56: for each column the source byte, then the reconstructed byte. -/
def Engine.rowReads (e : Engine) (y : Nat) : List Nat :=
  (List.range e.width.toNat).flatMap fun x => [e.srcAddr y x, e.dstAddr y x]

/-- The sum of the squared differences of the pairs read by `rowReads`. -/
def pairError : List Byte → Nat
  | a :: b :: rest => sqDiff a b + pairError rest
  | _ => 0

/-- The MACC row step of rule R140 for row UDONE. A refused read discards the row (rule R57). -/
def maccRow (s : State) : Host.Outcome State Fault Refusal :=
  let e := s.eng
  let t := { s with tick := s.tick + 1 }
  match s.readAll 0 (e.rowReads e.udone.toNat) with
  | .outside a => .fault (.outsideMemorySpace a)
  | .refused a => .next (t.setEng (e.raise .busRead (BitVec.ofNat 32 a)))
  | .ok bytes => .next (t.setEng ((e.accumulate (pairError bytes) e.width.toNat).countUnit))

/-- The acceptance of MACC, rule R139. -/
def maccBody : Body := fun e =>
  match e.checkMacc with
  | some x => .error x
  | none => .ok
    ({ e with
        utotal := e.height
        udone := 0#32
        curop := 0x02#8
        accf := false
        creq := false
        status := { e.status with busy := true, mvalid := false } },
      [e.srcRegion, e.dstRegion false])

/-- MACC (rule R139): the host step that issues it. Its rows are the engine steps `maccRow`. -/
def execMacc (s : State) : Host.Outcome State Fault Refusal := .next (s.accept maccBody)

/-- The effect of MCLR, rule R142. -/
def Engine.clearMetrics (e : Engine) : Engine :=
  { e with sse := 0#64, cnt := 0#64, status := { e.status with movf := false, mvalid := false } }

/-- MCLR (rule R142). -/
def execMclr (s : State) : Host.Outcome State Fault Refusal :=
  .next (s.accept (Body.immediate Engine.clearMetrics))

/-- The PSNR register after MFIN, rules R143, R144 and R26: INF with PSNRQ = 0xFFFF for SSE = 0. -/
def Engine.psnrResult (e : Engine) : Word :=
  if e.sse = 0#64 then 0x0001FFFF#32 else BitVec.ofNat 32 (psnrq e.sse.toNat e.cnt.toNat)

/-- The execution of MFIN, rule R143. -/
def mfinBody : Body := fun e =>
  match e.checkMfin with
  | some x => .error x
  | none => .ok
    (Engine.finish { e with
        psnr := e.psnrResult
        ratio := BitVec.ofNat 32 (ratioq e.level.toNat)
        status := { e.status with mvalid := true } },
      [])

/-- MFIN (rule R143). -/
def execMfin (s : State) : Host.Outcome State Fault Refusal := .next (s.accept mfinBody)

end Sys2Proof.Machine
end

