-- ==== Sys2Proof/Machine/Control.lean ====
section
/-! DEFINITION. The control commands NOP, ABORT, SRST (rules R163 to R165), invalid words (R67, R156), and the engine steps with their dispatch (R160, R161, R126, R140). -/

namespace Sys2Proof.Machine

/-- NOP (rule R163). -/
def execNop (s : State) : Host.Outcome State Fault Refusal := .next (s.accept (Body.immediate id))

/-- ABORT (rule R164): while busy a cancellation is requested; while idle nothing changes at all. -/
def execAbort (s : State) : Host.Outcome State Fault Refusal :=
  if s.eng.status.busy then .next (s.setEng { s.eng with creq := true }) else .next s

/-- The reset of the engine in focus, rules R165, R230, R231. Memory is not touched. -/
def State.resetEngine (s : State) : State := s.setEng Engine.reset

/-- SRST (rule R165), in every state. -/
def execSrst (s : State) : Host.Outcome State Fault Refusal := .next s.resetEngine

/-- The command error of a word that is no command, rules R67 and R201. -/
def DecodeError.cmdError : DecodeError → CmdError
  | .opcode => .opcode
  | .reserved => .cmdrsv

/-- A word that is no command, issued (rules R67, R156): rejected while busy, otherwise accepted and failed. -/
def State.acceptInvalid (s : State) (d : DecodeError) : State :=
  s.accept (fun _ => .error (DecodeError.cmdError d))

/-- The cancellation step, rule R161. -/
def Engine.cancel (e : Engine) : Engine :=
  { e with
    status := { e.status with busy := false, canc := true }
    creq := false
    curop := 0#8
    accf := false }

/-- The completion step, rules R126 and R140. -/
def Engine.complete (e : Engine) : Engine :=
  { e with
    status := { e.status with busy := false, done := true }
    curop := 0#8
    accf := false }

/-- One engine step of the engine in focus, by the first matching line of rule R160. An idle engine has no step: nothing changes (log entry 1). -/
def engineStep (s : State) : Host.Outcome State Fault Refusal :=
  if !s.eng.status.busy then .next s
  else if s.eng.creq then .next (s.setEng s.eng.cancel)
  else if s.eng.udone = s.eng.utotal then .next (s.setEng s.eng.complete)
  else if s.eng.curop = 0x01#8 then procBlock s
  else maccRow s

end Sys2Proof.Machine
end

