-- ==== Sys2Proof/Machine/Dispatch.lean ====
section
/-! DEFINITION. The dispatch of the seven commands to their meanings (rule R156), one arm each. -/

namespace Sys2Proof.Machine

/-- What issuing a command does (rules R156 to R165). -/
def exec (i : Instr) (s : State) : Host.Outcome State Fault Refusal :=
  match i with
  | .nop => Sys2Proof.Machine.execNop s
  | .proc acc => Sys2Proof.Machine.execProc acc s
  | .macc => Sys2Proof.Machine.execMacc s
  | .mclr => Sys2Proof.Machine.execMclr s
  | .mfin => Sys2Proof.Machine.execMfin s
  | .abort => Sys2Proof.Machine.execAbort s
  | .srst => Sys2Proof.Machine.execSrst s

end Sys2Proof.Machine
end

