-- ==== Sys2Proof/Machine/Port.lean ====
section
/-! DEFINITION. The register port (rules R46 to R50): reads, writes, and the issue of a command word. -/

namespace Sys2Proof.Machine

/-- What the host reads, rules R11 to R28 and R46. -/
def Engine.regRead (e : Engine) : Reg → Word
  | .id => Config.idValue
  | .cmd => 0#32
  | .status => e.status.word
  | .errinfo => e.errinfo
  | .faddr => e.faddr
  | .ien => e.ien
  | .bsize => e.bsize
  | .level => e.level
  | .width => e.width
  | .height => e.height
  | .srcBase => e.srcBase
  | .srcStride => e.srcStride
  | .dstBase => e.dstBase
  | .dstStride => e.dstStride
  | .arcBase => e.arcBase
  | .udone => e.udone
  | .utotal => e.utotal
  | .sseLo => e.sse.extractLsb' 0 32
  | .sseHi => e.sse.extractLsb' 32 32
  | .cntLo => e.cnt.extractLsb' 0 32
  | .cntHi => e.cnt.extractLsb' 32 32
  | .psnr => e.psnr
  | .ratio => e.ratio
  | .qm i j => (e.qm.entry i.val j.val).zeroExtend 32
  | .reserved => 0#32

/-- Rules R47 and R49: a write to a parameter register or to QM takes effect while idle and is rejected while busy. -/
def Engine.whenIdle (e : Engine) (e' : Engine) : Engine := if e.status.busy then e.reject else e'

/-- What a host write to a register other than CMD does, rules R47 and R49. CMD has no storage (R13); `issue` is what a write to it does. -/
def Engine.regWrite (e : Engine) (r : Reg) (v : Word) : Engine :=
  match r with
  | .id => e
  | .cmd => e
  | .status => e.acknowledge v
  | .errinfo => e
  | .faddr => e
  | .ien => { e with ien := v &&& irqMask }
  | .bsize => e.whenIdle { e with bsize := v }
  | .level => e.whenIdle { e with level := v }
  | .width => e.whenIdle { e with width := v }
  | .height => e.whenIdle { e with height := v }
  | .srcBase => e.whenIdle { e with srcBase := v }
  | .srcStride => e.whenIdle { e with srcStride := v }
  | .dstBase => e.whenIdle { e with dstBase := v }
  | .dstStride => e.whenIdle { e with dstStride := v }
  | .arcBase => e.whenIdle { e with arcBase := v }
  | .udone => e
  | .utotal => e
  | .sseLo => e
  | .sseHi => e
  | .cntLo => e
  | .cntHi => e
  | .psnr => e
  | .ratio => e
  | .qm i j => e.whenIdle { e with qm := e.qm.put i j (v.extractLsb' 0 16) }
  | .reserved => e

/-- Rule R156: a word is written to CMD of the engine in focus. -/
def issue (w : Word) (s : State) : Host.Outcome State Fault Refusal :=
  match decode w with
  | .ok i => exec i s
  | .error d => .next (s.acceptInvalid d)

/-- A legal write step of the host, rule R47. -/
def hostWrite (r : Reg) (v : Word) (s : State) : Host.Outcome State Fault Refusal :=
  if r = .cmd then issue v s else .next (s.setEng (s.eng.regWrite r v))

/-- A legal read step of the host, rule R46: no state of the engine changes. A read of STATUS that returns BUSY = 0 ends the ownership of rule R58. -/
def hostRead (r : Reg) (s : State) : State :=
  let t := { s with rdata := s.eng.regRead r }
  if r = .status ∧ s.eng.status.busy = false then t.release s.idx else t

/-- A register access of the host at the engine in focus; rule R48: an illegal one is refused. -/
def hostAccess (a : HostAccess) (s : State) : Host.Outcome State Fault Refusal :=
  match a with
  | .read bits off =>
    match (if bits = 32 then regOf off else none) with
    | some r => .next (hostRead r s)
    | none => .refused (.registerAccess bits off)
  | .write bits off v =>
    match (if bits = 32 then regOf off else none) with
    | some r => hostWrite r v s
    | none => .refused (.registerAccess bits off)

end Sys2Proof.Machine
end

