-- ==== Sys2Proof/Machine/Agents.lean ====
section
/-! DEFINITION. The steps of the agents (rules R9, R247): events are taken in their order, and with none pending a busy engine runs (R246). -/

namespace Sys2Proof.Machine

/-- A step of engine `k`: the platform with `k` in focus does `f`. -/
def State.withEngine (s : State) (k : Nat) (f : State → Host.Outcome State Fault Refusal) :
    Host.Outcome State Fault Refusal :=
  match s.focus k with
  | some t => f t
  | none => .refused (.noSuchEngine k)

/-- The host reads a byte of the memory space. -/
def hostLoad (a : Nat) (s : State) : Host.Outcome State Fault Refusal :=
  if inSpace a then .next { s with rdata := (s.fetch none 0 a).zeroExtend 32, tick := s.tick + 1 }
  else .fault (.outsideMemorySpace a)

/-- The host writes a byte of the memory space. -/
def hostStore (a : Nat) (b : Byte) (s : State) : Host.Outcome State Fault Refusal :=
  if inSpace a then .next (s.store none a b) else .fault (.outsideMemorySpace a)

/-- One event of the interleaving. -/
def runEvent (ev : Event) (s : State) : Host.Outcome State Fault Refusal :=
  match ev with
  | .host k a => s.withEngine k (hostAccess a)
  | .memRead a => hostLoad a s
  | .memWrite a b => hostStore a b s
  | .engine k => s.withEngine k engineStep
  | .reset k => s.withEngine k (fun t => .next t.resetEngine)

/-- With no event pending a busy engine takes its step (rule R246); if none is busy nothing changes (R160: idle, not stuck). -/
def runIdle (s : State) : Host.Outcome State Fault Refusal :=
  match s.busyEngine with
  | some k => s.withEngine k engineStep
  | none => .next s

/-- The next pending event, or `runIdle`. -/
def runNext (s : State) : Host.Outcome State Fault Refusal :=
  match s.inputs with
  | [] => runIdle s
  | ev :: rest => runEvent ev { s with inputs := rest }

/-- The host writes `w` to CMD of the engine in focus, as the very next event (log entry 2). -/
def State.placeCommand (s : State) (w : Word) : State :=
  { s with inputs := .host s.idx (.write 32 Reg.cmd.offset w) :: s.inputs }

end Sys2Proof.Machine
end

