-- ==== Sys2Proof/Machine/Step.lean ====
section
/-! DEFINITION. One step of the machine, and the place where its next command is written. -/

namespace Sys2Proof.Machine

/-- One step of the system of rule R247. -/
def step (s : State) : Host.Outcome State Fault Refusal := runNext s

/-- `s` with the command word `w` (`nbits` bits, the bits above being 0) as the host's very next write to CMD of the engine in focus. -/
def State.withFetchWord (s : State) (nbits w : Nat) : State :=
  s.placeCommand (BitVec.ofNat 32 (w % 2 ^ nbits))

end Sys2Proof.Machine
end

