-- ==== Sys2Proof/Machine/Script.lean ====
section
/-! DEFINITION. The host-script lines of rule R72 and the pseudo-operations of rule R73, as events at engine `k`. -/

namespace Sys2Proof.Machine

/-- `WR REG, v`. -/
def scriptWr (k : Nat) (r : Reg) (v : Nat) : Event := .host k (.write 32 r.offset (BitVec.ofNat 32 v))

/-- `RD REG`. -/
def scriptRd (k : Nat) (r : Reg) : Event := .host k (.read 32 r.offset)

/-- `STEP`. -/
def scriptStep (k : Nat) : Event := .engine k

/-- `CMD` with the word of the command. -/
def scriptCmd (k : Nat) (i : Instr) : Event := .host k (.write 32 Reg.cmd.offset (encode i))

/-- `POLL` of a trace: `n` engine steps, then one `RD STATUS`. -/
def scriptPoll (k n : Nat) : List Event := List.replicate n (scriptStep k) ++ [scriptRd k .status]

/-- `QMLOAD n, M`, row by row. -/
def scriptQmload (k n : Nat) (M : Nat → Nat → Nat) : List Event :=
  (List.range n).flatMap fun i => (List.range n).map fun j =>
    scriptWr k (.qm (Fin.ofNat 32 i) (Fin.ofNat 32 j)) (M i j)

/-- `QMFILL n, m`. -/
def scriptQmfill (k n m : Nat) : List Event := scriptQmload k n fun _ _ => m

/-- `SETPLANE w, h, sb, ss, db, ds`. -/
def scriptSetplane (k w h sb ss db ds : Nat) : List Event :=
  [scriptWr k .width w, scriptWr k .height h, scriptWr k .srcBase sb, scriptWr k .srcStride ss,
    scriptWr k .dstBase db, scriptWr k .dstStride ds]

/-- `CLRSTAT`. -/
def scriptClrstat (k : Nat) : Event := scriptWr k .status 0x1E

end Sys2Proof.Machine
end

