-- ==== Sys2Proof/Machine/HostSide.lean ====
section
/-! DEFINITION. The host software around the block (40_quant_matrix.md section 3, 45_host_collaborators.md), which the scope file leaves out of the hardware: what it loads and in which order it issues the commands. No step of the machine calls anything here. -/

namespace Sys2Proof.Machine

/-- The policies of the matrix builder, rules R89 to R92. -/
inductive Policy where
  | standard
  | uniform
  | customRadial
  deriving DecidableEq, Repr

/-- The colour models of rule R178. -/
inductive ColorModel where
  | rgb
  | grayscale
  | ycbcr
  deriving DecidableEq, Repr

/-- A pixel of a colour image, or a triple of plane samples. -/
abbrev Triple := Byte × Byte × Byte

/-- A pixel of an image with C = 1 or C = 3 channels, rule R175. -/
inductive Pixel where
  | mono (y : Byte)
  | colour (px : Triple)
  deriving DecidableEq, Repr

/-- The open parameters of the host software (decision D41): arguments, with no value fixed here. -/
structure HostParams where
  /-- STD8, rule R89. -/
  std8 : Nat → Nat → Nat
  /-- BASE4, rule R90. -/
  base4 : Nat → Nat → Rat
  /-- RESAMPLE, rule R90. -/
  resample : (Nat → Nat → Rat) → Nat → Nat → Nat → Rat
  /-- LUMA, rule R181. -/
  luma : Triple → Byte
  /-- GRAYMERGE, rule R181, which leaves open whether the merged pixel has one channel or three equal ones; this function may answer either (log entry 18). -/
  grayMerge : Byte → Pixel
  /-- YCC_FWD, rule R182. -/
  yccFwd : Triple → Triple
  /-- YCC_INV, rule R182. -/
  yccInv : Triple → Triple

/-- The table printed in rule R89, the default of STD8. -/
def std8Default (i j : Nat) : Nat :=
  (([[16, 11, 10, 16, 24, 40, 51, 61],
     [12, 12, 14, 19, 26, 58, 60, 55],
     [14, 13, 16, 24, 40, 57, 69, 56],
     [14, 17, 22, 29, 51, 87, 80, 62],
     [18, 22, 37, 56, 68, 109, 103, 77],
     [24, 35, 55, 64, 81, 104, 113, 92],
     [49, 64, 78, 87, 103, 121, 120, 101],
     [72, 92, 95, 98, 112, 100, 103, 99]] : List (List Nat)).getD i []).getD j 0

/-- The conversion of a rational entry to UQ8.8, rule R84. -/
def toUq88 (r : Rat) : Nat := (clamp (roundDiv (256 * r.num) r.den) 0x0100 0xFFFF).toNat

/-- The clamp of rule R90 to [1, 255]. -/
def clampEntry (r : Rat) : Rat := if r < 1 then 1 else if 255 < r then 255 else r

/-- Policy CustomRadial after rule R84: ROUND(256 * (1 + 50*sqrt(i^2+j^2)/(size*sqrt(2)))) is 256 plus the largest t with t = 0 or (2t-1)^2 * 2*size^2 <= 4*12800^2*(i^2+j^2). -/
def radialUq88 (size i j : Nat) : Nat :=
  256 + bitSearch
    (fun t => decide ((2 * t - 1) ^ 2 * (2 * size ^ 2) ≤ 4 * 12800 ^ 2 * (i ^ 2 + j ^ 2))) 14 0

/-- The UQ8.8 integer that the host loads into QM[i][j], rules R84 and R89 to R92. -/
def buildEntry (P : HostParams) (p : Policy) (size i j : Nat) : Nat :=
  match p with
  | .standard => if size = 8 then toUq88 (P.std8 i j) else toUq88 (clampEntry (P.resample P.base4 size i j))
  | .uniform => 0x0100
  | .customRadial => radialUq88 size i j

/-- planes(model), rule R178. -/
def ColorModel.planes : ColorModel → Nat
  | .rgb => 3
  | .grayscale => 1
  | .ycbcr => 3

/-- The plane samples of one pixel, rules R179, R181, R182. -/
def splitPixel (P : HostParams) (m : ColorModel) (px : Triple) : List Byte :=
  match m with
  | .rgb => [px.1, px.2.1, px.2.2]
  | .grayscale => [P.luma px]
  | .ycbcr => [(P.yccFwd px).1, (P.yccFwd px).2.1, (P.yccFwd px).2.2]

/-- The pixel of its plane samples; `none` is the DimensionMismatch of rule R184. -/
def mergePixel (P : HostParams) (m : ColorModel) (samples : List Byte) : Option Pixel :=
  match m, samples with
  | .rgb, [a, b, c] => some (.colour (a, b, c))
  | .grayscale, [y] => some (P.grayMerge y)
  | .ycbcr, [a, b, c] => some (.colour (P.yccInv (a, b, c)))
  | _, _ => none

/-- The parameters of a run, rule R183. -/
structure RunParams where
  levelPercent : Nat
  blockSize : Nat
  colorModel : ColorModel
  quantPolicy : Policy
  deriving DecidableEq, Repr

/-- Where one plane of a run lies, rule R180. -/
structure PlaneSet where
  srcBase : Nat
  srcStride : Nat
  dstBase : Nat
  dstStride : Nat
  arcBase : Nat
  deriving DecidableEq, Repr

/-- Step 1 of rule R183: the validation of the parameters and of the image's size. -/
def runValid (p : RunParams) (w h : Nat) : Bool :=
  decide (1 ≤ p.levelPercent) && decide (p.levelPercent ≤ 100) && Config.blockSizes.contains p.blockSize
    && decide (1 ≤ w) && decide (w ≤ Config.maxDim) && decide (1 ≤ h) && decide (h ≤ Config.maxDim)

/-- Steps 4 and 5 of rule R183 at engine `k`. -/
def runSetup (P : HostParams) (k : Nat) (p : RunParams) (w h : Nat) : List Event :=
  scriptQmload k p.blockSize (buildEntry P p.quantPolicy p.blockSize) ++
    [scriptWr k .bsize p.blockSize, scriptWr k .level p.levelPercent, scriptWr k .width w, scriptWr k .height h]

/-- Step 6 of rule R183 for one plane: the five address registers, PROC, and the wait for its end. -/
def runPlane (k : Nat) (p : RunParams) (w h : Nat) (pl : PlaneSet) : List Event :=
  [scriptWr k .srcBase pl.srcBase, scriptWr k .srcStride pl.srcStride, scriptWr k .dstBase pl.dstBase,
    scriptWr k .dstStride pl.dstStride, scriptWr k .arcBase pl.arcBase, scriptCmd k (.proc false)] ++
    scriptPoll k (((h + p.blockSize - 1) / p.blockSize) * ((w + p.blockSize - 1) / p.blockSize) + 1)

/-- Step 8 of rule R183: MCLR, MACC for each pair of planes, MFIN, and the reads of the results. -/
def runMetrics (k w h : Nat) (pairs : List PlaneSet) : List Event :=
  scriptCmd k .mclr ::
    (pairs.flatMap fun pl =>
      scriptSetplane k w h pl.srcBase pl.srcStride pl.dstBase pl.dstStride ++ [scriptCmd k .macc] ++
        scriptPoll k (h + 1)) ++
    [scriptCmd k .mfin, scriptRd k .psnr, scriptRd k .ratio]

/-- The PSNR of rule R177 in units of 1/256 dB; `none` is +infinity. -/
def hostPsnr (psnr : Word) : Option Nat := if psnr.getLsbD 16 then none else some (psnr.extractLsb' 0 16).toNat

/-- The compression ratio of rule R177. -/
def hostRatio (ratio : Word) : Rat := (ratio.toNat : Rat) / 65536

/-- The bytes that the host sees of the archive entry at `a`, read back as an integer (rules R124, R51). -/
def archiveValue (lo hi : Byte) : Int := (hi ++ lo : BitVec 16).toInt

end Sys2Proof.Machine
end

