-- ==== Sys2Proof/Safety.lean ====
section
/-! DEFINITION. What a good state is (the invariants of rule R35 and what follows from acceptance), what a legal command is, and what a run of engine steps is, in the terms in which claims are stated. -/

namespace Sys2Proof.Machine

/-! ### Legal operands, rule R203 spelled out -/

/-- Dimensions, strides and plane ranges as checks 5 to 8, 10 and 11 want them. -/
abbrev Engine.planesLegal (e : Engine) : Prop :=
  (1 ≤ e.width.toNat ∧ e.width.toNat ≤ 65535) ∧ (1 ≤ e.height.toNat ∧ e.height.toNat ≤ 65535) ∧
  e.width.toNat ≤ e.srcStride.toNat ∧ e.width.toNat ≤ e.dstStride.toNat ∧
  e.srcBase.toNat + (e.height.toNat - 1) * e.srcStride.toNat + e.width.toNat ≤ 2 ^ 32 ∧
  e.dstBase.toNat + (e.height.toNat - 1) * e.dstStride.toNat + e.width.toNat ≤ 2 ^ 32

/-- LEVEL as check 4 wants it. -/
abbrev Engine.levelLegal (e : Engine) : Prop := 1 ≤ e.level.toNat ∧ e.level.toNat ≤ 100

/-- All the checks 3 to 13 of PROC pass. -/
abbrev Engine.procLegal (e : Engine) : Prop :=
  (e.n = 4 ∨ e.n = 8 ∨ e.n = 16 ∨ e.n = 32) ∧ e.levelLegal ∧ e.planesLegal ∧
  e.arcBase.toNat % 2 = 0 ∧ e.arcBase.toNat + e.arcBytes ≤ 2 ^ 32 ∧
  ∀ i < e.n, ∀ j < e.n, 0x0100 ≤ (e.qm.entry i j).toNat

/-! ### Invariants of one engine -/

/-- R35 (a): at most one outcome bit, and none while busy. -/
abbrev Engine.invOutcome (e : Engine) : Prop :=
  (e.status.busy = true → e.status.done = false ∧ e.status.err = false ∧ e.status.canc = false) ∧
  (e.status.done = true → e.status.err = false ∧ e.status.canc = false) ∧
  (e.status.err = true → e.status.canc = false)

/-- R35 (b) and R29: what the hidden state says of BUSY. -/
abbrev Engine.invBusy (e : Engine) : Prop :=
  (e.status.busy = true ↔ e.curop = 0x01#8 ∨ e.curop = 0x02#8) ∧
  (e.status.busy = false → e.curop = 0x00#8) ∧
  (e.creq = true → e.status.busy = true) ∧ (e.accf = true → e.curop = 0x01#8)

/-- R35 (c). -/
abbrev Engine.invUnits (e : Engine) : Prop := e.udone.toNat ≤ e.utotal.toNat

/-- R35 (d). -/
abbrev Engine.invSums (e : Engine) : Prop := e.status.movf = false → e.sse.toNat ≤ 65025 * e.cnt.toNat

/-- R35 (e), R15 and R158: ERR comes with ERRINFO, and a command in flight has none. -/
abbrev Engine.invError (e : Engine) : Prop :=
  (e.status.err = true → e.errinfo ≠ 0#32) ∧ (e.status.busy = true → e.errinfo = 0#32 ∧ e.faddr = 0#32)

/-- The bits that read 0: ERRINFO 31:16 (R15), IEN but 4:1 (R17), PSNR 31:17 (R26). -/
abbrev Engine.invReserved (e : Engine) : Prop :=
  e.errinfo.toNat < 2 ^ 16 ∧ e.ien &&& ~~~irqMask = 0#32 ∧ e.psnr.toNat < 2 ^ 17

/-- R29, R64: while a command is in flight its operands are still as they were accepted, and UTOTAL is its number of units. -/
abbrev Engine.invCommand (e : Engine) : Prop :=
  (e.curop = 0x01#8 → e.procLegal ∧ e.utotal.toNat = e.nbx * e.nby) ∧
  (e.curop = 0x02#8 → e.planesLegal ∧ e.utotal = e.height)

/-- All of them. -/
structure Engine.Inv (e : Engine) : Prop where
  outcome : e.invOutcome
  busy : e.invBusy
  units : e.invUnits
  sums : e.invSums
  error : e.invError
  reserved : e.invReserved
  command : e.invCommand

/-- The invariant of the platform: every engine's, and memory in its canonical form. -/
structure State.Inv (s : State) : Prop where
  engines : ∀ e ∈ s.engines, e.Inv
  memory : s.mem.wf

/-! ### What frames speak of -/

/-- The two states agree on the nine parameter registers and QM. -/
abbrev Engine.sameOperands (e e' : Engine) : Prop :=
  e'.bsize = e.bsize ∧ e'.level = e.level ∧ e'.width = e.width ∧ e'.height = e.height ∧
  e'.srcBase = e.srcBase ∧ e'.srcStride = e.srcStride ∧ e'.dstBase = e.dstBase ∧ e'.dstStride = e.dstStride ∧
  e'.arcBase = e.arcBase ∧ e'.qm = e.qm

/-- The two states agree on the results and accumulators: SSE, CNT, PSNR, RATIO. -/
abbrev Engine.sameMetrics (e e' : Engine) : Prop :=
  e'.sse = e.sse ∧ e'.cnt = e.cnt ∧ e'.psnr = e.psnr ∧ e'.ratio = e.ratio

/-- Every byte of memory reads as before. -/
abbrev sameMemory (s t : State) : Prop := ∀ a : Nat, t.mem.read a = s.mem.read a

/-- The two states agree on everything around the engine in focus but memory and its races. -/
abbrev sameSurroundings (s t : State) : Prop :=
  t.before = s.before ∧ t.after = s.after ∧ t.denied = s.denied ∧ t.inputs = s.inputs ∧ t.rdata = s.rdata

/-! ### Runs -/

/-- The state of an outcome, where there is one. -/
def nextState : Host.Outcome State Fault Refusal → Option State
  | .next s => some s
  | .fault _ => none
  | .refused _ => none

/-- `n` engine steps of the engine in focus. -/
def engineRun : Nat → State → Host.Outcome State Fault Refusal
  | 0, s => .next s
  | n + 1, s =>
    match engineStep s with
    | .next t => engineRun n t
    | .fault r => .fault r
    | .refused r => .refused r

/-- No duty of rules R58 and R214 is broken for the command of the engine in focus: no race is pending, and its accesses are in order with every other agent's. -/
abbrev State.noRace (s : State) : Prop := s.raced = [] ∧ ∀ r ∈ s.rivals, r.engine ≠ s.idx

/-- No command of another engine is outstanding, so that a command of the engine in focus runs alone (rule R214). -/
abbrev State.alone (s : State) : Prop := (∀ c ∈ s.owned, c.engine = s.idx) ∧ ∀ r ∈ s.rivals, r.engine = s.idx

/-- The platform refuses nothing (MemOK = true), and there is no race. -/
abbrev State.quiet (s : State) : Prop := s.denied = [] ∧ s.noRace

/-- The samples of unit `k`, read from memory `m` in the order of rule R56. -/
def Engine.blockBytes (e : Engine) (m : Memory) (k : Nat) : List Byte := (e.blockReads k).map m.read

/-- The squared error of row `y` of the two planes in memory `m`. -/
def Engine.rowError (e : Engine) (m : Memory) (y : Nat) : Nat := pairError ((e.rowReads y).map m.read)

/-- q of rule R118 for unit `k`, of the samples in memory `m`: the A of rule R128. -/
def Engine.coded (e : Engine) (m : Memory) (k : Nat) : Block :=
  codeBlock (e.geometry k).h (e.geometry k).w e.qmAt e.scale (e.blockBytes m k)

/-- p of rule R118 for unit `k`, of the samples in memory `m`: the R of rule R128. -/
def Engine.decoded (e : Engine) (m : Memory) (k : Nat) : Block :=
  decodeBlock (e.geometry k).h (e.geometry k).w e.qmAt e.scale (e.coded m k)

/-- Byte `a` is a sample of unit `k` in the reconstructed plane (rule R117). -/
abbrev Engine.inRect (e : Engine) (k a : Nat) : Prop :=
  ∃ r < (e.geometry k).h, ∃ c < (e.geometry k).w,
    a = e.dstAddr ((e.geometry k).y0 + r) ((e.geometry k).x0 + c)

/-- Byte `a` is in slot `k` of the archive (rule R124). -/
abbrev Engine.inSlot (e : Engine) (k a : Nat) : Prop :=
  e.arcAddr k 0 0 ≤ a ∧ a < e.arcAddr k 0 0 + 2 * e.n * e.n

/-- Byte `a` is a sample of the plane with this base and stride and the registers' WIDTH and HEIGHT (rule R52). -/
abbrev Engine.inPlane (e : Engine) (base stride : Word) (a : Nat) : Prop :=
  ∃ y < e.height.toNat, ∃ x < e.width.toNat, a = base.toNat + y * stride.toNat + x

/-- Byte `a` is in the archive (rule R124). -/
abbrev Engine.inArchive (e : Engine) (a : Nat) : Prop :=
  e.arcBase.toNat ≤ a ∧ a < e.arcBase.toNat + e.arcBytes

/-- The host duty of rule R60 in its first form: source plane, reconstructed plane and archive are pairwise disjoint. -/
abbrev Engine.regionsDisjoint (e : Engine) : Prop :=
  ∀ a : Nat,
    ¬ (e.inPlane e.srcBase e.srcStride a ∧ e.inPlane e.dstBase e.dstStride a) ∧
    ¬ (e.inPlane e.srcBase e.srcStride a ∧ e.inArchive a) ∧
    ¬ (e.inPlane e.dstBase e.dstStride a ∧ e.inArchive a)

/-- The host duty of rule R60 in its second form: the reconstructed plane is the source plane, and the archive is disjoint from it. -/
abbrev Engine.inPlace (e : Engine) : Prop :=
  e.dstBase = e.srcBase ∧ e.dstStride = e.srcStride ∧
  ∀ a : Nat, ¬ (e.inPlane e.srcBase e.srcStride a ∧ e.inArchive a)

/-- The engine may read byte `a`: it exists and MemOK is true (rule R57). -/
abbrev State.mayRead (s : State) (a : Nat) : Prop := inSpace a = true ∧ s.memOK a .read = true

/-- The engine may make this write access: all its bytes exist and MemOK is true for each. -/
abbrev State.mayWrite (s : State) (w : Nat × List Byte) : Prop :=
  ∀ i < w.2.length, inSpace (w.1 + i) = true ∧ s.memOK (w.1 + i) .write = true

/-- A byte that some write of the list stores to. -/
abbrev writtenBy (ws : List (Nat × List Byte)) (a : Nat) : Prop :=
  ∃ w ∈ ws, w.1 ≤ a ∧ a < w.1 + w.2.length

end Sys2Proof.Machine
end

