-- ==== Sys2Proof/Certificates/Slice0/Obligations.lean ====
section
/-! DEFINITION. The statements for the provers, from the numbered rules of the spec. -/

open Sys2Proof Sys2Proof.Machine

/-! ### Encoding -/

/-- R66, R67 (derived): every command decodes from the word it encodes to, with either value of ACC, and from no other word. -/
def Obligations.DecodeExactlyTheEncodedWords : Prop :=
  ∀ (w : Word) (i : Instr), decode w = .ok i ↔ w = encode i

/-- R67, R206 (derived: that the failure of an idle engine also writes 0 to CUROP, ACCF and CREQ is R206's entry as log entry 19 reads it): the order of decoding every 32-bit word: the exact words SRST and ABORT, then the unknown opcodes, then the reserved bits, then the command of the opcode with ACC = w[8]; and an invalid word fails at once when the engine is idle (outcome bits, ERRINFO and FADDR, and by log entry 19 the hidden state) and sets REJ when it is busy. -/
def Obligations.WordDecodingOrder : Prop :=
  ∀ w : Word,
    decode w =
      (if w = 0x00000006#32 then .ok .srst
       else if w = 0x00000005#32 then .ok .abort
       else if 6 < w.toNat % 256 then .error .opcode
       else if w.toNat / 512 ≠ 0 ∨ (w.toNat / 256 % 2 = 1 ∧ w.toNat % 256 ≠ 1) then .error .reserved
       else if w.toNat % 256 = 0 then .ok .nop
       else if w.toNat % 256 = 1 then .ok (.proc (decide (w.toNat / 256 % 2 = 1)))
       else if w.toNat % 256 = 2 then .ok .macc
       else if w.toNat % 256 = 3 then .ok .mclr
       else .ok .mfin) ∧
    ∀ (s : State) (d : DecodeError), decode w = .error d →
      (s.eng.status.busy = false →
        issue w s = .next { s with eng := { s.eng with
          status := { s.eng.status with done := false, err := true, canc := false }
          errinfo := (match d with | .opcode => 0x0101#32 | .reserved => 0x0201#32)
          faddr := 0#32, curop := 0#8, accf := false, creq := false } }) ∧
      (s.eng.status.busy = true →
        issue w s = .next { s with eng := { s.eng with status := { s.eng.status with rej := true } } })

/-- R66 (derived), sanity: the words of the opcode table and two of the invalid words of vector V12. -/
def Obligations.OpcodeTableWordsDecode : Prop :=
  decode 0x00000000#32 = .ok .nop ∧ decode 0x00000001#32 = .ok (.proc false) ∧
  decode 0x00000101#32 = .ok (.proc true) ∧ decode 0x00000002#32 = .ok .macc ∧
  decode 0x00000003#32 = .ok .mclr ∧ decode 0x00000004#32 = .ok .mfin ∧
  decode 0x00000005#32 = .ok .abort ∧ decode 0x00000006#32 = .ok .srst ∧
  decode 0x00000107#32 = .error .opcode ∧ decode 0x00000106#32 = .error .reserved

/-- R11, R28 (derived): every register is found at its offset, which for the named ones is the number that R11's table prints; every aligned offset of the 8 KiB holds a register, and no other offset does. -/
def Obligations.RegisterMapIsExact : Prop :=
  (∀ r : Reg, regOf r.offset = some r) ∧
  (∀ p ∈ ([(0x000, .id), (0x004, .cmd), (0x008, .status), (0x00C, .errinfo), (0x010, .faddr), (0x014, .ien),
      (0x018, .bsize), (0x01C, .level), (0x020, .width), (0x024, .height), (0x028, .srcBase), (0x02C, .srcStride),
      (0x030, .dstBase), (0x034, .dstStride), (0x038, .arcBase), (0x03C, .reserved), (0x040, .udone), (0x044, .utotal),
      (0x048, .sseLo), (0x04C, .sseHi), (0x050, .cntLo), (0x054, .cntHi), (0x058, .psnr), (0x05C, .ratio)] : List (Nat × Reg)),
    regOf p.1 = some p.2 ∧ p.2.offset = p.1) ∧
  (∀ i j : Fin 32, regOf (0x1000 + 4 * (32 * i.val + j.val)) = some (.qm i j)) ∧
  (∀ off : Nat, (regOf off).isSome = true ↔ off % 4 = 0 ∧ off ≤ 0x1FFC) ∧
  (∀ off : Nat, off % 4 = 0 → 0x060 ≤ off → off ≤ 0xFFC → regOf off = some .reserved)

/-! ### A step runs the issued command -/

/-- R156 (derived): when the host's next write goes to CMD of engine `k` and its word is a command, the step is that command's meaning, at the platform with engine `k` in focus and the event taken from the inputs. -/
def Obligations.StepRunsTheDecodedCommand : Prop :=
  ∀ (s t : State) (k : Nat) (w : Word) (i : Instr) (rest : List Event),
    s.inputs = .host k (.write 32 0x004 w) :: rest →
    ({ s with inputs := rest } : State).focus k = some t →
    decode w = .ok i → step s = exec i t

/-- R157, the whole rule: while BUSY = 1 the word ABORT sets CREQ, SRST resets, and every other word sets REJ, each and nothing else. -/
def Obligations.WordsWhileBusy : Prop :=
  ∀ (s : State) (w : Word), s.eng.status.busy = true →
    issue w s =
      (if w = 0x00000005#32 then .next { s with eng := { s.eng with creq := true } }
       else if w = 0x00000006#32 then .next { s with eng := Engine.reset }
       else .next { s with eng := { s.eng with status := { s.eng.status with rej := true } } })

/-! ### The commands -/

/-- R163, the whole rule. -/
def Obligations.NopSetsDone : Prop :=
  encode .nop = 0x00000000#32 ∧
  ∀ s : State,
    (s.eng.status.busy = false →
      exec .nop s = .next { s with eng := { s.eng with
        status := { s.eng.status with done := true, err := false, canc := false }
        errinfo := 0#32, faddr := 0#32 } }) ∧
    (s.eng.status.busy = true →
      exec .nop s = .next { s with eng := { s.eng with status := { s.eng.status with rej := true } } })

/-- R164, the whole rule: while busy CREQ is set and the engine's next step is the cancellation step; a second ABORT changes nothing; while idle nothing changes at all. -/
def Obligations.AbortRequestsCancellation : Prop :=
  encode .abort = 0x00000005#32 ∧ (∀ w : Word, decode w = .ok .abort ↔ w = 0x00000005#32) ∧
  ∀ s : State,
    (s.eng.status.busy = true →
      exec .abort s = .next { s with eng := { s.eng with creq := true } } ∧
      engineStep { s with eng := { s.eng with creq := true } } =
        .next { s with eng := { s.eng with
          status := { s.eng.status with busy := false, canc := true }
          creq := false, curop := 0#8, accf := false } } ∧
      (s.eng.creq = true → exec .abort s = .next s)) ∧
    (s.eng.status.busy = false → exec .abort s = .next s)

/-- R165, the whole rule: in every state SRST, the exact word only, gives the engine its reset state (every register but ID 0, all of QM 0, CUROP = ACCF = CREQ = 0), and memory is not touched. -/
def Obligations.SrstResetsInEveryState : Prop :=
  encode .srst = 0x00000006#32 ∧ (∀ w : Word, decode w = .ok .srst ↔ w = 0x00000006#32) ∧
  (∀ s : State, exec .srst s = .next { s with eng := Engine.reset } ∧ issue 0x00000006#32 s = exec .srst s) ∧
  (∀ r : Reg, r ≠ .id → Engine.reset.regRead r = 0#32) ∧ (∀ i j : Nat, Engine.reset.qm.entry i j = 0#16) ∧
  Engine.reset.status = ⟨false, false, false, false, false, false, false⟩ ∧
  Engine.reset.curop = 0#8 ∧ Engine.reset.accf = false ∧ Engine.reset.creq = false

/-- R32 and R231 (derived: the memory part of these rules is log entry 4's): after reset ID reads 0x4B524C01, every other register reads 0, CUROP, ACCF, CREQ and irq are 0; and the platform's reset input does what SRST does. -/
def Obligations.ResetValues : Prop :=
  State.reset.eng = Engine.reset ∧
  Engine.reset.regRead .id = 0x4B524C01#32 ∧
  (∀ r : Reg, r ≠ .id → Engine.reset.regRead r = 0#32) ∧
  Engine.reset.curop = 0#8 ∧ Engine.reset.accf = false ∧ Engine.reset.creq = false ∧
  Engine.reset.irq = false ∧
  ∀ s : State, runEvent (.reset s.idx) s = exec .srst s

/-- R142, the whole rule. -/
def Obligations.MclrClearsTheSums : Prop :=
  encode .mclr = 0x00000003#32 ∧
  ∀ s : State, s.eng.status.busy = false →
    exec .mclr s = .next { s with eng := { s.eng with
      status := { s.eng.status with done := true, err := false, canc := false, movf := false, mvalid := false }
      errinfo := 0#32, faddr := 0#32, sse := 0#64, cnt := 0#64 } }

/-- R143, R206 (derived: that a failure also writes 0 to CUROP, ACCF and CREQ is R206's entry as log entry 19 reads it): the three errors in their order, the results of a success, and that a second MFIN gives the same state. -/
def Obligations.MfinResultsAndErrors : Prop :=
  encode .mfin = 0x00000004#32 ∧
  ∀ s : State, s.eng.status.busy = false →
    let failed : Word → State := fun info => { s with eng := { s.eng with
      status := { s.eng.status with done := false, err := true, canc := false }
      errinfo := info, faddr := 0#32, curop := 0#8, accf := false, creq := false } }
    let t : State := { s with eng := { s.eng with
      status := { s.eng.status with done := true, err := false, canc := false, mvalid := true }
      errinfo := 0#32, faddr := 0#32
      psnr := if s.eng.sse = 0#64 then 0x0001FFFF#32
        else BitVec.ofNat 32 (psnrq s.eng.sse.toNat s.eng.cnt.toNat)
      ratio := BitVec.ofNat 32 (6553600 / (200 - s.eng.level.toNat)) } }
    (¬ s.eng.levelLegal → exec .mfin s = .next (failed 0x0401#32)) ∧
    (s.eng.levelLegal → s.eng.cnt = 0#64 → exec .mfin s = .next (failed 0x0104#32)) ∧
    (s.eng.levelLegal → s.eng.cnt ≠ 0#64 → s.eng.status.movf = true →
      exec .mfin s = .next (failed 0x0204#32)) ∧
    (s.eng.levelLegal → s.eng.cnt ≠ 0#64 → s.eng.status.movf = false →
      exec .mfin s = .next t ∧ exec .mfin t = .next t)

/-- R144 (derived: the integer characterisation): for SSE above 65025 * CNT PSNRQ is 0; otherwise it is the largest k in 0..65535 with 10^k * SSE^2560 <= (65025 * CNT)^2560. -/
def Obligations.PsnrIsTheLargestExponent : Prop :=
  ∀ sse cnt : Nat, 0 < sse →
    (65025 * cnt < sse → psnrq sse cnt = 0) ∧
    (sse ≤ 65025 * cnt →
      10 ^ psnrq sse cnt * sse ^ 2560 ≤ (65025 * cnt) ^ 2560 ∧ psnrq sse cnt ≤ 65535 ∧
      ∀ k ≤ 65535, 10 ^ k * sse ^ 2560 ≤ (65025 * cnt) ^ 2560 → k ≤ psnrq sse cnt)

/-- R144 (derived): PSNRQ is the floor of 2560 times the decimal logarithm, in the real numbers, clipped to 0..65535, and has the two values that the rule prints. -/
def Obligations.PsnrIsTheFloorOfTheLogarithm : Prop :=
  (∀ n : Nat, 0 < n → psnrq n n = 12321 ∧ psnrq (65025 * n) n = 0) ∧
  ∀ sse cnt : Nat, 0 < sse → 0 < cnt →
    (psnrq sse cnt : Int) =
      min 65535 (max 0 ⌊2560 * Real.logb 10 (65025 * (cnt : ℝ) / (sse : ℝ))⌋)

/-- R145, the whole rule: the ratio register's value is the floor of 6553600 / (200 - LEVEL), that is 100 / (200 - LEVEL) in UQ16.16, truncated; it is strictly increasing in LEVEL, and has the values the rule prints. -/
def Obligations.RatioIncreasesWithLevel : Prop :=
  (∀ l m : Nat, 1 ≤ l → l < m → m ≤ 100 → ratioq l < ratioq m) ∧
  (∀ l : Nat, 1 ≤ l → l ≤ 100 → ratioq l = 6553600 / (200 - l) ∧
    (ratioq l : Int) = ⌊(100 : ℚ) / (200 - (l : ℚ)) * 65536⌋ ∧ ratioq l ≤ 0x10000) ∧
  ratioq 100 = 0x10000 ∧ ratioq 1 = 0x80A4 ∧ ratioq 10 = 34492 ∧ ratioq 90 = 59578

/-- R116 (derived; the ownership of the regions is R58's and the model's, log entry 8; that the command is in no order with other engines' outstanding commands is R63's and R214's, log entry 20; that its engine's earlier rivals are dropped is the model's choice, log entry 21): an idle engine with legal operands accepts PROC, which then owns its three regions (log entry 8) and is in no order with the outstanding commands of other engines, nor they with it (log entry 20), while what its engine's earlier command was in no order with is dropped (log entry 21). -/
def Obligations.ProcIsAccepted : Prop :=
  ∀ (s : State) (acc : Bool), s.eng.status.busy = false → s.eng.procLegal →
    ∃ t : State, exec (.proc acc) s = .next t ∧
      t.eng = { s.eng with
        status := { s.eng.status with
          busy := true, done := false, err := false, canc := false
          mvalid := if acc then false else s.eng.status.mvalid }
        errinfo := 0#32, faddr := 0#32
        utotal := BitVec.ofNat 32 (s.eng.nbx * s.eng.nby), udone := 0#32
        curop := 0x01#8, accf := acc, creq := false } ∧
      t.eng.utotal.toNat = s.eng.nbx * s.eng.nby ∧
      t.mem = s.mem ∧ sameSurroundings s t ∧ t.raced = s.raced ∧ t.past = s.past ∧ t.tick = s.tick ∧
      t.owned = s.owned ++ [⟨s.idx, s.eng.srcRegion⟩, ⟨s.idx, s.eng.dstRegion true⟩, ⟨s.idx, s.eng.arcRegion⟩] ∧
      ∀ r : Rival, r ∈ t.rivals ↔ r ∈ s.rivals ∧ r.engine ≠ s.idx ∨
        ∃ c ∈ s.owned, c.engine ≠ s.idx ∧ (r = ⟨s.idx, some c.engine, c.region⟩ ∨
          ∃ g ∈ [s.eng.srcRegion, s.eng.dstRegion true, s.eng.arcRegion], r = ⟨c.engine, some s.idx, g⟩)

/-- R139 (derived; the ownership of the regions is R58's and the model's, log entry 8; that the command is in no order with other engines' outstanding commands is R63's and R214's, log entry 20; that its engine's earlier rivals are dropped is the model's choice, log entry 21): an idle engine with legal planes accepts MACC, whatever BSIZE, LEVEL, ARC_BASE and QM hold; it then owns its two regions (log entry 8) and is in no order with the outstanding commands of other engines, nor they with it (log entry 20), while what its engine's earlier command was in no order with is dropped (log entry 21). -/
def Obligations.MaccIsAccepted : Prop :=
  encode .macc = 0x00000002#32 ∧
  ∀ s : State, s.eng.status.busy = false → s.eng.planesLegal →
    ∃ t : State, exec .macc s = .next t ∧
      t.eng = { s.eng with
        status := { s.eng.status with busy := true, done := false, err := false, canc := false, mvalid := false }
        errinfo := 0#32, faddr := 0#32, utotal := s.eng.height, udone := 0#32
        curop := 0x02#8, accf := false, creq := false } ∧
      t.mem = s.mem ∧ sameSurroundings s t ∧ t.raced = s.raced ∧ t.past = s.past ∧ t.tick = s.tick ∧
      t.owned = s.owned ++ [⟨s.idx, s.eng.srcRegion⟩, ⟨s.idx, s.eng.dstRegion false⟩] ∧
      ∀ r : Rival, r ∈ t.rivals ↔ r ∈ s.rivals ∧ r.engine ≠ s.idx ∨
        ∃ c ∈ s.owned, c.engine ≠ s.idx ∧ (r = ⟨s.idx, some c.engine, c.region⟩ ∨
          ∃ g ∈ [s.eng.srcRegion, s.eng.dstRegion false], r = ⟨c.engine, some s.idx, g⟩)

/-- R203, R206 (derived: their part for PROC; the clearing of the hidden state is log entry 19's reading of R206): the first failing check of 3 to 13 is the error (its entry also clears the hidden state, log entry 19), and with none the command is accepted. -/
def Obligations.ProcChecksInOrder : Prop :=
  ∀ (s : State) (acc : Bool), s.eng.status.busy = false →
    let e := s.eng
    let first : Option Word :=
      if ¬ (e.n = 4 ∨ e.n = 8 ∨ e.n = 16 ∨ e.n = 32) then some 0x0301#32
      else if e.level.toNat < 1 ∨ 100 < e.level.toNat then some 0x0401#32
      else if e.width.toNat = 0 then some 0x0102#32
      else if e.height.toNat = 0 then some 0x0202#32
      else if 65535 < e.width.toNat ∨ 65535 < e.height.toNat then some 0x0302#32
      else if e.srcStride.toNat < e.width.toNat ∨ e.dstStride.toNat < e.width.toNat then some 0x0501#32
      else if e.arcBase.toNat % 2 = 1 then some 0x0601#32
      else if 2 ^ 32 < e.srcBase.toNat + (e.height.toNat - 1) * e.srcStride.toNat + e.width.toNat then some 0x0701#32
      else if 2 ^ 32 < e.dstBase.toNat + (e.height.toNat - 1) * e.dstStride.toNat + e.width.toNat then some 0x0701#32
      else if 2 ^ 32 < e.arcBase.toNat + ceilDiv e.height.toNat e.n * ceilDiv e.width.toNat e.n * 2 * e.n * e.n then
        some 0x0701#32
      else if ¬ ∀ i < e.n, ∀ j < e.n, 0x0100 ≤ (e.qm.entry i j).toNat then some 0x0801#32
      else none
    (∀ info : Word, first = some info →
      exec (.proc acc) s = .next { s with eng := { s.eng with
        status := { s.eng.status with done := false, err := true, canc := false }
        errinfo := info, faddr := 0#32, curop := 0#8, accf := false, creq := false } }) ∧
    (first = none → ∃ t : State, exec (.proc acc) s = .next t ∧ t.eng.status.busy = true)

/-- R203, R206 (derived: their part for MACC; the clearing of the hidden state is log entry 19's reading of R206): the first failing check of 5, 6, 7, 8, 10, 11, and no other check, is the error (its entry also clears the hidden state, log entry 19), and with none the command is accepted. -/
def Obligations.MaccChecksInOrder : Prop :=
  ∀ s : State, s.eng.status.busy = false →
    let e := s.eng
    let first : Option Word :=
      if e.width.toNat = 0 then some 0x0102#32
      else if e.height.toNat = 0 then some 0x0202#32
      else if 65535 < e.width.toNat ∨ 65535 < e.height.toNat then some 0x0302#32
      else if e.srcStride.toNat < e.width.toNat ∨ e.dstStride.toNat < e.width.toNat then some 0x0501#32
      else if 2 ^ 32 < e.srcBase.toNat + (e.height.toNat - 1) * e.srcStride.toNat + e.width.toNat then some 0x0701#32
      else if 2 ^ 32 < e.dstBase.toNat + (e.height.toNat - 1) * e.dstStride.toNat + e.width.toNat then some 0x0701#32
      else none
    (∀ info : Word, first = some info →
      exec .macc s = .next { s with eng := { s.eng with
        status := { s.eng.status with done := false, err := true, canc := false }
        errinfo := info, faddr := 0#32, curop := 0#8, accf := false, creq := false } }) ∧
    (first = none → ∃ t : State, exec .macc s = .next t ∧ t.eng.status.busy = true)

/-- R201 (derived: its ERRINFO column) and R206's entry: the words of the fifteen errors, and what the entry writes for each. -/
def Obligations.ErrorEntryWritesErrinfo : Prop :=
  ([CmdError.opcode, .cmdrsv, .bsize, .level, .stride, .align, .range, .qm, .wzero, .hzero, .toobig,
      .busRead, .busWrite, .empty, .overflow].map CmdError.info =
    [0x0101#32, 0x0201#32, 0x0301#32, 0x0401#32, 0x0501#32, 0x0601#32, 0x0701#32, 0x0801#32, 0x0102#32,
      0x0202#32, 0x0302#32, 0x0103#32, 0x0203#32, 0x0104#32, 0x0204#32]) ∧
  ∀ (e : Engine) (x : CmdError) (a : Word), e.raise x a =
    { e with
      status := { e.status with busy := false, err := true }
      errinfo := BitVec.ofNat 32 (256 * x.detail + x.cls), faddr := a
      curop := 0#8, accf := false, creq := false }

/-- R45, R127, R149, R203 (derived): what issuing any command leaves alone: every byte of memory, every other engine and the platform; the parameter registers, QM and IEN but by SRST; SSE, CNT and MOVF but by MCLR and SRST; PSNR and RATIO but by MFIN and SRST; MVALID by NOP and ABORT; UDONE, UTOTAL and BUSY but by PROC, MACC and SRST; REJ while idle but by SRST. -/
def Obligations.CommandFrame : Prop :=
  ∀ (i : Instr) (s t : State), exec i s = .next t →
    sameMemory s t ∧ sameSurroundings s t ∧
    (i ≠ .srst → s.eng.sameOperands t.eng ∧ t.eng.ien = s.eng.ien) ∧
    (i ≠ .srst → i ≠ .mclr → t.eng.sse = s.eng.sse ∧ t.eng.cnt = s.eng.cnt ∧ t.eng.status.movf = s.eng.status.movf) ∧
    (i ≠ .srst → i ≠ .mfin → t.eng.psnr = s.eng.psnr ∧ t.eng.ratio = s.eng.ratio) ∧
    (i = .nop ∨ i = .abort → t.eng.status.mvalid = s.eng.status.mvalid) ∧
    (i ≠ .srst → i ≠ .macc → (∀ acc, i ≠ .proc acc) →
      t.eng.udone = s.eng.udone ∧ t.eng.utotal = s.eng.utotal ∧ t.eng.status.busy = s.eng.status.busy) ∧
    (s.eng.status.busy = false → i ≠ .srst → t.eng.status.rej = s.eng.status.rej)

/-- R158, R203 (derived): an accepted command ends with exactly one outcome bit, or is a long command in flight with none; one that failed has changed nothing but the outcome bits, ERRINFO, FADDR and the hidden state. -/
def Obligations.OneOutcomePerAcceptedCommand : Prop :=
  ∀ (i : Instr) (s t : State), s.eng.status.busy = false → i ≠ .abort → i ≠ .srst → exec i s = .next t →
    (t.eng.status.busy = true ∧ t.eng.status.done = false ∧ t.eng.status.err = false ∧ t.eng.status.canc = false ∧
      (i = .macc ∨ ∃ acc, i = .proc acc)) ∨
    (t.eng.status.busy = false ∧ t.eng.status.done = true ∧ t.eng.status.err = false ∧ t.eng.status.canc = false ∧
      t.eng.errinfo = 0#32 ∧ t.eng.faddr = 0#32) ∨
    (t.eng.status.busy = false ∧ t.eng.status.done = false ∧ t.eng.status.err = true ∧ t.eng.status.canc = false ∧
      t.eng.errinfo ≠ 0#32 ∧ t.eng.faddr = 0#32 ∧
      s.eng.sameOperands t.eng ∧ s.eng.sameMetrics t.eng ∧ t.eng.ien = s.eng.ien ∧
      t.eng.udone = s.eng.udone ∧ t.eng.utotal = s.eng.utotal ∧ t.owned = s.owned ∧
      t.eng.status.rej = s.eng.status.rej ∧ t.eng.status.mvalid = s.eng.status.mvalid ∧
      t.eng.status.movf = s.eng.status.movf)

/-! ### Engine steps -/

/-- R161, the whole rule: the cancellation step comes before a unit step and before completion, makes no memory access, and leaves UDONE, UTOTAL, SSE and CNT as they are. -/
def Obligations.CancellationComesFirst : Prop :=
  ∀ s : State, s.eng.status.busy = true → s.eng.creq = true →
    engineStep s = .next { s with eng := { s.eng with
      status := { s.eng.status with busy := false, canc := true }
      creq := false, curop := 0#8, accf := false } }

/-- R160 (derived: its dispatch; that scheduling an idle engine is a step to the same state is the model's choice, log entry 1, where R160 gives it no step), R126 and R140's completion steps: an idle engine stays as it is (log entry 1); with every unit done it completes; else PROC does a block and MACC a row. -/
def Obligations.EngineStepDispatch : Prop :=
  ∀ s : State,
    (s.eng.status.busy = false → engineStep s = .next s) ∧
    (s.eng.status.busy = true → s.eng.creq = false → s.eng.udone = s.eng.utotal →
      engineStep s = .next { s with eng := { s.eng with
        status := { s.eng.status with busy := false, done := true }, curop := 0#8, accf := false } }) ∧
    (s.eng.status.busy = true → s.eng.creq = false → s.eng.udone ≠ s.eng.utotal → s.eng.curop = 0x01#8 →
      engineStep s = procBlock s) ∧
    (s.eng.status.busy = true → s.eng.creq = false → s.eng.udone ≠ s.eng.utotal → s.eng.curop = 0x02#8 →
      engineStep s = maccRow s)

/-- R118, R124, R105 (derived): from a good state in which no access is refused and no agent races, the block step of unit UDONE writes the reconstructed samples, writes the archive slot (where the plane does not lie over it), counts the unit, with ACCF adds the squared error and h * w (MOVF is set if a sum saturates, and no other flag changes), and leaves every other byte and register alone. -/
def Obligations.ProcBlockStepResult : Prop :=
  ∀ s : State, s.Inv → s.quiet → s.eng.status.busy = true → s.eng.creq = false → s.eng.curop = 0x01#8 →
    s.eng.udone ≠ s.eng.utotal →
    let e := s.eng
    let k := e.udone.toNat
    let g := e.geometry k
    let q := e.coded s.mem k
    let p := e.decoded s.mem k
    ∃ t : State, engineStep s = .next t ∧
      (∀ r < g.h, ∀ c < g.w,
        t.mem.read (e.dstAddr (g.y0 + r) (g.x0 + c)) = BitVec.ofInt 8 (p.entry r c)) ∧
      (∀ u < e.n, ∀ v < e.n, ∀ i < 2, ¬ e.inRect k (e.arcAddr k u v + i) →
        t.mem.read (e.arcAddr k u v + i) =
          (BitVec.ofInt 16 (if u < g.h ∧ v < g.w then q.entry u v else 0)).extractLsb' (8 * i) 8) ∧
      (∀ a : Nat, ¬ e.inRect k a → ¬ e.inSlot k a → t.mem.read a = s.mem.read a) ∧
      t.eng.udone.toNat = k + 1 ∧
      (e.accf = true →
        let d := blockError g.h g.w (e.blockBytes s.mem k) p
        t.eng = { e with
          udone := t.eng.udone, sse := satadd64 e.sse d, cnt := satadd64 e.cnt (g.h * g.w)
          status := { e.status with
            movf := e.status.movf || decide (2 ^ 64 - 1 < e.sse.toNat + d)
              || decide (2 ^ 64 - 1 < e.cnt.toNat + g.h * g.w) } }) ∧
      (e.accf = false → t.eng = { e with udone := t.eng.udone })

/-- R127 (derived): whatever a PROC block step does, a BusFault included, it writes no byte outside the slot and the rectangle of its unit, no operand register, and no result register. -/
def Obligations.ProcBlockFrame : Prop :=
  ∀ s t : State, s.eng.status.busy = true → s.eng.creq = false → s.eng.curop = 0x01#8 →
    s.eng.udone ≠ s.eng.utotal → engineStep s = .next t →
    (∀ a : Nat, ¬ s.eng.inRect s.eng.udone.toNat a → ¬ s.eng.inSlot s.eng.udone.toNat a →
      t.mem.read a = s.mem.read a) ∧
    sameSurroundings s t ∧ t.owned = s.owned ∧
    s.eng.sameOperands t.eng ∧ t.eng.ien = s.eng.ien ∧ t.eng.utotal = s.eng.utotal ∧
    t.eng.psnr = s.eng.psnr ∧ t.eng.ratio = s.eng.ratio ∧
    t.eng.status.rej = s.eng.status.rej ∧ t.eng.status.mvalid = s.eng.status.mvalid ∧
    (s.eng.accf = false → t.eng.sse = s.eng.sse ∧ t.eng.cnt = s.eng.cnt ∧ t.eng.status.movf = s.eng.status.movf)

/-- R57, R206 (derived): a refused read ends the unit at once: nothing is written, the unit is not counted, the accumulators keep their values, and FADDR is the address. For a PROC block and for a MACC row. -/
def Obligations.RefusedReadEndsTheUnit : Prop :=
  ∀ (s : State) (pre post : List Nat) (a : Nat),
    s.eng.status.busy = true → s.eng.creq = false → s.eng.udone ≠ s.eng.utotal →
    (s.eng.curop = 0x01#8 ∧ s.eng.blockReads s.eng.udone.toNat = pre ++ a :: post ∨
      s.eng.curop = 0x02#8 ∧ s.eng.rowReads s.eng.udone.toNat = pre ++ a :: post) →
    (∀ b ∈ pre, s.mayRead b) → inSpace a = true → s.memOK a .read = false →
    engineStep s = .next { s with
      tick := s.tick + 1
      eng := { s.eng with
        status := { s.eng.status with busy := false, err := true }
        errinfo := 0x0103#32, faddr := BitVec.ofNat 32 a, curop := 0#8, accf := false, creq := false } }

/-- R57, R56, R206 (derived): a refused write ends the unit at that access: the accesses before it have happened, it and the later ones have not, and FADDR is the access's own address. -/
def Obligations.RefusedWriteEndsTheUnit : Prop :=
  ∀ (s : State) (pre post : List (Nat × List Byte)) (w : Nat × List Byte),
    s.mem.wf → s.noRace → s.eng.status.busy = true → s.eng.creq = false → s.eng.udone ≠ s.eng.utotal →
    s.eng.curop = 0x01#8 → (∀ a ∈ s.eng.blockReads s.eng.udone.toNat, s.mayRead a) →
    s.eng.slotWrites s.eng.udone.toNat (s.eng.coded s.mem s.eng.udone.toNat) ++
      s.eng.sampleWrites s.eng.udone.toNat (s.eng.decoded s.mem s.eng.udone.toNat) = pre ++ w :: post →
    (∀ v ∈ pre, s.mayWrite v) → (∀ i < w.2.length, inSpace (w.1 + i) = true) →
    (∃ i < w.2.length, s.memOK (w.1 + i) .write = false) →
    ∃ t : State, engineStep s = .next t ∧
      t.eng = { s.eng with
        status := { s.eng.status with busy := false, err := true }
        errinfo := 0x0203#32, faddr := BitVec.ofNat 32 w.1, curop := 0#8, accf := false, creq := false } ∧
      (∀ a : Nat, ¬ writtenBy pre a → t.mem.read a = s.mem.read a) ∧
      (∀ (l r : List (Nat × List Byte)) (a : Nat) (bs : List Byte), pre = l ++ (a, bs) :: r →
        ∀ i < bs.length, ¬ writtenBy r (a + i) → some (t.mem.read (a + i)) = bs[i]?)

/-- R140 (derived: its row step): from a state in which no access of the row is refused and no agent races, the row's squared error and WIDTH are added, the row is counted, and no byte of memory changes. -/
def Obligations.MaccRowStepResult : Prop :=
  ∀ s : State, s.noRace → s.eng.status.busy = true → s.eng.creq = false → s.eng.curop = 0x02#8 →
    s.eng.udone ≠ s.eng.utotal →
    (∀ x < s.eng.width.toNat, s.mayRead (s.eng.srcAddr s.eng.udone.toNat x) ∧ s.mayRead (s.eng.dstAddr s.eng.udone.toNat x)) →
    let y := s.eng.udone.toNat
    let d := ((List.range s.eng.width.toNat).map fun x =>
      sqDiff (s.mem.read (s.eng.srcAddr y x)) (s.mem.read (s.eng.dstAddr y x))).sum
    engineStep s = .next { s with
      tick := s.tick + 1
      eng := { s.eng with
        sse := satadd64 s.eng.sse d
        cnt := satadd64 s.eng.cnt s.eng.width.toNat
        status := { s.eng.status with
          movf := s.eng.status.movf || decide (2 ^ 64 - 1 < s.eng.sse.toNat + d)
            || decide (2 ^ 64 - 1 < s.eng.cnt.toNat + s.eng.width.toNat) }
        udone := BitVec.ofNat 32 (y + 1) } }

/-- R138 (derived: the sum; the MOVF side is stated with the row step): the sum is exact below 2^64 and 2^64 - 1 above, and saturation is exactly the second case. -/
def Obligations.SaturatingAdd : Prop :=
  ∀ (acc : Acc) (d : Nat),
    (acc.toNat + d ≤ 2 ^ 64 - 1 → (satadd64 acc d).toNat = acc.toNat + d ∧ saturates64 acc d = false) ∧
    (2 ^ 64 - 1 < acc.toNat + d → (satadd64 acc d).toNat = 2 ^ 64 - 1 ∧ saturates64 acc d = true)

/-! ### Numerics -/

/-- R99, the whole rule: the formula of ROUND, that it is nearest with exact halves away from zero, its laws, and the values the rule prints. -/
def Obligations.RoundIsNearestHalvesAway : Prop :=
  (∀ n d : Int, 0 < d →
    roundDiv n d = n.sign * ((2 * |n| + d) / (2 * d)) ∧
    2 * |roundDiv n d * d - n| ≤ d ∧
    (2 * |roundDiv n d * d - n| = d → |n| < |roundDiv n d * d|) ∧
    roundDiv (-n) d = -roundDiv n d ∧
    (∀ t : Int, 0 < t → roundDiv (n * t) (d * t) = roundDiv n d) ∧
    (∀ k : Int, roundDiv (k * d) d = k) ∧ roundDiv 0 d = 0) ∧
  roundDiv 1 2 = 1 ∧ roundDiv (-1) 2 = -1 ∧ roundDiv 3 2 = 2 ∧ roundDiv (-3) 2 = -2 ∧ roundDiv 5 2 = 3

/-- R105, R106 (derived): the sample is the rounded value shifted up and clamped to 0..255, never wrapped; the unshifted value is what is rounded. -/
def Obligations.SamplesAreClampedNeverWrapped : Prop :=
  (∀ Z : Int,
    (roundDiv Z (5 * 2 ^ 37) + 128 < 0 → reconstruct Z = 0) ∧
    (255 < roundDiv Z (5 * 2 ^ 37) + 128 → reconstruct Z = 255) ∧
    (0 ≤ roundDiv Z (5 * 2 ^ 37) + 128 → roundDiv Z (5 * 2 ^ 37) + 128 ≤ 255 →
      reconstruct Z = roundDiv Z (5 * 2 ^ 37) + 128) ∧
    ((sampleByte (reconstruct Z)).toNat : Int) = reconstruct Z) ∧
  reconstruct (-3 * (5 * 2 ^ 36)) = 126

/-- R108, R124 (derived): for every block size, every samples, every valid store and every legal LEVEL, a quantized coefficient has magnitude at most 4095, and the archive's 16 bits hold it exactly. -/
def Obligations.QuantizedCoefficientsFitInt16 : Prop :=
  ∀ (h w : Nat) (m : Nat → Nat → Int) (S : Int) (bytes : List Byte) (u v : Nat),
    1 ≤ h → h ≤ 32 → 1 ≤ w → w ≤ 32 → u < h → v < w → 256 ≤ m u v → 10 ≤ S →
    |(codeBlock h w m S bytes).entry u v| ≤ 4095 ∧
    (int16 ((codeBlock h w m S bytes).entry u v)).toInt = (codeBlock h w m S bytes).entry u v

/-- R100 (derived): the forward transform is a pass over the columns followed by a pass over the rows, or the reverse: the order cannot be observed. -/
def Obligations.TransformPassesCommute : Prop :=
  ∀ (h w : Nat) (x : Block) (u v : Nat), u < h → v < w →
    (fdct2 h w x).entry u v =
      (sumTo w fun c => basisEntry w v c * (sumTo h fun r => basisEntry h u r * x.entry r c)) ∧
    (fdct2 h w x).entry u v =
      (sumTo h fun r => basisEntry h u r * (sumTo w fun c => basisEntry w v c * x.entry r c))

/-- R109 (a), (b), R110 (derived): a block of samples 128 gives zero coefficients and comes back exactly, at any size, store and LEVEL; a block of one sample with step size 1 comes back exactly for every sample; and the tolerance of R110 is no theorem: the block of vector V7, at step size 1, comes back within 2 of the original and not within 1, as the vector prints it. -/
def Obligations.GrayAndSingleSampleBlocksAreExact : Prop :=
  (∀ (h w : Nat) (m : Nat → Nat → Int) (S : Int) (bytes : List Byte),
    bytes.length = h * w → (∀ b ∈ bytes, b = 128#8) → ∀ r < h, ∀ c < w,
      (codeBlock h w m S bytes).entry r c = 0 ∧ (roundTrip h w m S bytes).entry r c = 128) ∧
  (∀ (m : Nat → Nat → Int) (s : Byte), m 0 0 = 256 →
    (codeBlock 1 1 m 10 [s]).entry 0 0 = (s.toNat : Int) - 128 ∧
    (roundTrip 1 1 m 10 [s]).entry 0 0 = (s.toNat : Int)) ∧
  let v7 : List Byte := ([0, 24, 61, 198, 213, 149, 66, 240, 26, 202, 49, 152, 127, 182, 27, 225,
    48, 138, 199, 167, 46, 137, 175, 119, 5, 110, 25, 255, 8, 206, 34, 42,
    32, 157, 168, 167, 237, 90, 131, 240, 83, 250, 12, 68, 177, 16, 113, 7,
    86, 110, 128, 78, 191, 158, 214, 149, 162, 189, 203, 213, 68, 242, 165, 152] : List Nat).map (BitVec.ofNat 8)
  let p := roundTrip 8 8 (fun _ _ => 256) 10 v7
  p.entry 2 1 = 140 ∧ p.entry 2 2 = 200 ∧ p.entry 6 4 = 192 ∧
  roundTripWithin 2 8 8 (fun _ _ => 256) 10 v7 = true ∧ roundTripWithin 1 8 8 (fun _ _ => 256) 10 v7 = false

/-- R109 (d) (derived): negating the shifted samples negates the quantized coefficients and the values before the clamp. -/
def Obligations.CodecCommutesWithNegation : Prop :=
  ∀ (h w : Nat) (m : Nat → Nat → Int) (S : Int) (x : Block) (u v : Nat), u < h → v < w →
    let neg : Block → Block := fun b => tabulate h w fun r c => -(b.entry r c)
    (∀ i < h, ∀ j < w, 256 ≤ m i j) → 10 ≤ S →
    let q := quantBlock h w m S (fdct2 h w x)
    let q' := quantBlock h w m S (fdct2 h w (neg x))
    q'.entry u v = -(q.entry u v) ∧
    roundDiv ((idct2 h w (deqBlock h w m S q')).entry u v) (5 * 2 ^ 37) =
      -(roundDiv ((idct2 h w (deqBlock h w m S q)).entry u v) (5 * 2 ^ 37))

/-- R121 (derived): the archive slot and the samples of a block depend only on its own samples, the h x w corner of the store, and LEVEL. -/
def Obligations.BlockDependsOnItsOwnInputs : Prop :=
  ∀ (e e' : Engine) (m m' : Memory) (k k' : Nat),
    (e'.geometry k').h = (e.geometry k).h → (e'.geometry k').w = (e.geometry k).w →
    e'.level = e.level →
    (∀ u < (e.geometry k).h, ∀ v < (e.geometry k).w, e'.qm.entry u v = e.qm.entry u v) →
    (∀ r < (e.geometry k).h, ∀ c < (e.geometry k).w,
      m'.read (e'.srcAddr ((e'.geometry k').y0 + r) ((e'.geometry k').x0 + c)) =
        m.read (e.srcAddr ((e.geometry k).y0 + r) ((e.geometry k).x0 + c))) →
    e'.coded m' k' = e.coded m k ∧ e'.decoded m' k' = e.decoded m k

/-- R117, R122 (derived): the rectangles of the UTOTAL units lie inside the plane, are at most N x N and never empty, and every sample of the plane is in exactly one of them. -/
def Obligations.BlocksTileThePlane : Prop :=
  ∀ e : Engine, 1 ≤ e.n → 1 ≤ e.width.toNat → 1 ≤ e.height.toNat →
    (∀ k < e.nbx * e.nby,
      1 ≤ (e.geometry k).h ∧ (e.geometry k).h ≤ e.n ∧ 1 ≤ (e.geometry k).w ∧ (e.geometry k).w ≤ e.n ∧
      (e.geometry k).y0 + (e.geometry k).h ≤ e.height.toNat ∧ (e.geometry k).x0 + (e.geometry k).w ≤ e.width.toNat) ∧
    ∀ y < e.height.toNat, ∀ x < e.width.toNat,
      ∃ k < e.nbx * e.nby,
        ((e.geometry k).y0 ≤ y ∧ y < (e.geometry k).y0 + (e.geometry k).h ∧
          (e.geometry k).x0 ≤ x ∧ x < (e.geometry k).x0 + (e.geometry k).w) ∧
        ∀ k' < e.nbx * e.nby,
          (e.geometry k').y0 ≤ y → y < (e.geometry k').y0 + (e.geometry k').h →
          (e.geometry k').x0 ≤ x → x < (e.geometry k').x0 + (e.geometry k').w → k' = k

/-- R94, R84, R92 (derived; the host software's side): whatever the open parameters are, every entry that a host loads for a policy and a supported size is a valid 16-bit entry (0x0100 to 0xFFFF); and a CustomRadial entry is the radial formula of R92 converted by R84. -/
def Obligations.BuilderEntriesAreValid : Prop :=
  (∀ (P : HostParams) (p : Policy) (size i j : Nat), size ∈ Config.blockSizes → i < size → j < size →
    Config.qmMin ≤ buildEntry P p size i j ∧ buildEntry P p size i j ≤ 0xFFFF) ∧
  ∀ (P : HostParams) (size i j : Nat), size ∈ Config.blockSizes → i < size → j < size →
    (buildEntry P .customRadial size i j : Int) =
      ⌊256 * (1 + 50 * Real.sqrt ((i : ℝ) ^ 2 + (j : ℝ) ^ 2) / ((size : ℝ) * Real.sqrt 2)) + 1 / 2⌋

/-! ### The register port -/

/-- R46, the whole rule: a read at any offset that is a multiple of 4 up to 0x1FFC returns that offset's register, 0 for CMD and reserved offsets, the zero-extended entry for QM, and changes no state of any engine and no byte of memory, busy or not. -/
def Obligations.ReadsHaveNoSideEffect : Prop :=
  (∀ (s : State) (off : Nat), off % 4 = 0 → off ≤ 0x1FFC → ∃ (r : Reg) (t : State),
    regOf off = some r ∧ hostAccess (.read 32 off) s = .next t ∧
    t.rdata = s.eng.regRead r ∧ t.eng = s.eng ∧ t.mem = s.mem ∧
    t.before = s.before ∧ t.after = s.after ∧ t.denied = s.denied ∧ t.inputs = s.inputs ∧
    t.raced = s.raced ∧ t.past = s.past ∧ t.tick = s.tick) ∧
  ∀ e : Engine, e.regRead .cmd = 0#32 ∧ e.regRead .reserved = 0#32 ∧ e.regRead .id = 0x4B524C01#32 ∧
    (∀ i j : Fin 32, (e.regRead (.qm i j)).toNat = (e.qm.entry i.val j.val).toNat) ∧
    e.regRead .status = e.status.word ∧ e.regRead .errinfo = e.errinfo ∧ e.regRead .faddr = e.faddr ∧
    e.regRead .ien = e.ien ∧ e.regRead .bsize = e.bsize ∧ e.regRead .level = e.level ∧
    e.regRead .width = e.width ∧ e.regRead .height = e.height ∧ e.regRead .srcBase = e.srcBase ∧
    e.regRead .srcStride = e.srcStride ∧ e.regRead .dstBase = e.dstBase ∧ e.regRead .dstStride = e.dstStride ∧
    e.regRead .arcBase = e.arcBase ∧ e.regRead .udone = e.udone ∧ e.regRead .utotal = e.utotal ∧
    e.regRead .sseHi ++ e.regRead .sseLo = e.sse ∧ e.regRead .cntHi ++ e.regRead .cntLo = e.cnt ∧
    e.regRead .psnr = e.psnr ∧ e.regRead .ratio = e.ratio

/-- R47 (derived: the parameter registers and QM), R18 to R23, R28: while idle a parameter register takes all 32 bits and QM[i][j] takes bits 15:0; what is read back is what was stored, and no other register changes. -/
def Obligations.ParameterAndStoreWritesWhileIdle : Prop :=
  ∀ (s : State) (r : Reg) (v : Word), s.eng.status.busy = false →
    (r ∈ [Reg.bsize, .level, .width, .height, .srcBase, .srcStride, .dstBase, .dstStride, .arcBase] ∨
      ∃ i j : Fin 32, r = .qm i j) →
    ∃ e : Engine, hostAccess (.write 32 r.offset v) s = .next { s with eng := e } ∧
      e.regRead r = (if ∃ i j : Fin 32, r = .qm i j then v &&& 0x0000FFFF#32 else v) ∧
      (∀ r' : Reg, r' ≠ r → e.regRead r' = s.eng.regRead r') ∧
      e.curop = s.eng.curop ∧ e.accf = s.eng.accf ∧ e.creq = s.eng.creq

/-- R49, the whole rule: while busy a write to a parameter register or to any QM offset sets REJ, and nothing else changes. -/
def Obligations.WritesWhileBusyAreRejected : Prop :=
  ∀ (s : State) (v : Word), s.eng.status.busy = true →
    (∀ r ∈ [Reg.bsize, .level, .width, .height, .srcBase, .srcStride, .dstBase, .dstStride, .arcBase],
      hostAccess (.write 32 r.offset v) s =
        .next { s with eng := { s.eng with status := { s.eng.status with rej := true } } }) ∧
    ∀ i j : Fin 32, hostAccess (.write 32 (0x1000 + 4 * (32 * i.val + j.val)) v) s =
      .next { s with eng := { s.eng with status := { s.eng.status with rej := true } } }

/-- R47 (derived: the registers that a write does not change), R11: ID, ERRINFO, FADDR, UDONE, UTOTAL, SSE, CNT, PSNR, RATIO and every reserved offset (0x03C, 0x060 to 0xFFC) ignore writes, busy or not. -/
def Obligations.ReadOnlyRegistersIgnoreWrites : Prop :=
  ∀ (s : State) (v : Word),
    (∀ r ∈ [Reg.id, .errinfo, .faddr, .udone, .utotal, .sseLo, .sseHi, .cntLo, .cntHi, .psnr, .ratio, .reserved],
      hostAccess (.write 32 r.offset v) s = .next s) ∧
    (∀ off ∈ [0x000, 0x00C, 0x010, 0x03C, 0x040, 0x044, 0x048, 0x04C, 0x050, 0x054, 0x058, 0x05C],
      hostAccess (.write 32 off v) s = .next s) ∧
    ∀ off : Nat, off % 4 = 0 → 0x060 ≤ off → off ≤ 0xFFC → hostAccess (.write 32 off v) s = .next s

/-- R14 (derived: STATUS as a word and its write-1-to-clear): a host write to STATUS clears exactly the bits among 4:1 that are 1 in the written word, busy or not; BUSY, MVALID and MOVF stay, bits 31:7 read 0, and no other register changes. -/
def Obligations.StatusWriteOneToClear : Prop :=
  ∀ (s : State) (v : Word), ∃ st : Status,
    hostAccess (.write 32 0x008 v) s = .next { s with eng := { s.eng with status := st } } ∧
    st.word = s.eng.status.word &&& ~~~(v &&& 0x0000001E#32) ∧
    st.word.getLsbD 0 = s.eng.status.busy ∧ st.word.getLsbD 5 = s.eng.status.mvalid ∧
    st.word.getLsbD 6 = s.eng.status.movf ∧ st.word.toNat < 2 ^ 7

/-- R17 (its register; derived), R210 (derived: the level; routing is the platform's): IEN stores bits 4:1 at any time and reads its other bits 0, and irq is 1 exactly when an enabled one of DONE, ERR, CANC, REJ is 1. -/
def Obligations.IrqIsTheEnabledOutcomes : Prop :=
  (∀ (s : State) (v : Word),
    hostAccess (.write 32 0x014 v) s = .next { s with eng := { s.eng with ien := v &&& 0x0000001E#32 } }) ∧
  ∀ e : Engine,
    (e.irq = true ↔ e.regRead .status &&& e.regRead .ien &&& 0x0000001E#32 ≠ 0#32) ∧
    (e.irq = true ↔
      (e.status.done = true ∧ e.ien.getLsbD 1 = true) ∨ (e.status.err = true ∧ e.ien.getLsbD 2 = true) ∨
      (e.status.canc = true ∧ e.ien.getLsbD 3 = true) ∨ (e.status.rej = true ∧ e.ien.getLsbD 4 = true))

/-- R48, the whole rule (the refusal is what it tells a model to do): an access is refused exactly when it is not an aligned 32-bit access at 0x0000 to 0x1FFC. -/
def Obligations.IllegalAccessesAreRefused : Prop :=
  ∀ (s : State) (bits off : Nat) (v : Word),
    (¬ (bits = 32 ∧ off % 4 = 0 ∧ off ≤ 0x1FFC) →
      hostAccess (.read bits off) s = .refused (.registerAccess bits off) ∧
      hostAccess (.write bits off v) s = .refused (.registerAccess bits off)) ∧
    (bits = 32 ∧ off % 4 = 0 ∧ off ≤ 0x1FFC →
      (∃ t : State, hostAccess (.read bits off) s = .next t) ∧ ∃ t : State, hostAccess (.write bits off v) s = .next t)

/-! ### Memory and races -/

/-- R58, R59, R63 (derived; the form of the free value is log entry 6's, what counts as a race log entries 7 and 20): a read returns some value that the byte holds or has held; and what it holds where the byte is in no race and, for the host, no outstanding command writes it and none was disturbed there, for an engine, nobody that its command is in no order with writes it. -/
def Obligations.RacesReturnHeldValues : Prop :=
  ∀ (s : State) (agent : Option Nat) (slot a : Nat),
    (s.fetch agent slot a = s.mem.read a ∨ (a, s.fetch agent slot a) ∈ s.past) ∧
    (a ∉ s.raced →
      (agent = none → (∀ c ∈ s.owned, c.region.written = false ∨ c.region.contains a = false) ∧
        ∀ r ∈ s.rivals, r.other = none → r.region.contains a = false) →
      (∀ k : Nat, agent = some k → ∀ r ∈ s.rivals, r.engine = k → r.region.written = false ∨ r.region.contains a = false) →
      s.fetch agent slot a = s.mem.read a)

/-- R58 (derived; that a byte is in a race for every agent, and that the host's next write outside the outputs of outstanding commands settles it, are the model's, log entry 7, where R58 does not say when a race is over): a byte that the host writes while a command owns it is undetermined for that command and for the host, and its old value is kept as a candidate; a byte that the command writes stays in a race for everyone; a byte outside the outputs of outstanding commands is settled by the host's write of it (log entry 7); and every other byte keeps its standing. -/
def Obligations.HostWritesRaceOnlyOwnedBytes : Prop :=
  ∀ (s : State) (a : Nat) (b : Byte), a < 2 ^ 32 →
    ∃ t : State, hostStore a b s = .next t ∧ (a, s.mem.read a) ∈ t.past ∧
      (∀ c ∈ s.owned, c.region.contains a = true →
        t.racyRead (some c.engine) a = true ∧ t.racyRead none a = true) ∧
      ((∃ c ∈ s.owned, c.region.written = true ∧ c.region.contains a = true) → a ∈ t.raced) ∧
      ((∀ c ∈ s.owned, c.region.written = false ∨ c.region.contains a = false) → a ∉ t.raced) ∧
      (∀ x : Nat, x ≠ a → (x ∈ t.raced ↔ x ∈ s.raced) ∧ ∀ agent, t.racyRead agent x = s.racyRead agent x) ∧
      t.owned = s.owned ∧
      (∀ x : Nat, x ≠ a → t.mem.read x = s.mem.read x) ∧ (s.mem.wf → t.mem.read a = b) ∧
      t.eng = s.eng ∧ t.before = s.before ∧ t.after = s.after

/-- R58, R59 (b), R63 (derived; log entries 8 and 20): the host's read of STATUS with BUSY = 0 ends the engine's ownership and no other's, and makes its writes visible: every byte that is in no race, and that no other engine's outstanding command writes and no breach at another engine touches, then reads to the host as what memory holds; the order of other engines' commands with this one's is not settled by it. With BUSY = 1 the read ends nothing. -/
def Obligations.StatusReadReleasesTheRegions : Prop :=
  ∀ s : State,
    (s.eng.status.busy = true →
      hostAccess (.read 32 0x008) s = .next { s with rdata := s.eng.status.word }) ∧
    (s.eng.status.busy = false → ∃ t : State,
      hostAccess (.read 32 0x008) s = .next t ∧ t.rdata = s.eng.status.word ∧
      (∀ c : Claim, c ∈ t.owned ↔ c ∈ s.owned ∧ c.engine ≠ s.idx) ∧
      (∀ r : Rival, r ∈ t.rivals ↔ r ∈ s.rivals ∧ r.engine ≠ s.idx) ∧
      (∀ k a : Nat, k ≠ s.idx → t.racyRead (some k) a = s.racyRead (some k) a) ∧
      ∀ slot a : Nat, a ∉ s.raced →
        (∀ c ∈ s.owned, c.engine = s.idx ∨ c.region.written = false ∨ c.region.contains a = false) →
        (∀ r ∈ s.rivals, r.engine = s.idx ∨ r.other ≠ none ∨ r.region.contains a = false) →
        t.fetch none slot a = s.mem.read a)

/-! ### The whole machine -/

/-- R35 (derived), tier 1: the invariant holds after reset. -/
def Obligations.InvariantHoldsAtReset : Prop := State.reset.Inv

/-- R35 (derived): every step, whatever the event and whichever the engine, keeps the invariant: the clauses (a) to (e) of R35, the bits that read 0, the operands of a command in flight as they were accepted, and the canonical form of memory. -/
def Obligations.EveryStepKeepsTheInvariant : Prop :=
  ∀ s t : State, s.Inv → step s = .next t → t.Inv

/-- R35 (f), R49, R64 (derived): while a command is in flight no step changes its engine's operands, except a reset, which ends it. -/
def Obligations.OperandsAreFrozenWhileBusy : Prop :=
  ∀ (s t : State) (k : Nat) (e : Engine), step s = .next t → s.engines[k]? = some e → e.status.busy = true →
    ∃ e' : Engine, t.engines[k]? = some e' ∧ (e.sameOperands e' ∨ e' = Engine.reset)

/-- R214, R5 (derived; that no step at all changes MemOK is the model's choice, log entry 3, where R57 only says that it does not change during a command): a step changes at most one engine, and neither the number of engines nor, in this model (log entry 3), MemOK. -/
def Obligations.AStepChangesAtMostOneEngine : Prop :=
  ∀ s t : State, step s = .next t →
    t.engines.length = s.engines.length ∧ t.denied = s.denied ∧
    ∃ k : Nat, ∀ j : Nat, j ≠ k → t.engines[j]? = s.engines[j]?

/-- R26, R137 (derived): no step changes the PSNR or RATIO of an engine but an MFIN issued to it or its reset; and none changes its SSE or CNT but an MCLR issued to it, its reset, or a step while an accumulating long command of its own (MACC, or PROC with ACC) is in flight. -/
def Obligations.ResultsChangeOnlyByMfin : Prop :=
  ∀ (s t : State) (k : Nat) (e e' : Engine), step s = .next t →
    s.engines[k]? = some e → t.engines[k]? = some e' →
    (e'.psnr ≠ e.psnr ∨ e'.ratio ≠ e.ratio →
      e' = Engine.reset ∨
      ∃ rest : List Event, s.inputs = .host k (.write 32 0x004 (encode .mfin)) :: rest) ∧
    (e'.sse ≠ e.sse ∨ e'.cnt ≠ e.cnt →
      e' = Engine.reset ∨ (e.status.busy = true ∧ (e.accf = true ∨ e.curop ≠ 0x01#8)) ∨
      ∃ rest : List Event, s.inputs = .host k (.write 32 0x004 (encode .mclr)) :: rest)

/-- R45, R54, R127 (derived): no step changes a byte of memory but the host's own write of that byte, and the block step of an engine whose PROC is in flight, which is the engine that the step schedules, at a byte of its current unit's rectangle or archive slot. -/
def Obligations.OnlyProcAndTheHostWriteMemory : Prop :=
  ∀ (s t : State) (a : Nat), step s = .next t → t.mem.read a ≠ s.mem.read a →
    (∃ (b : Byte) (rest : List Event), s.inputs = .memWrite a b :: rest) ∨
    ∃ (k : Nat) (e : Engine), s.engines[k]? = some e ∧
      ((∃ rest : List Event, s.inputs = .engine k :: rest) ∨ (s.inputs = [] ∧ s.busyEngine = some k)) ∧
      e.status.busy = true ∧ e.curop = 0x01#8 ∧ e.creq = false ∧ e.udone ≠ e.utotal ∧
      (e.inRect e.udone.toNat a ∨ e.inSlot e.udone.toNat a)

/-- R55 (derived): in a good state no engine step ever forms an address outside the memory space: it always has a next state. -/
def Obligations.EngineStepsStayInTheMemorySpace : Prop :=
  ∀ (s : State) (k : Nat), s.Inv → k < s.engines.length → ∃ t : State, runEvent (.engine k) s = .next t

/-- R27, R24, R166 (derived): an engine step of a good state never moves UDONE backwards, skips no unit and stays at or below UTOTAL, which it does not change. -/
def Obligations.ProgressIsMonotone : Prop :=
  ∀ s t : State, s.Inv → engineStep s = .next t →
    t.eng.utotal = s.eng.utotal ∧ t.eng.udone.toNat ≤ t.eng.utotal.toNat ∧
    (t.eng.udone = s.eng.udone ∨ t.eng.udone.toNat = s.eng.udone.toNat + 1)

/-- R160 (derived): a long command that is neither cancelled nor faulted takes UTOTAL + 1 engine steps in all: from any good state the units left and one completion step end it with DONE. -/
def Obligations.LongCommandsTakeUtotalPlusOneSteps : Prop :=
  ∀ s : State, s.Inv → s.denied = [] → s.eng.status.busy = true → s.eng.creq = false →
    (∃ t : State, engineRun (s.eng.utotal.toNat - s.eng.udone.toNat + 1) s = .next t ∧
      t.eng.status.busy = false ∧ t.eng.status.done = true ∧ t.eng.status.err = false ∧ t.eng.status.canc = false ∧
      t.eng.udone = s.eng.utotal ∧ t.eng.utotal = s.eng.utotal) ∧
    ∀ n ≤ s.eng.utotal.toNat - s.eng.udone.toNat, ∃ t : State, engineRun n s = .next t ∧ t.eng.status.busy = true

/-- R128, R126, R60, R59, R147 (derived): PROC computes the plane-level function. For disjoint regions or DST = SRC, no refused access, no other engine's command outstanding and no source byte in a race, issuing PROC and running the engine ends with DONE, with every reconstructed sample and every archive entry as the block codec gives it from the ORIGINAL source plane, with every other byte of memory as before; with ACC = 1 the squared error of the whole plane and WIDTH * HEIGHT are added to SSE and CNT (saturating, with MOVF), with ACC = 0 nothing is; no other register changes but those that acceptance and completion write; and once the host has read STATUS it reads the outputs as they are in memory. -/
def Obligations.ProcComputesThePlane : Prop :=
  ∀ (s : State) (acc : Bool), s.mem.wf → s.denied = [] → s.alone → s.eng.status.busy = false → s.eng.procLegal →
    (∀ a : Nat, s.eng.inPlane s.eng.srcBase s.eng.srcStride a → a ∉ s.raced) →
    s.eng.regionsDisjoint ∨ s.eng.inPlace →
    let e := s.eng
    ∃ t₀ t u : State, exec (.proc acc) s = .next t₀ ∧ engineRun (e.nbx * e.nby + 1) t₀ = .next t ∧
      hostAccess (.read 32 0x008) t = .next u ∧
      (let d := ((List.range e.height.toNat).map fun y => ((List.range e.width.toNat).map fun x =>
          sqDiff (s.mem.read (e.srcAddr y x)) (t.mem.read (e.dstAddr y x))).sum).sum
       let n := e.width.toNat * e.height.toNat
       t.eng = { e with
          status := { e.status with
            busy := false, done := true, err := false, canc := false, mvalid := e.status.mvalid && !acc
            movf := e.status.movf || (acc && (saturates64 e.sse d || saturates64 e.cnt n)) }
          errinfo := 0#32, faddr := 0#32
          udone := BitVec.ofNat 32 (e.nbx * e.nby), utotal := BitVec.ofNat 32 (e.nbx * e.nby)
          sse := if acc then satadd64 e.sse d else e.sse, cnt := if acc then satadd64 e.cnt n else e.cnt
          curop := 0#8, accf := false, creq := false }) ∧
      t.eng.udone.toNat = e.nbx * e.nby ∧
      (∀ k < e.nbx * e.nby, ∀ r < (e.geometry k).h, ∀ c < (e.geometry k).w,
        t.mem.read (e.dstAddr ((e.geometry k).y0 + r) ((e.geometry k).x0 + c)) =
          BitVec.ofInt 8 ((e.decoded s.mem k).entry r c)) ∧
      (∀ k < e.nbx * e.nby, ∀ u < e.n, ∀ v < e.n, ∀ i < 2,
        t.mem.read (e.arcAddr k u v + i) =
          (BitVec.ofInt 16 (if u < (e.geometry k).h ∧ v < (e.geometry k).w
            then (e.coded s.mem k).entry u v else 0)).extractLsb' (8 * i) 8) ∧
      (∀ a : Nat, ¬ e.inPlane e.dstBase e.dstStride a → ¬ e.inArchive a → t.mem.read a = s.mem.read a) ∧
      ∀ slot a : Nat, e.inPlane e.dstBase e.dstStride a ∨ e.inArchive a → u.fetch none slot a = t.mem.read a

/-- R139, R140, R247 (derived): MACC adds the squared error of the two planes. With no refused access, no other engine's command outstanding and no byte of the planes in a race, issuing MACC and running the engine ends with DONE, with the sums of all rows added to SSE and CNT where they do not overflow, and with memory as before. -/
def Obligations.MaccSumsThePlanes : Prop :=
  ∀ s : State, s.denied = [] → s.alone → s.eng.status.busy = false → s.eng.planesLegal →
    (∀ a : Nat, s.eng.inPlane s.eng.srcBase s.eng.srcStride a ∨ s.eng.inPlane s.eng.dstBase s.eng.dstStride a →
      a ∉ s.raced) →
    let e := s.eng
    let total := ((List.range e.height.toNat).map fun y => ((List.range e.width.toNat).map fun x =>
      sqDiff (s.mem.read (e.srcAddr y x)) (s.mem.read (e.dstAddr y x))).sum).sum
    e.sse.toNat + total < 2 ^ 64 → e.cnt.toNat + e.width.toNat * e.height.toNat < 2 ^ 64 →
    ∃ t₀ t : State, exec .macc s = .next t₀ ∧ engineRun (e.height.toNat + 1) t₀ = .next t ∧
      t.eng.status.busy = false ∧ t.eng.status.done = true ∧ t.eng.status.err = false ∧ t.eng.status.canc = false ∧
      t.eng.sse.toNat = e.sse.toNat + total ∧ t.eng.cnt.toNat = e.cnt.toNat + e.width.toNat * e.height.toNat ∧
      t.eng.status.movf = e.status.movf ∧ t.eng.udone = e.height ∧ t.mem = s.mem
end

