-- ==== Sys2Proof/Laws/Numerics.lean ====
section
/-! SUPPORT. The laws of block buffers and sums. -/

namespace Sys2Proof.Machine

/-- An entry of a tabulated block is the function's value. -/
theorem tabulate_entry {h w r c : Nat} (hr : r < h) (hc : c < w) (f : Nat → Nat → Int) :
    Block.entry (tabulate h w f) r c = f r c := by
  simp [Block.entry, tabulate, hr, hc, List.getD]

/-- Blocks tabulated from functions that agree inside are equal. -/
theorem tabulate_congr {h w : Nat} {f g : Nat → Nat → Int} (H : ∀ r < h, ∀ c < w, f r c = g r c) :
    tabulate h w f = tabulate h w g := by
  unfold tabulate
  refine List.map_congr_left fun r hr => List.map_congr_left fun c hc => ?_
  exact H r (List.mem_range.1 hr) c (List.mem_range.1 hc)

theorem sumTo_congr {n : Nat} {f g : Nat → Int} (H : ∀ i < n, f i = g i) : sumTo n f = sumTo n g := by
  induction n with
  | zero => rfl
  | succ n ih => rw [sumTo, sumTo, ih fun i hi => H i (by omega), H n (by omega)]

/-- The model's sum is the library's. -/
theorem sumTo_eq_sum (n : Nat) (f : Nat → Int) : sumTo n f = ∑ i ∈ Finset.range n, f i := by
  induction n with
  | zero => rfl
  | succ n ih => rw [sumTo, ih, Finset.sum_range_succ]

theorem sumTo_zero (n : Nat) : sumTo n (fun _ => 0) = 0 := by
  induction n with
  | zero => rfl
  | succ n ih => rw [sumTo, ih]; rfl

/-- A clamped value lies between its bounds. -/
theorem clamp_mem {v lo hi : Int} (h : lo ≤ hi) : lo ≤ clamp v lo hi ∧ clamp v lo hi ≤ hi := by
  unfold clamp; split
  · omega
  · split <;> omega

theorem roundDiv_zero (d : Int) : roundDiv 0 d = 0 := by simp [roundDiv]

/-- What `bitSearch` finds lies in the range it searches. -/
theorem bitSearch_bounds (P : Nat → Bool) (n acc : Nat) :
    acc ≤ bitSearch P n acc ∧ bitSearch P n acc < acc + 2 ^ n := by
  induction n generalizing acc with
  | zero => simp [bitSearch]
  | succ n ih =>
    have hp : 2 ^ (n + 1) = 2 ^ n + 2 ^ n := by rw [Nat.pow_succ]; omega
    unfold bitSearch
    split
    · have := ih (acc + 2 ^ n); omega
    · have := ih acc; omega

/-- For a downward closed `P` that holds at `acc`, `bitSearch` finds the largest number in its range at which `P` holds. -/
theorem bitSearch_spec {P : Nat → Bool} (hd : ∀ i j, i ≤ j → P j = true → P i = true) (n acc : Nat)
    (h0 : P acc = true) :
    P (bitSearch P n acc) = true ∧ ∀ k, k < acc + 2 ^ n → P k = true → k ≤ bitSearch P n acc := by
  induction n generalizing acc with
  | zero => exact ⟨h0, fun k hk _ => by simp only [Nat.pow_zero] at hk; show k ≤ acc; omega⟩
  | succ n ih =>
    have hp : 2 ^ (n + 1) = 2 ^ n + 2 ^ n := by rw [Nat.pow_succ]; omega
    unfold bitSearch
    split
    · next h1 =>
      obtain ⟨ha, hb⟩ := ih (acc + 2 ^ n) h1
      exact ⟨ha, fun k hk hP => hb k (by omega) hP⟩
    · next h1 =>
      obtain ⟨ha, hb⟩ := ih acc h0
      refine ⟨ha, fun k hk hP => hb k ?_ hP⟩
      by_contra hc
      exact h1 (hd _ _ (by omega) hP)

/-- ROUND is odd. -/
theorem roundDiv_neg (n d : Int) : roundDiv (-n) d = -roundDiv n d := by simp [roundDiv]

/-- ROUND of a number that is not negative. -/
theorem roundDiv_of_nonneg {n d : Int} (hn : 0 ≤ n) (hd : 0 < d) : roundDiv n d = (2 * n + d) / (2 * d) := by
  unfold roundDiv
  rcases lt_or_eq_of_le hn with h | h
  · rw [Int.sign_eq_one_of_pos h, Int.natAbs_of_nonneg hn, one_mul]
  · subst h
    simp
    symm; rw [Int.ediv_eq_zero_of_lt] <;> omega

theorem sumTo_abs (n : Nat) (f : Nat → Int) : |sumTo n f| ≤ sumTo n (fun i => |f i|) := by
  rw [sumTo_eq_sum, sumTo_eq_sum]; exact Finset.abs_sum_le_sum_abs _ _

theorem psnrAtLeast_anti {a b : Nat} : ∀ i j, i ≤ j → psnrAtLeast a b j = true → psnrAtLeast a b i = true := by
  intro i j hij h
  simp only [psnrAtLeast, decide_eq_true_eq] at *
  exact le_trans (Nat.mul_le_mul_right _ (Nat.pow_le_pow_right (by norm_num) hij)) h

/-- A squared difference of samples, rule R137. -/
theorem sqDiff_le (a b : Byte) : sqDiff a b ≤ 65025 := by
  unfold sqDiff
  have ha := a.isLt; have hb := b.isLt
  have : ((a.toNat : Int) - b.toNat).natAbs ≤ 255 := by omega
  calc _ ≤ 255^2 := Nat.pow_le_pow_left this 2
    _ = 65025 := by norm_num

theorem sum_le_of_le (l : List Nat) (b : Nat) (h : ∀ x ∈ l, x ≤ b) : l.sum ≤ l.length * b := by
  have := List.sum_le_card_nsmul l b h
  simpa using this

end Sys2Proof.Machine
end

