-- ==== Sys2Proof/Laws/State.lean ====
section
/-! SUPPORT. One lemma per field per update of the state, so that no later proof unfolds a record update. -/

namespace Sys2Proof.Machine

section setEng
variable (s : State) (e : Engine)
@[simp] theorem setEng_eng : (s.setEng e).eng = e := rfl
@[simp] theorem setEng_before : (s.setEng e).before = s.before := rfl
@[simp] theorem setEng_after : (s.setEng e).after = s.after := rfl
@[simp] theorem setEng_mem : (s.setEng e).mem = s.mem := rfl
@[simp] theorem setEng_denied : (s.setEng e).denied = s.denied := rfl
@[simp] theorem setEng_inputs : (s.setEng e).inputs = s.inputs := rfl
@[simp] theorem setEng_rdata : (s.setEng e).rdata = s.rdata := rfl
@[simp] theorem setEng_owned : (s.setEng e).owned = s.owned := rfl
@[simp] theorem setEng_rivals : (s.setEng e).rivals = s.rivals := rfl
@[simp] theorem setEng_raced : (s.setEng e).raced = s.raced := rfl
@[simp] theorem setEng_past : (s.setEng e).past = s.past := rfl
@[simp] theorem setEng_tick : (s.setEng e).tick = s.tick := rfl
@[simp] theorem setEng_idx : (s.setEng e).idx = s.idx := rfl
@[simp] theorem setEng_self : s.setEng s.eng = s := rfl
@[simp] theorem setEng_setEng (e' : Engine) : (s.setEng e).setEng e' = s.setEng e' := rfl
end setEng

section claim
variable (s : State) (rs : List Region)
@[simp] theorem claim_eng : (s.claim rs).eng = s.eng := by unfold State.claim; split <;> rfl
@[simp] theorem claim_before : (s.claim rs).before = s.before := by unfold State.claim; split <;> rfl
@[simp] theorem claim_after : (s.claim rs).after = s.after := by unfold State.claim; split <;> rfl
@[simp] theorem claim_mem : (s.claim rs).mem = s.mem := by unfold State.claim; split <;> rfl
@[simp] theorem claim_denied : (s.claim rs).denied = s.denied := by unfold State.claim; split <;> rfl
@[simp] theorem claim_inputs : (s.claim rs).inputs = s.inputs := by unfold State.claim; split <;> rfl
@[simp] theorem claim_rdata : (s.claim rs).rdata = s.rdata := by unfold State.claim; split <;> rfl
@[simp] theorem claim_raced : (s.claim rs).raced = s.raced := by unfold State.claim; split <;> rfl
@[simp] theorem claim_past : (s.claim rs).past = s.past := by unfold State.claim; split <;> rfl
@[simp] theorem claim_tick : (s.claim rs).tick = s.tick := by unfold State.claim; split <;> rfl
@[simp] theorem claim_idx : (s.claim rs).idx = s.idx := by unfold State.claim; split <;> rfl
@[simp] theorem claim_nil : s.claim [] = s := rfl
@[simp] theorem claim_owned : (s.claim rs).owned = s.owned ++ rs.map (fun r => ⟨s.idx, r⟩) := by
  unfold State.claim; split
  · next h => simp [h]
  · rfl
theorem claim_rivals (h : rs ≠ []) : (s.claim rs).rivals = s.rivalsClaimed rs := by simp [State.claim, h]
end claim

section release
variable (s : State) (k : Nat)
@[simp] theorem release_eng : (s.release k).eng = s.eng := rfl
@[simp] theorem release_before : (s.release k).before = s.before := rfl
@[simp] theorem release_after : (s.release k).after = s.after := rfl
@[simp] theorem release_mem : (s.release k).mem = s.mem := rfl
@[simp] theorem release_denied : (s.release k).denied = s.denied := rfl
@[simp] theorem release_inputs : (s.release k).inputs = s.inputs := rfl
@[simp] theorem release_rdata : (s.release k).rdata = s.rdata := rfl
@[simp] theorem release_raced : (s.release k).raced = s.raced := rfl
@[simp] theorem release_past : (s.release k).past = s.past := rfl
@[simp] theorem release_owned : (s.release k).owned = s.owned.filter (fun c => c.engine != k) := rfl
@[simp] theorem release_rivals : (s.release k).rivals = s.rivals.filter (fun r => r.engine != k) := rfl
@[simp] theorem release_tick : (s.release k).tick = s.tick := rfl
end release

section store
variable (s : State) (ag : Option Nat) (a : Nat) (b : Byte)
@[simp] theorem store_eng : (s.store ag a b).eng = s.eng := rfl
@[simp] theorem store_before : (s.store ag a b).before = s.before := rfl
@[simp] theorem store_after : (s.store ag a b).after = s.after := rfl
@[simp] theorem store_mem : (s.store ag a b).mem = s.mem.write a b := rfl
@[simp] theorem store_denied : (s.store ag a b).denied = s.denied := rfl
@[simp] theorem store_inputs : (s.store ag a b).inputs = s.inputs := rfl
@[simp] theorem store_rdata : (s.store ag a b).rdata = s.rdata := rfl
@[simp] theorem store_owned : (s.store ag a b).owned = s.owned := rfl
@[simp] theorem store_rivals : (s.store ag a b).rivals = s.rivalsAfter ag a := rfl
@[simp] theorem store_raced : (s.store ag a b).raced = s.racedAfter ag a := rfl
@[simp] theorem store_past : (s.store ag a b).past = (a, s.mem.read a) :: s.past := rfl
@[simp] theorem store_tick : (s.store ag a b).tick = s.tick := rfl
@[simp] theorem store_idx : (s.store ag a b).idx = s.idx := rfl
end store

section engine
variable (e : Engine)
@[simp] theorem reject_status_busy : e.reject.status.busy = e.status.busy := rfl
@[simp] theorem clearOutcome_busy : e.clearOutcome.status.busy = e.status.busy := rfl
@[simp] theorem clearOutcome_errinfo : e.clearOutcome.errinfo = 0#32 := rfl
@[simp] theorem clearOutcome_faddr : e.clearOutcome.faddr = 0#32 := rfl
@[simp] theorem raise_errinfo (x : CmdError) (w : Word) : (e.raise x w).errinfo = x.info := rfl
@[simp] theorem raise_faddr (x : CmdError) (w : Word) : (e.raise x w).faddr = w := rfl
@[simp] theorem raise_busy (x : CmdError) (w : Word) : (e.raise x w).status.busy = false := rfl
@[simp] theorem raise_err (x : CmdError) (w : Word) : (e.raise x w).status.err = true := rfl
@[simp] theorem countUnit_udone : e.countUnit.udone = BitVec.ofNat 32 (e.udone.toNat + 1) := rfl
@[simp] theorem countUnit_utotal : e.countUnit.utotal = e.utotal := rfl
@[simp] theorem countUnit_status : e.countUnit.status = e.status := rfl
@[simp] theorem accumulate_udone (d n : Nat) : (e.accumulate d n).udone = e.udone := rfl
@[simp] theorem accumulate_utotal (d n : Nat) : (e.accumulate d n).utotal = e.utotal := rfl
end engine

/-- The registers that no error entry, acceptance, rejection or unit changes. -/
theorem sameOperands_refl (e : Engine) : e.sameOperands e := ⟨rfl, rfl, rfl, rfl, rfl, rfl, rfl, rfl, rfl, rfl⟩
theorem sameOperands_raise (e : Engine) (x : CmdError) (w : Word) : e.sameOperands (e.raise x w) := sameOperands_refl e
theorem sameOperands_clearOutcome (e : Engine) : e.sameOperands e.clearOutcome := sameOperands_refl e
theorem sameOperands_reject (e : Engine) : e.sameOperands e.reject := sameOperands_refl e
theorem sameOperands_countUnit (e : Engine) : e.sameOperands e.countUnit := sameOperands_refl e
theorem sameOperands_accumulate (e : Engine) (d n : Nat) : e.sameOperands (e.accumulate d n) := sameOperands_refl e
theorem sameOperands_cancel (e : Engine) : e.sameOperands e.cancel := sameOperands_refl e
theorem sameOperands_complete (e : Engine) : e.sameOperands e.complete := sameOperands_refl e
theorem sameOperands_endBlock (e : Engine) (bs : List Byte) (p : Block) : e.sameOperands (e.endBlock bs p) := by
  unfold Engine.endBlock; dsimp only; split <;> exact sameOperands_refl e

end Sys2Proof.Machine
end

