-- ==== Sys2Proof/Laws/Ops.lean ====
section
/-! SUPPORT. One lemma for each shared operation that says all it can do: the choice of an engine, sequences of accesses, acceptance, and races. -/

namespace Sys2Proof.Machine

/-! ### The choice of an engine -/

theorem engines_length (s : State) : s.engines.length = s.idx + 1 + s.after.length := by
  simp [State.engines, State.idx]; omega

theorem eng_mem_engines (s : State) : s.eng ∈ s.engines := by simp [State.engines]

theorem engines_setEng (s : State) (e : Engine) : (s.setEng e).engines = s.engines.set s.idx e := by
  simp only [State.engines, State.idx, setEng_before, setEng_after, setEng_eng]
  have := List.length_reverse (as := s.before)
  rw [← this, List.set_append_right _ _ (Nat.le_refl _)]; simp

theorem engines_idx (s : State) : s.engines[s.idx]? = some s.eng := by
  simp [State.engines, State.idx]

/-- Choosing the engine in focus changes nothing. -/
theorem focus_idx (s : State) : s.focus s.idx = some s := by
  have h1 : s.engines.drop s.idx = s.eng :: s.after := by
    simp only [State.engines, State.idx]
    have := List.length_reverse (as := s.before)
    rw [← this, List.drop_left]
  have h2 : s.engines.take s.idx = s.before.reverse := by
    simp only [State.engines, State.idx]
    have := List.length_reverse (as := s.before)
    rw [← this, List.take_left]
  simp [State.focus, h1, h2]

/-- Choosing an engine changes which one is in focus and nothing else. -/
theorem focus_some {s t : State} {k : Nat} (h : s.focus k = some t) :
    t.engines = s.engines ∧ t.idx = k ∧ s.engines[k]? = some t.eng ∧
      t = { s with before := t.before, eng := t.eng, after := t.after } := by
  unfold State.focus at h
  split at h
  · cases h
  · next e rest hd =>
    cases h
    have hk : k < s.engines.length := by
      by_contra hc
      rw [List.drop_eq_nil_of_le (by omega)] at hd; cases hd
    refine ⟨?_, ?_, ?_, rfl⟩
    · simp only [State.engines, List.reverse_reverse]
      rw [← State.engines, ← hd, List.take_append_drop]
    · simp [State.idx]; omega
    · rw [← List.head?_drop, hd]; rfl

theorem focus_isSome {s : State} {k : Nat} (h : k < s.engines.length) : ∃ t, s.focus k = some t := by
  unfold State.focus
  split
  · next hd => rw [List.drop_eq_nil_iff] at hd; omega
  · exact ⟨_, rfl⟩

/-! ### Acceptance, rules R156 to R158 -/

theorem accept_busy {s : State} (h : s.eng.status.busy = true) (body : Body) :
    s.accept body = s.setEng s.eng.reject := by simp [State.accept, h]

theorem accept_ok {s : State} (h : s.eng.status.busy = false) {body : Body} {e : Engine} {rs : List Region}
    (hb : body s.eng.clearOutcome = .ok (e, rs)) : s.accept body = (s.setEng e).claim rs := by
  simp [State.accept, h, hb]

theorem accept_error {s : State} (h : s.eng.status.busy = false) {body : Body} {x : CmdError}
    (hb : body s.eng.clearOutcome = .error x) :
    s.accept body = s.setEng (s.eng.clearOutcome.raise x 0#32) := by
  simp [State.accept, h, hb]

theorem accept_immediate {s : State} (h : s.eng.status.busy = false) (f : Engine → Engine) :
    s.accept (Body.immediate f) = s.setEng (f s.eng.clearOutcome).finish := by
  rw [accept_ok h (e := (f s.eng.clearOutcome).finish) (rs := []) rfl, claim_nil]

/-- Whatever is issued, only the engine in focus and the ownership of regions change. -/
theorem accept_frame (s : State) (body : Body) :
    s.accept body = { s with eng := (s.accept body).eng, owned := (s.accept body).owned, rivals := (s.accept body).rivals } := by
  unfold State.accept
  split
  · rfl
  · split
    · unfold State.claim; split <;> rfl
    · rfl

/-! ### Sequences of accesses, rules R7, R56, R57 -/

/-- The three ways a sequence of reads can end. -/
theorem readAll_ok {s : State} {slot : Nat} {as : List Nat} {bs : List Byte} (h : s.readAll slot as = .ok bs) :
    bs.length = as.length ∧ (∀ a ∈ as, inSpace a = true ∧ s.memOK a .read = true) ∧
      bs = as.mapIdx (fun i a => s.fetch (some s.idx) (slot + i) a) := by
  induction as generalizing slot bs with
  | nil => simp only [State.readAll, ReadResult.ok.injEq] at h; subst h; simp
  | cons a as ih =>
    unfold State.readAll at h
    split at h
    · cases h
    · next h1 =>
      split at h
      · cases h
      · next h2 =>
        split at h
        · next bs' hr =>
          cases h
          obtain ⟨hl, ha, he⟩ := ih hr
          refine ⟨by simp [hl], ?_, ?_⟩
          · intro c hc
            rcases List.mem_cons.1 hc with rfl | hc
            · exact ⟨by simpa using h1, by simpa using h2⟩
            · exact ha c hc
          · rw [List.mapIdx_cons, he]
            simp [Nat.add_comm, Nat.add_left_comm]
        · cases h
        · cases h

/-- A refused read: everything before it was allowed. -/
theorem readAll_refused {s : State} {slot : Nat} {as : List Nat} {a : Nat} (h : s.readAll slot as = .refused a) :
    ∃ pre post, as = pre ++ a :: post ∧ (∀ c ∈ pre, s.memOK c .read = true) ∧
      inSpace a = true ∧ s.memOK a .read = false := by
  induction as generalizing slot with
  | nil => cases h
  | cons c as ih =>
    unfold State.readAll at h
    split at h
    · cases h
    · next h1 =>
      split at h
      · next h2 =>
        cases h
        exact ⟨[], as, rfl, by simp, by simpa using h1, by simpa using h2⟩
      · next h2 =>
        split at h
        · cases h
        · next r hr =>
          cases h
          obtain ⟨pre, post, rfl, hp, hi, hm⟩ := ih hr
          refine ⟨c :: pre, post, rfl, ?_, hi, hm⟩
          intro d hd
          rcases List.mem_cons.1 hd with rfl | hd
          · simpa using h2
          · exact hp d hd
        · cases h

/-- Reads that are all inside the memory space and allowed all happen. -/
theorem readAll_total {s : State} (slot : Nat) {as : List Nat}
    (h : ∀ a ∈ as, inSpace a = true ∧ s.memOK a .read = true) :
    s.readAll slot as = .ok (as.mapIdx (fun i a => s.fetch (some s.idx) (slot + i) a)) := by
  induction as generalizing slot with
  | nil => rfl
  | cons a as ih =>
    have ha := h a (by simp)
    rw [State.readAll, ih (slot + 1) (fun c hc => h c (by simp [hc]))]
    simp [ha.1, ha.2, List.mapIdx_cons, Nat.add_comm, Nat.add_left_comm]

theorem readAll_inSpace {s : State} {slot : Nat} {as : List Nat} (h : ∀ a ∈ as, inSpace a = true) (a : Nat) :
    s.readAll slot as ≠ .outside a := by
  induction as generalizing slot with
  | nil => simp [State.readAll]
  | cons c as ih =>
    have hc := h c (by simp)
    have := ih (slot := slot + 1) (fun d hd => h d (by simp [hd]))
    unfold State.readAll
    simp only [hc, Bool.not_true, Bool.false_eq_true, if_false]
    split
    · simp
    · split
      · simp
      · simp
      · next r hr => intro he; injection he with he; subst he; exact this hr

/-- A write of an engine changes memory and its races and nothing else. -/
theorem store_frame (s : State) (k a : Nat) (b : Byte) : s.store (some k) a b =
    { s with mem := s.mem.write a b, past := (a, s.mem.read a) :: s.past, raced := s.racedAfter (some k) a } := rfl

/-- Storing bytes, as an engine does, changes memory and its races and nothing else. -/
theorem storeBytes_frame (s : State) (k a : Nat) (bs : List Byte) :
    s.storeBytes (some k) a bs =
      { s with mem := (s.storeBytes (some k) a bs).mem, past := (s.storeBytes (some k) a bs).past,
               raced := (s.storeBytes (some k) a bs).raced } := by
  induction bs generalizing s a with
  | nil => rfl
  | cons b bs ih => rw [State.storeBytes, ih (s.store (some k) a b) (a + 1), store_frame]

theorem storeBytes_read_other (s : State) (ag : Option Nat) (a : Nat) (bs : List Byte) (c : Nat)
    (h : ¬ (a ≤ c ∧ c < a + bs.length)) : (s.storeBytes ag a bs).mem.read c = s.mem.read c := by
  induction bs generalizing s a with
  | nil => rfl
  | cons b bs ih =>
    simp only [List.length_cons] at h
    rw [State.storeBytes, ih (s.store ag a b) (a + 1) (by omega), store_mem,
      Memory.read_write_other _ _ (by omega)]

theorem storeBytes_wf {s : State} (hm : s.mem.wf) (ag : Option Nat) (a : Nat) (bs : List Byte)
    (h : a + bs.length ≤ Config.addressSpace) : (s.storeBytes ag a bs).mem.wf := by
  induction bs generalizing s a with
  | nil => exact hm
  | cons b bs ih =>
    simp only [List.length_cons] at h
    exact ih (s := s.store ag a b) (Memory.wf_write hm (by omega) b) (a + 1) (by omega)

theorem storeBytes_read {s : State} (hm : s.mem.wf) (ag : Option Nat) (a : Nat) (bs : List Byte)
    (h : a + bs.length ≤ Config.addressSpace) (i : Nat) (hi : i < bs.length) :
    (s.storeBytes ag a bs).mem.read (a + i) = bs[i] := by
  induction bs generalizing s a i with
  | nil => simp at hi
  | cons b bs ih =>
    simp only [List.length_cons] at h hi
    have hm' : (s.store ag a b).mem.wf := Memory.wf_write hm (by omega) b
    rw [State.storeBytes]
    cases i with
    | zero =>
      rw [storeBytes_read_other _ _ _ _ _ (by omega), store_mem]
      exact Memory.read_write_same hm a b
    | succ i =>
      have := ih hm' (a + 1) (by omega) i (by omega)
      rw [show a + (i + 1) = a + 1 + i by omega, this]; simp

theorem accessBytes_inSpace {a n : Nat} (h : (accessBytes a n).all inSpace = true) (hn : 0 < n) :
    a + n ≤ Config.addressSpace := by
  simp only [accessBytes, List.all_map, List.all_eq_true, List.mem_range, Function.comp_apply, inSpace,
    decide_eq_true_eq] at h
  have := h (n - 1) (by omega); omega

/-- A sequence of writes that happened changed memory and its races and nothing else. -/
theorem writeAll_frame {s t : State} {ws : List (Nat × List Byte)} (h : s.writeAll ws = .ok t) :
    t = { s with mem := t.mem, past := t.past, raced := t.raced } := by
  induction ws generalizing s with
  | nil => cases h; rfl
  | cons w ws ih =>
    obtain ⟨a, bs⟩ := w
    unfold State.writeAll at h
    split at h
    · cases h
    · split at h
      · cases h
      · have := ih h
        rw [storeBytes_frame] at this
        rw [this]

theorem writeAll_refused_frame {s t : State} {ws : List (Nat × List Byte)} {a : Nat} (h : s.writeAll ws = .refused t a) :
    t = { s with mem := t.mem, past := t.past, raced := t.raced } := by
  induction ws generalizing s with
  | nil => cases h
  | cons w ws ih =>
    obtain ⟨c, bs⟩ := w
    unfold State.writeAll at h
    split at h
    · cases h
    · split at h
      · cases h; rfl
      · have := ih h
        rw [storeBytes_frame] at this
        rw [this]

/-- Bytes that no access of the sequence covers read as before. -/
theorem writeAll_read_other {s t : State} {ws : List (Nat × List Byte)} (h : s.writeAll ws = .ok t) (c : Nat)
    (hc : ¬ writtenBy ws c) : t.mem.read c = s.mem.read c := by
  induction ws generalizing s with
  | nil => cases h; rfl
  | cons w ws ih =>
    obtain ⟨a, bs⟩ := w
    unfold State.writeAll at h
    split at h
    · cases h
    · split at h
      · cases h
      · rw [ih h (fun ⟨v, hv, hr⟩ => hc ⟨v, by simp [hv], hr⟩)]
        exact storeBytes_read_other _ _ _ _ _ (fun hr => hc ⟨(a, bs), by simp, hr⟩)

theorem writeAll_refused_read_other {s t : State} {ws : List (Nat × List Byte)} {r : Nat}
    (h : s.writeAll ws = .refused t r) (c : Nat) (hc : ¬ writtenBy ws c) : t.mem.read c = s.mem.read c := by
  induction ws generalizing s with
  | nil => cases h
  | cons w ws ih =>
    obtain ⟨a, bs⟩ := w
    unfold State.writeAll at h
    split at h
    · cases h
    · split at h
      · cases h; rfl
      · rw [ih h (fun ⟨v, hv, hr⟩ => hc ⟨v, by simp [hv], hr⟩)]
        exact storeBytes_read_other _ _ _ _ _ (fun hr => hc ⟨(a, bs), by simp, hr⟩)

/-- The canonical form of memory is kept, whether the writes all happened or one was refused. -/
theorem writeAll_wf {s : State} {ws : List (Nat × List Byte)} (hm : s.mem.wf) :
    (∀ t, s.writeAll ws = .ok t → t.mem.wf) ∧ (∀ t r, s.writeAll ws = .refused t r → t.mem.wf) := by
  induction ws generalizing s with
  | nil => exact ⟨fun t h => by cases h; exact hm, fun t r h => by cases h⟩
  | cons w ws ih =>
    obtain ⟨a, bs⟩ := w
    have key : (accessBytes a bs.length).all inSpace = true → (s.storeBytes (some s.idx) a bs).mem.wf := by
      intro hs
      cases bs with
      | nil => exact hm
      | cons b bs => exact storeBytes_wf hm _ _ _ (accessBytes_inSpace hs (by simp))
    constructor
    · intro t h
      unfold State.writeAll at h
      split at h
      · cases h
      · next h1 =>
        split at h
        · cases h
        · exact (ih (key (by simpa using h1))).1 t h
    · intro t r h
      unfold State.writeAll at h
      split at h
      · cases h
      · next h1 =>
        split at h
        · cases h; exact hm
        · exact (ih (key (by simpa using h1))).2 t r h

/-- The last access that covers a byte decides what it holds. -/
theorem writeAll_read {s t : State} {pre post : List (Nat × List Byte)} {a : Nat} {bs : List Byte} (hm : s.mem.wf)
    (h : s.writeAll (pre ++ (a, bs) :: post) = .ok t) (i : Nat) (hi : i < bs.length)
    (hp : ¬ writtenBy post (a + i)) : t.mem.read (a + i) = bs[i] := by
  induction pre generalizing s with
  | nil =>
    rw [List.nil_append, State.writeAll] at h
    split at h
    · cases h
    · next h1 =>
      split at h
      · cases h
      · rw [writeAll_read_other h _ hp]
        exact storeBytes_read hm _ _ _ (accessBytes_inSpace (by simpa using h1) (by omega)) i hi
  | cons w pre ih =>
    obtain ⟨c, cs⟩ := w
    rw [List.cons_append, State.writeAll] at h
    split at h
    · cases h
    · next h1 =>
      split at h
      · cases h
      · refine ih ?_ h
        cases cs with
        | nil => exact hm
        | cons b cs => exact storeBytes_wf hm _ _ _ (accessBytes_inSpace (by simpa using h1) (by simp))

/-- Accesses that are all inside the memory space and allowed all happen. -/
theorem writeAll_total {s : State} {ws : List (Nat × List Byte)}
    (h : ∀ w ∈ ws, (accessBytes w.1 w.2.length).all inSpace = true ∧
      (accessBytes w.1 w.2.length).all (fun b => s.memOK b .write) = true) :
    ∃ t, s.writeAll ws = .ok t := by
  induction ws generalizing s with
  | nil => exact ⟨s, rfl⟩
  | cons w ws ih =>
    obtain ⟨a, bs⟩ := w
    have hw := h (a, bs) (by simp)
    have hd : ∀ b, (s.storeBytes (some s.idx) a bs).memOK b .write = s.memOK b .write := by
      intro b; rw [storeBytes_frame]; rfl
    obtain ⟨t, ht⟩ := ih (s := s.storeBytes (some s.idx) a bs)
      (fun v hv => by simpa only [hd] using h v (by simp [hv]))
    exact ⟨t, by rw [State.writeAll, hw.1, hw.2]; simpa using ht⟩

theorem writeAll_inSpace {s : State} {ws : List (Nat × List Byte)}
    (h : ∀ w ∈ ws, (accessBytes w.1 w.2.length).all inSpace = true) (a : Nat) : s.writeAll ws ≠ .outside a := by
  induction ws generalizing s with
  | nil => simp [State.writeAll]
  | cons w ws ih =>
    obtain ⟨c, bs⟩ := w
    have hw := h (c, bs) (by simp)
    unfold State.writeAll
    rw [hw]
    simp only [Bool.not_true, Bool.false_eq_true, if_false]
    split
    · simp
    · exact ih (fun v hv => h v (by simp [hv]))

/-! ### Races, rule R58 -/

/-- Without a race an agent reads what is there. -/
theorem fetch_of_not_racy {s : State} {ag : Option Nat} {a : Nat} (h : s.racyRead ag a = false) (slot : Nat) :
    s.fetch ag slot a = s.mem.read a := by simp [State.fetch, h]

/-- With MemOK true everywhere nothing is refused. -/
theorem memOK_of_denied_nil {s : State} (h : s.denied = []) (a : Nat) (k : AccessKind) : s.memOK a k = true := by
  simp [State.memOK, h]

/-- An engine whose command has no rival is in order with everyone at every byte. -/
theorem not_contested {s : State} {k : Nat} (h : ∀ r ∈ s.rivals, r.engine ≠ k) (a : Nat) : s.contested k a = false := by
  simp only [State.contested, List.any_eq_false]
  intro r hr; simp [h r hr]

/-- Such an engine reads what is there at a byte that is in no race. -/
theorem fetch_of_alone {s : State} {k a : Nat} (h : ∀ r ∈ s.rivals, r.engine ≠ k) (ha : a ∉ s.raced) (slot : Nat) :
    s.fetch (some k) slot a = s.mem.read a :=
  fetch_of_not_racy (by simp [State.racyRead, not_contested h, ha]) slot

/-- Without a race the engine in focus reads what is there. -/
theorem fetch_of_noRace {s : State} (h : s.noRace) (slot a : Nat) : s.fetch (some s.idx) slot a = s.mem.read a :=
  fetch_of_alone h.2 (by simp [h.1]) slot

/-- Without a race, reads that are allowed give the bytes of memory. -/
theorem readAll_of_noRace {s : State} (h : s.noRace) (slot : Nat) {as : List Nat} (ha : ∀ a ∈ as, s.mayRead a) :
    s.readAll slot as = .ok (as.map s.mem.read) := by
  rw [readAll_total slot ha]
  congr 1
  refine List.ext_getElem (by simp) fun i h1 h2 => ?_
  simp [fetch_of_noRace h]

/-- The same for an engine without rivals, at bytes that are in no race. -/
theorem readAll_of_alone {s : State} (h : ∀ r ∈ s.rivals, r.engine ≠ s.idx) (slot : Nat) {as : List Nat}
    (ha : ∀ a ∈ as, s.mayRead a ∧ a ∉ s.raced) : s.readAll slot as = .ok (as.map s.mem.read) := by
  rw [readAll_total slot fun a h => (ha a h).1]
  congr 1
  refine List.ext_getElem (by simp) fun i h1 h2 => ?_
  simp [fetch_of_alone h (ha _ (List.getElem_mem (by simpa using h1))).2]

/-- What a write does to the races: it decides on its own byte and on no other. -/
theorem mem_racedAfter (s : State) (ag : Option Nat) (a x : Nat) :
    x ∈ s.racedAfter ag a ↔ if x = a then s.racyWrite ag a = true else x ∈ s.raced := by
  unfold State.racedAfter
  split
  · next h => by_cases hx : x = a <;> by_cases ha : a ∈ s.raced <;> simp_all
  · next h => by_cases hx : x = a <;> simp [hx, h]

/-- The bytes that an engine without rivals writes are in no race afterwards, and no other byte is touched (rule R59 b). -/
theorem mem_raced_storeBytes {s : State} {k : Nat} (h : ∀ r ∈ s.rivals, r.engine ≠ k) (a : Nat) (bs : List Byte) (x : Nat) :
    x ∈ (s.storeBytes (some k) a bs).raced ↔ x ∈ s.raced ∧ ¬ (a ≤ x ∧ x < a + bs.length) := by
  induction bs generalizing s a with
  | nil => simp [State.storeBytes]
  | cons b bs ih =>
    rw [State.storeBytes, ih (s := s.store (some k) a b) h (a + 1), store_raced, mem_racedAfter]
    have hc : s.racyWrite (some k) a = false := not_contested h a
    by_cases hx : x = a
    · simp [hx, hc]
    · simp only [hx, if_false, List.length_cons]
      constructor <;> rintro ⟨h1, h2⟩ <;> exact ⟨h1, by omega⟩

theorem mem_raced_writeAll {s t : State} (h : ∀ r ∈ s.rivals, r.engine ≠ s.idx) {ws : List (Nat × List Byte)}
    (hw : s.writeAll ws = .ok t) (x : Nat) : x ∈ t.raced ↔ x ∈ s.raced ∧ ¬ writtenBy ws x := by
  induction ws generalizing s with
  | nil => cases hw; simp
  | cons w ws ih =>
    obtain ⟨a, bs⟩ := w
    unfold State.writeAll at hw
    split at hw
    · cases hw
    · split at hw
      · cases hw
      · have hf := storeBytes_frame s s.idx a bs
        have hi : (s.storeBytes (some s.idx) a bs).idx = s.idx := by rw [hf]; rfl
        have hr : (s.storeBytes (some s.idx) a bs).rivals = s.rivals := by rw [hf]
        rw [ih (by rw [hi, hr]; exact h) hw, mem_raced_storeBytes h]
        simp only [writtenBy, List.mem_cons, exists_eq_or_imp, not_or, and_assoc]

/-- A command that begins while no other engine's is outstanding has no rival. -/
theorem claim_no_rival {s : State} (h : s.alone) {rs : List Region} (hr : rs ≠ []) : (s.claim rs).rivals = [] := by
  have ho : s.others = [] := by
    simp only [State.others, List.filter_eq_nil_iff]
    intro c hc; simp [h.1 c hc]
  have hv : s.rivals.filter (fun r => r.engine != s.idx) = [] := by
    simp only [List.filter_eq_nil_iff]
    intro r hr; simp [h.2 r hr]
  rw [claim_rivals _ _ hr]
  simp [State.rivalsClaimed, ho, hv]

/-- What a command that begins is in no order with, and what is in no order with it. -/
theorem mem_claim_rivals {s : State} {rs : List Region} (hr : rs ≠ []) (r : Rival) :
    r ∈ (s.claim rs).rivals ↔ r ∈ s.rivals ∧ r.engine ≠ s.idx ∨
      ∃ c ∈ s.owned, c.engine ≠ s.idx ∧ (r = ⟨s.idx, some c.engine, c.region⟩ ∨ ∃ g ∈ rs, r = ⟨c.engine, some s.idx, g⟩) := by
  rw [claim_rivals _ _ hr]
  simp only [State.rivalsClaimed, State.others, List.mem_append, List.mem_filter, List.mem_map, List.mem_flatMap, bne_iff_ne]
  constructor
  · rintro ((h | ⟨c, ⟨hc, hn⟩, rfl⟩) | ⟨c, ⟨hc, hn⟩, g, hg, rfl⟩)
    · exact .inl h
    · exact .inr ⟨c, hc, hn, .inl rfl⟩
    · exact .inr ⟨c, hc, hn, .inr ⟨g, hg, rfl⟩⟩
  · rintro (h | ⟨c, hc, hn, rfl | ⟨g, hg, rfl⟩⟩)
    · exact .inl (.inl h)
    · exact .inl (.inr ⟨c, ⟨hc, hn⟩, rfl⟩)
    · exact .inr ⟨c, ⟨hc, hn⟩, g, hg, rfl⟩

end Sys2Proof.Machine
end

