-- ==== Sys2Proof/Laws/Operands.lean ====
section
/-! SUPPORT. The laws of the operands: the checks at acceptance as chains of conditions, and the addresses of samples, archive entries and accesses. -/

namespace Sys2Proof.Machine

/-! ### The checks of rule R203 -/

theorem orElse_ite {α : Type} (p : Prop) [Decidable p] (x : α) (r q : Option α) :
    ((if p then some x else r) <|> q) = if p then some x else (r <|> q) := by split <;> rfl

theorem none_orElse' {α : Type} (q : Option α) : ((none : Option α) <|> q) = q := rfl

theorem ite_eq_none {α : Type} (p : Prop) [Decidable p] (x : α) (r : Option α) :
    (if p then some x else r) = none ↔ ¬ p ∧ r = none := by split <;> simp_all

/-- Rule R82 as the condition it states. -/
theorem cornerValid_iff (e : Engine) : e.cornerValid = true ↔ ∀ i < e.n, ∀ j < e.n, 0x0100 ≤ (e.qm.entry i j).toNat := by
  unfold Engine.cornerValid
  rw [List.all_eq_true]
  refine forall_congr' fun i => ?_
  rw [List.mem_range, List.all_eq_true]
  refine imp_congr_right fun _ => forall_congr' fun j => ?_
  rw [List.mem_range]
  exact imp_congr_right fun _ => decide_eq_true_iff

theorem checkBsize_eq (e : Engine) : e.checkBsize = if ¬ (e.n = 4 ∨ e.n = 8 ∨ e.n = 16 ∨ e.n = 32) then some .bsize else none := by
    simp only [Engine.checkBsize, Config.blockSizes, List.contains_iff_mem, List.mem_cons, List.not_mem_nil, or_false]
    by_cases h : e.n = 4 ∨ e.n = 8 ∨ e.n = 16 ∨ e.n = 32 <;> simp [h]

theorem checkQm_eq (e : Engine) : e.checkQm = if ¬ ∀ i < e.n, ∀ j < e.n, 0x0100 ≤ (e.qm.entry i j).toNat then some .qm else none := by
    simp only [Engine.checkQm]
    by_cases h : ∀ i < e.n, ∀ j < e.n, 0x0100 ≤ (e.qm.entry i j).toNat
    · rw [if_pos ((cornerValid_iff e).2 h), if_neg (not_not.2 h)]
    · rw [if_neg (fun hc => h ((cornerValid_iff e).1 hc)), if_pos h]

theorem checkLevel_eq (e : Engine) : e.checkLevel = if e.level.toNat < 1 ∨ 100 < e.level.toNat then some .level else none := rfl

theorem checkDims_eq (e : Engine) : e.checkDims =
      if e.width.toNat = 0 then some .wzero
      else if e.height.toNat = 0 then some .hzero
      else if 65535 < e.width.toNat ∨ 65535 < e.height.toNat then some .toobig else none := rfl

theorem checkPlanes_eq (e : Engine) : e.checkPlanes =
      if 2 ^ 32 < e.srcBase.toNat + (e.height.toNat - 1) * e.srcStride.toNat + e.width.toNat then some .range
      else if 2 ^ 32 < e.dstBase.toNat + (e.height.toNat - 1) * e.dstStride.toNat + e.width.toNat then some .range
      else none := rfl

theorem checkArchive_eq (e : Engine) : e.checkArchive =
      if 2 ^ 32 < e.arcBase.toNat + ceilDiv e.height.toNat e.n * ceilDiv e.width.toNat e.n * 2 * e.n * e.n then
        some .range else none := rfl

/-- Checks 3 to 13 as one chain. -/
theorem checkProc_eq (e : Engine) : e.checkProc =
      if ¬ (e.n = 4 ∨ e.n = 8 ∨ e.n = 16 ∨ e.n = 32) then some .bsize
      else if e.level.toNat < 1 ∨ 100 < e.level.toNat then some .level
      else if e.width.toNat = 0 then some .wzero
      else if e.height.toNat = 0 then some .hzero
      else if 65535 < e.width.toNat ∨ 65535 < e.height.toNat then some .toobig
      else if e.srcStride.toNat < e.width.toNat ∨ e.dstStride.toNat < e.width.toNat then some .stride
      else if e.arcBase.toNat % 2 = 1 then some .align
      else if 2 ^ 32 < e.srcBase.toNat + (e.height.toNat - 1) * e.srcStride.toNat + e.width.toNat then some .range
      else if 2 ^ 32 < e.dstBase.toNat + (e.height.toNat - 1) * e.dstStride.toNat + e.width.toNat then some .range
      else if 2 ^ 32 < e.arcBase.toNat + ceilDiv e.height.toNat e.n * ceilDiv e.width.toNat e.n * 2 * e.n * e.n then
        some .range
      else if ¬ ∀ i < e.n, ∀ j < e.n, 0x0100 ≤ (e.qm.entry i j).toNat then some .qm
      else none := by
  unfold Engine.checkProc
  rw [checkBsize_eq, checkQm_eq, checkLevel_eq, checkDims_eq, checkPlanes_eq, checkArchive_eq]
  simp only [Engine.checkStrides, Engine.checkAlign, orElse_ite, none_orElse']

/-- Checks 5, 6, 7, 8, 10, 11 as one chain. -/
theorem checkMacc_eq (e : Engine) : e.checkMacc =
      if e.width.toNat = 0 then some .wzero
      else if e.height.toNat = 0 then some .hzero
      else if 65535 < e.width.toNat ∨ 65535 < e.height.toNat then some .toobig
      else if e.srcStride.toNat < e.width.toNat ∨ e.dstStride.toNat < e.width.toNat then some .stride
      else if 2 ^ 32 < e.srcBase.toNat + (e.height.toNat - 1) * e.srcStride.toNat + e.width.toNat then some .range
      else if 2 ^ 32 < e.dstBase.toNat + (e.height.toNat - 1) * e.dstStride.toNat + e.width.toNat then some .range
      else none := by
  unfold Engine.checkMacc
  rw [checkDims_eq, checkPlanes_eq]
  simp only [Engine.checkStrides, orElse_ite, none_orElse']

/-- MACC passes its checks exactly for legal planes. -/
theorem checkMacc_none (e : Engine) : e.checkMacc = none ↔ e.planesLegal := by
  rw [checkMacc_eq]
  unfold Engine.planesLegal
  simp only [ite_eq_none, and_true]
  omega

/-- PROC passes its checks exactly for legal operands. -/
theorem checkProc_none (e : Engine) : e.checkProc = none ↔ e.procLegal := by
  rw [checkProc_eq]
  unfold Engine.procLegal Engine.planesLegal Engine.levelLegal
  rw [show e.arcBytes = ceilDiv e.height.toNat e.n * ceilDiv e.width.toNat e.n * 2 * e.n * e.n from rfl]
  simp only [ite_eq_none, and_true]
  constructor
  · rintro ⟨h1, h2, h3, h4, h5, h6, h7, h8, h9, h10, h11⟩
    exact ⟨not_not.1 h1, by omega, by omega, by omega, by omega, not_not.1 h11⟩
  · rintro ⟨h1, h2, h3, h4, h5, h6⟩
    exact ⟨not_not.2 h1, by omega, by omega, by omega, by omega, by omega, by omega, by omega, by omega, by omega, not_not.2 h6⟩

/-! ### Units and addresses -/

theorem ceilDiv_le {a b : Nat} (hb : 4 ≤ b) : ceilDiv a b ≤ (a + 3) / 4 := by
  unfold ceilDiv
  have h1 : (a + b - 1) / b * b ≤ a + b - 1 := Nat.div_mul_le_self _ _
  by_contra hc
  have h2 : (a + 3) / 4 + 1 ≤ (a + b - 1) / b := by omega
  have h3 : ((a+3)/4 + 1) * b ≤ a + b - 1 := le_trans (Nat.mul_le_mul_right _ h2) h1
  have h4 : (a+3)/4 * 4 ≤ (a+3)/4 * b := Nat.mul_le_mul_left _ hb
  rw [Nat.add_mul] at h3
  omega

/-- The number of units fits UTOTAL. -/
theorem units_lt {e : Engine} (h : e.procLegal) : e.nbx * e.nby < 2^32 := by
  obtain ⟨hn, -, ⟨hw, hh, -⟩, -⟩ := h
  have h4 : 4 ≤ e.n := by omega
  have h1 : e.nbx ≤ 16384 := le_trans (ceilDiv_le h4) (by omega)
  have h2 : e.nby ≤ 16384 := le_trans (ceilDiv_le h4) (by omega)
  calc e.nbx * e.nby ≤ 16384 * 16384 := Nat.mul_le_mul h1 h2
    _ < 2^32 := by norm_num

theorem ceilDiv_lt {a b k : Nat} (hb : 0 < b) (h : k < ceilDiv a b) : k * b < a := by
  unfold ceilDiv at h
  have : k + 1 ≤ (a + b - 1) / b := h
  rw [Nat.le_div_iff_mul_le hb, Nat.add_mul] at this
  omega

theorem lt_ceilDiv {a b k : Nat} (hb : 0 < b) (h : k * b < a) : k < ceilDiv a b := by
  unfold ceilDiv
  rw [← Nat.succ_le_iff, Nat.le_div_iff_mul_le hb, Nat.succ_mul]; omega

/-- A sample of a legal plane is inside the memory space. -/
theorem plane_lt {base stride w h y x : Nat} (hp : base + (h - 1) * stride + w ≤ 2^32) (hy : y < h) (hx : x < w) :
    base + y * stride + x < 2 ^ 32 := by
  have : y * stride ≤ (h-1) * stride := Nat.mul_le_mul_right _ (by omega)
  omega

theorem inSpace_iff (a : Nat) : inSpace a = true ↔ a < 2^32 := decide_eq_true_iff

/-- Two samples of a plane have different addresses. -/
theorem plane_inj {base stride w y x y' x' : Nat} (hs : w ≤ stride) (hx : x < w) (hx' : x' < w)
    (h : base + y * stride + x = base + y' * stride + x') : y = y' ∧ x = x' := by
  have h0 : 0 < stride := by omega
  have h1 : y * stride + x = y' * stride + x' := by omega
  have e1 : (y * stride + x) / stride = y := by rw [Nat.mul_comm, Nat.mul_add_div h0, Nat.div_eq_of_lt (by omega)]; omega
  have e2 : (y' * stride + x') / stride = y' := by rw [Nat.mul_comm, Nat.mul_add_div h0, Nat.div_eq_of_lt (by omega)]; omega
  have : y = y' := by rw [← e1, ← e2, h1]
  subst this
  exact ⟨rfl, by omega⟩

theorem blockReads_mem {e : Engine} {k a : Nat} : a ∈ e.blockReads k ↔ ∃ r < (e.geometry k).h, ∃ c < (e.geometry k).w,
   a = e.srcAddr ((e.geometry k).y0 + r) ((e.geometry k).x0 + c) := by
  unfold Engine.blockReads
  simp only [List.mem_flatMap, List.mem_map, List.mem_range]
  constructor
  · rintro ⟨r, hr, c, hc, h⟩; exact ⟨r, hr, c, hc, h.symm⟩
  · rintro ⟨r, hr, c, hc, h⟩; exact ⟨r, hr, c, hc, h.symm⟩

theorem rowReads_mem {e : Engine} {y a : Nat} : a ∈ e.rowReads y ↔ ∃ x < e.width.toNat, a = e.srcAddr y x ∨ a = e.dstAddr y x := by
  unfold Engine.rowReads
  simp only [List.mem_flatMap, List.mem_range, List.mem_cons, List.not_mem_nil, or_false]

theorem accessBytes_all {a n : Nat} {P : Nat → Bool} : (accessBytes a n).all P = true ↔ ∀ i < n, P (a + i) = true := by
  simp [accessBytes]

theorem slotWrites_mem {e : Engine} {k : Nat} {q : Block} {w : Nat × List Byte} : w ∈ e.slotWrites k q ↔
   ∃ u < e.n, ∃ v < e.n, w = (e.arcAddr k u v, bytesLE (int16 (slotEntry (e.geometry k).h (e.geometry k).w q u v))) := by
  unfold Engine.slotWrites
  simp only [List.mem_flatMap, List.mem_map, List.mem_range]
  constructor
  · rintro ⟨r, hr, c, hc, h⟩; exact ⟨r, hr, c, hc, h.symm⟩
  · rintro ⟨r, hr, c, hc, h⟩; exact ⟨r, hr, c, hc, h.symm⟩

theorem sampleWrites_mem {e : Engine} {k : Nat} {p : Block} {w : Nat × List Byte} : w ∈ e.sampleWrites k p ↔
   ∃ r < (e.geometry k).h, ∃ c < (e.geometry k).w, w = (e.dstAddr ((e.geometry k).y0 + r) ((e.geometry k).x0 + c), [sampleByte (p.entry r c)]) := by
  unfold Engine.sampleWrites
  simp only [List.mem_flatMap, List.mem_map, List.mem_range]
  constructor
  · rintro ⟨r, hr, c, hc, h⟩; exact ⟨r, hr, c, hc, h.symm⟩
  · rintro ⟨r, hr, c, hc, h⟩; exact ⟨r, hr, c, hc, h.symm⟩

/-- An archive entry lies in its slot, and the slot in the archive. -/
theorem arcAddr_bound {e : Engine} {k u v : Nat} (hk : k < e.nbx * e.nby) (hu : u < e.n) (hv : v < e.n) :
    e.arcBase.toNat + k * 2 * e.n * e.n ≤ e.arcAddr k u v ∧
    e.arcAddr k u v + 2 ≤ e.arcBase.toNat + k * 2 * e.n * e.n + 2 * e.n * e.n ∧
    e.arcBase.toNat + k * 2 * e.n * e.n + 2 * e.n * e.n ≤ e.arcBase.toNat + e.arcBytes := by
  have h1 : (u * e.n + v) + 1 ≤ e.n * e.n := by
    calc u * e.n + v + 1 ≤ u * e.n + e.n := by omega
      _ = (u+1) * e.n := by ring
      _ ≤ e.n * e.n := Nat.mul_le_mul_right _ hu
  have h2 : (k + 1) * (2 * e.n * e.n) ≤ (e.nbx * e.nby) * (2 * e.n * e.n) := Nat.mul_le_mul_right _ hk
  have h3 : e.arcBytes = (e.nbx * e.nby) * (2 * e.n * e.n) := by unfold Engine.arcBytes; ring
  have h4 : k * 2 * e.n * e.n = k * (2 * e.n * e.n) := by ring
  have h5 : 2 * e.n * e.n = 2 * (e.n * e.n) := by ring
  unfold Engine.arcAddr
  rw [h3, h4]
  rw [Nat.add_mul] at h2
  omega

/-- Two entries of a slot do not overlap. -/
theorem arcAddr_inj {e : Engine} {k u v u' v' : Nat} (hv : v < e.n) (hv' : v' < e.n) {i j : Nat} (hi : i < 2) (hj : j < 2)
   (h : e.arcAddr k u v + i = e.arcAddr k u' v' + j) : u = u' ∧ v = v' := by
  unfold Engine.arcAddr at h
  have h1 : u * e.n + v = u' * e.n + v' := by omega
  have := plane_inj (base := 0) (le_refl e.n) hv hv' (by omega : 0 + u * e.n + v = 0 + u' * e.n + v')
  exact this

theorem range_split {n r : Nat} (h : r < n) : List.range n = List.range r ++ r :: (List.range' (r+1) (n - r - 1)) := by
  rw [List.range_eq_range', List.range_eq_range', show n = r + ((n - r - 1) + 1) by omega, ← List.range'_append_1]
  congr 1
  simp [List.range'_succ]

/-- An element of a double range splits the list, and what follows comes from other indices. -/
theorem flat_split {α : Type} {n m r c : Nat} (hr : r < n) (hc : c < m) (f : Nat → Nat → α) :
    ∃ pre post, (List.range n).flatMap (fun r => (List.range m).map fun c => f r c) = pre ++ f r c :: post ∧
      ∀ x ∈ post, ∃ r' < n, ∃ c' < m, (r', c') ≠ (r, c) ∧ x = f r' c' := by
  refine ⟨(List.range r).flatMap (fun r => (List.range m).map fun c => f r c) ++ (List.range c).map (fun c => f r c),
    (List.range' (c+1) (m - c - 1)).map (fun c => f r c) ++ (List.range' (r+1) (n - r - 1)).flatMap (fun r => (List.range m).map fun c => f r c), ?_, ?_⟩
  · rw [range_split hr, List.flatMap_append, List.flatMap_cons]
    have : (List.range m).map (fun c => f r c) = (List.range c).map (fun c => f r c) ++ f r c :: (List.range' (c+1) (m - c - 1)).map (fun c => f r c) := by
      rw [range_split hc]; simp
    rw [this]; simp
  · intro x hx
    rcases List.mem_append.1 hx with hx | hx
    · obtain ⟨c', h, rfl⟩ := List.mem_map.1 hx
      rw [List.mem_range'_1] at h
      exact ⟨r, hr, c', by omega, by simp; omega, rfl⟩
    · obtain ⟨r', h, hx⟩ := List.mem_flatMap.1 hx
      obtain ⟨c', h', rfl⟩ := List.mem_map.1 hx
      rw [List.mem_range'_1] at h
      rw [List.mem_range] at h'
      exact ⟨r', by omega, c', h', by simp; omega, rfl⟩

/-- A write to one entry of the store. -/
theorem put_entry (q : Store) (i j i' j' : Fin 32) (v : Step) : (q.put i j v).entry i' j' = if i' = i ∧ j' = j then v else q.entry i' j' := by
  unfold Store.entry Store.put
  by_cases hi : i' = i
  · subst hi
    by_cases hj : j' = j
    · subst hj; simp
    · have : (j:Nat) ≠ j' := fun h => hj (Fin.ext h.symm)
      simp [hj, this]
  · have : (i:Nat) ≠ i' := fun h => hi (Fin.ext h.symm)
    simp [hi, this]

end Sys2Proof.Machine
end

