-- ==== Sys2Proof/Laws/Engine.lean ====
section
/-! SUPPORT. Inversion lemmas: everything an engine step, a register access and an event can do. -/

namespace Sys2Proof.Machine

/-- The ways a PROC block step can end in a next state. -/
theorem procBlock_cases {s t : State} (h : procBlock s = .next t) :
    (∃ a, s.readAll 0 (s.eng.blockReads s.eng.udone.toNat) = .refused a ∧
      t = { s with tick := s.tick + 1, eng := s.eng.raise .busRead (BitVec.ofNat 32 a) }) ∨
    (∃ bytes q p, s.readAll 0 (s.eng.blockReads s.eng.udone.toNat) = .ok bytes ∧
      q = codeBlock (s.eng.geometry s.eng.udone.toNat).h (s.eng.geometry s.eng.udone.toNat).w s.eng.qmAt s.eng.scale bytes ∧
      p = decodeBlock (s.eng.geometry s.eng.udone.toNat).h (s.eng.geometry s.eng.udone.toNat).w s.eng.qmAt s.eng.scale q ∧
      ((∃ u a, ({ s with tick := s.tick + 1 } : State).writeAll
            (s.eng.slotWrites s.eng.udone.toNat q ++ s.eng.sampleWrites s.eng.udone.toNat p) = .refused u a ∧
          t = u.setEng (s.eng.raise .busWrite (BitVec.ofNat 32 a))) ∨
       (∃ u, ({ s with tick := s.tick + 1 } : State).writeAll
            (s.eng.slotWrites s.eng.udone.toNat q ++ s.eng.sampleWrites s.eng.udone.toNat p) = .ok u ∧
          t = u.setEng (s.eng.endBlock bytes p)))) := by
  unfold procBlock at h
  dsimp only at h
  split at h
  · cases h
  · next a hr => cases h; exact .inl ⟨a, hr, rfl⟩
  · next bytes hr =>
    refine .inr ⟨bytes, _, _, hr, rfl, rfl, ?_⟩
    split at h
    · cases h
    · next u a hw => cases h; exact .inl ⟨u, a, hw, rfl⟩
    · next u hw => cases h; exact .inr ⟨u, hw, rfl⟩

/-- The ways a MACC row step can end in a next state. -/
theorem maccRow_cases {s t : State} (h : maccRow s = .next t) :
    (∃ a, s.readAll 0 (s.eng.rowReads s.eng.udone.toNat) = .refused a ∧
      t = { s with tick := s.tick + 1, eng := s.eng.raise .busRead (BitVec.ofNat 32 a) }) ∨
    (∃ bytes, s.readAll 0 (s.eng.rowReads s.eng.udone.toNat) = .ok bytes ∧
      t = { s with tick := s.tick + 1, eng := (s.eng.accumulate (pairError bytes) s.eng.width.toNat).countUnit }) := by
  unfold maccRow at h
  dsimp only at h
  split at h
  · cases h
  · next a hr => cases h; exact .inl ⟨a, hr, rfl⟩
  · next bytes hr => cases h; exact .inr ⟨bytes, hr, rfl⟩

/-- The five lines of rule R160, an idle engine first. -/
theorem engineStep_cases {s t : State} (h : engineStep s = .next t) :
    (s.eng.status.busy = false ∧ t = s) ∨
    (s.eng.status.busy = true ∧ s.eng.creq = true ∧ t = s.setEng s.eng.cancel) ∨
    (s.eng.status.busy = true ∧ s.eng.creq = false ∧ s.eng.udone = s.eng.utotal ∧ t = s.setEng s.eng.complete) ∨
    (s.eng.status.busy = true ∧ s.eng.creq = false ∧ s.eng.udone ≠ s.eng.utotal ∧ s.eng.curop = 0x01#8 ∧
      procBlock s = .next t) ∨
    (s.eng.status.busy = true ∧ s.eng.creq = false ∧ s.eng.udone ≠ s.eng.utotal ∧ s.eng.curop ≠ 0x01#8 ∧
      maccRow s = .next t) := by
  unfold engineStep at h
  cases hb : s.eng.status.busy <;> simp only [hb, Bool.not_false, Bool.not_true, if_true, Bool.false_eq_true, if_false] at h
  · cases h; exact .inl ⟨rfl, rfl⟩
  · cases hc : s.eng.creq <;> simp only [hc, if_true, Bool.false_eq_true, if_false] at h
    · split at h
      · next hu => cases h; exact .inr (.inr (.inl ⟨rfl, rfl, hu, rfl⟩))
      · next hu =>
        split at h
        · next ho => exact .inr (.inr (.inr (.inl ⟨rfl, rfl, hu, ho, h⟩)))
        · next ho => exact .inr (.inr (.inr (.inr ⟨rfl, rfl, hu, ho, h⟩)))
    · cases h; exact .inr (.inl ⟨rfl, rfl, rfl⟩)

/-- What an engine step leaves alone, whatever it does: all of the platform but the engine in focus, memory with its races, and the counter of free values. -/
theorem engineStep_frame {s t : State} (h : engineStep s = .next t) :
    t = { s with eng := t.eng, mem := t.mem, past := t.past, raced := t.raced, tick := t.tick } := by
  rcases engineStep_cases h with ⟨-, rfl⟩ | ⟨-, -, rfl⟩ | ⟨-, -, -, rfl⟩ | ⟨-, -, -, -, h⟩ | ⟨-, -, -, -, h⟩
  · rfl
  · rfl
  · rfl
  · rcases procBlock_cases h with ⟨a, -, rfl⟩ | ⟨bytes, q, p, -, -, -, ⟨u, a, hw, rfl⟩ | ⟨u, hw, rfl⟩⟩
    · rfl
    · rw [writeAll_refused_frame hw]; rfl
    · rw [writeAll_frame hw]; rfl
  · rcases maccRow_cases h with ⟨a, -, rfl⟩ | ⟨bytes, -, rfl⟩ <;> rfl

/-- What a block step writes back of unit `k` is the round trip of its samples (rules R118, R110). -/
theorem decoded_eq_roundTrip (e : Engine) (m : Memory) (k : Nat) : e.decoded m k =
    roundTrip (e.geometry k).h (e.geometry k).w e.qmAt e.scale (e.blockBytes m k) := rfl

/-- An engine step changes no parameter register and no entry of QM. -/
theorem engineStep_sameOperands {s t : State} (h : engineStep s = .next t) : s.eng.sameOperands t.eng := by
  rcases engineStep_cases h with ⟨-, rfl⟩ | ⟨-, -, rfl⟩ | ⟨-, -, -, rfl⟩ | ⟨-, -, -, -, h⟩ | ⟨-, -, -, -, h⟩
  · exact sameOperands_refl _
  · exact sameOperands_refl _
  · exact sameOperands_refl _
  · rcases procBlock_cases h with ⟨a, -, rfl⟩ | ⟨bytes, q, p, -, -, -, ⟨u, a, -, rfl⟩ | ⟨u, -, rfl⟩⟩
    · exact sameOperands_refl _
    · exact sameOperands_refl _
    · exact sameOperands_endBlock _ _ _
  · rcases maccRow_cases h with ⟨a, -, rfl⟩ | ⟨bytes, -, rfl⟩ <;> exact sameOperands_refl _

/-- Every command is a host step that touches only its engine and the ownership of regions. -/
theorem exec_frame (i : Instr) (s : State) :
    ∃ e rs vs, exec i s = .next { s with eng := e, owned := rs, rivals := vs } := by
  cases i with
  | nop => exact ⟨_, _, _, congrArg _ (accept_frame s _)⟩
  | proc acc => exact ⟨_, _, _, congrArg _ (accept_frame s _)⟩
  | macc => exact ⟨_, _, _, congrArg _ (accept_frame s _)⟩
  | mclr => exact ⟨_, _, _, congrArg _ (accept_frame s _)⟩
  | mfin => exact ⟨_, _, _, congrArg _ (accept_frame s _)⟩
  | abort =>
    show ∃ e rs vs, execAbort s = _
    unfold execAbort
    split
    · exact ⟨_, s.owned, s.rivals, rfl⟩
    · exact ⟨s.eng, s.owned, s.rivals, rfl⟩
  | srst => exact ⟨Engine.reset, s.owned, s.rivals, rfl⟩

/-- A write to CMD likewise, whatever the word. -/
theorem issue_frame (w : Word) (s : State) :
    ∃ e rs vs, issue w s = .next { s with eng := e, owned := rs, rivals := vs } := by
  unfold issue
  split
  · exact exec_frame _ s
  · exact ⟨_, _, _, congrArg _ (accept_frame s _)⟩

/-- A register access changes only the engine in focus, what the host has read, and the ownership of regions. -/
theorem hostAccess_frame {a : HostAccess} {s t : State} (h : hostAccess a s = .next t) :
    t = { s with eng := t.eng, rdata := t.rdata, owned := t.owned, rivals := t.rivals } := by
  unfold hostAccess at h
  split at h
  · split at h
    · cases h
      unfold hostRead
      dsimp only
      split <;> rfl
    · cases h
  · split at h
    · unfold hostWrite at h
      split at h
      · obtain ⟨e, rs, vs, he⟩ := issue_frame _ s
        rw [he] at h; cases h; rfl
      · cases h; rfl
    · cases h

/-! ### Commands -/

/-- The three ways an issued word ends. -/
theorem accept_cases (s : State) (body : Body) :
    (s.eng.status.busy = true ∧ s.accept body = s.setEng s.eng.reject) ∨
    (s.eng.status.busy = false ∧ ∃ e rs, body s.eng.clearOutcome = .ok (e, rs) ∧ s.accept body = (s.setEng e).claim rs) ∨
    (s.eng.status.busy = false ∧ ∃ x, body s.eng.clearOutcome = .error x ∧ s.accept body = s.setEng (s.eng.clearOutcome.raise x 0#32)) := by
  cases hb : s.eng.status.busy
  · right
    cases h : body s.eng.clearOutcome with
    | ok p => exact .inl ⟨rfl, p.1, p.2, rfl, accept_ok hb h⟩
    | error x => exact .inr ⟨rfl, x, rfl, accept_error hb h⟩
  · exact .inl ⟨rfl, accept_busy hb body⟩

/-- What an accepted PROC does. -/
theorem procBody_ok {acc : Bool} {e e' : Engine} {rs : List Region} (h : procBody acc e = .ok (e', rs)) :
    e.procLegal ∧ e' = { e with
        utotal := BitVec.ofNat 32 (e.nbx * e.nby)
        udone := 0#32
        curop := 0x01#8
        accf := acc
        creq := false
        status := { e.status with busy := true, mvalid := e.status.mvalid && !acc } } ∧ rs = [e.srcRegion, e.dstRegion true, e.arcRegion] := by
  unfold procBody at h
  split at h
  · cases h
  · next hn => cases h; exact ⟨(checkProc_none e).1 hn, rfl, rfl⟩

/-- What an accepted MACC does. -/
theorem maccBody_ok {e e' : Engine} {rs : List Region} (h : maccBody e = .ok (e', rs)) :
    e.planesLegal ∧ e' = { e with
        utotal := e.height
        udone := 0#32
        curop := 0x02#8
        accf := false
        creq := false
        status := { e.status with busy := true, mvalid := false } } ∧ rs = [e.srcRegion, e.dstRegion false] := by
  unfold maccBody at h
  split at h
  · cases h
  · next hn => cases h; exact ⟨(checkMacc_none e).1 hn, rfl, rfl⟩

/-- What a successful MFIN does. -/
theorem mfinBody_ok {e e' : Engine} {rs : List Region} (h : mfinBody e = .ok (e', rs)) :
    e' = (Engine.finish { e with
        psnr := e.psnrResult
        ratio := BitVec.ofNat 32 (ratioq e.level.toNat)
        status := { e.status with mvalid := true } }) ∧ rs = [] := by
  unfold mfinBody at h
  split at h
  · cases h
  · cases h; exact ⟨rfl, rfl⟩

/-- Everything a command can do to its engine. -/
theorem exec_cases {i : Instr} {s t : State} (h : exec i s = .next t) :
    (i = .srst ∧ t = s.setEng Engine.reset) ∨
    (i = .abort ∧ (s.eng.status.busy = true ∧ t = s.setEng { s.eng with creq := true } ∨ s.eng.status.busy = false ∧ t = s)) ∨
    (s.eng.status.busy = true ∧ t = s.setEng s.eng.reject) ∨
    (s.eng.status.busy = false ∧ i ≠ .srst ∧ i ≠ .abort ∧ ∃ x, t = s.setEng (s.eng.clearOutcome.raise x 0#32)) ∨
    (s.eng.status.busy = false ∧ i = .nop ∧ t = s.setEng s.eng.clearOutcome.finish) ∨
    (s.eng.status.busy = false ∧ i = .mclr ∧ t = s.setEng s.eng.clearOutcome.clearMetrics.finish) ∨
    (s.eng.status.busy = false ∧ i = .mfin ∧ ∃ e, mfinBody s.eng.clearOutcome = .ok (e, []) ∧ t = s.setEng e) ∨
    (s.eng.status.busy = false ∧ i = .macc ∧ ∃ e rs, maccBody s.eng.clearOutcome = .ok (e, rs) ∧ t = (s.setEng e).claim rs) ∨
    (s.eng.status.busy = false ∧ ∃ acc, i = .proc acc ∧ ∃ e rs, procBody acc s.eng.clearOutcome = .ok (e, rs) ∧ t = (s.setEng e).claim rs) := by
  have key : ∀ body, s.accept body = t → i ≠ .srst → i ≠ .abort →
      (s.eng.status.busy = true ∧ t = s.setEng s.eng.reject) ∨
      (s.eng.status.busy = false ∧ i ≠ .srst ∧ i ≠ .abort ∧ ∃ x, t = s.setEng (s.eng.clearOutcome.raise x 0#32)) ∨
      (s.eng.status.busy = false ∧ ∃ e rs, body s.eng.clearOutcome = .ok (e, rs) ∧ t = (s.setEng e).claim rs) := by
    rintro body rfl h1 h2
    rcases accept_cases s body with ⟨h, e⟩ | ⟨hb, e, rs, h, e'⟩ | ⟨hb, x, h, e⟩
    · exact .inl ⟨h, e⟩
    · exact .inr (.inr ⟨hb, e, rs, h, e'⟩)
    · exact .inr (.inl ⟨hb, h1, h2, x, e⟩)
  cases i with
  | srst => cases h; exact .inl ⟨rfl, rfl⟩
  | abort =>
    refine .inr (.inl ⟨rfl, ?_⟩)
    change execAbort s = _ at h
    unfold execAbort at h
    split at h
    · next hb => cases h; exact .inl ⟨hb, rfl⟩
    · next hb => cases h; exact .inr ⟨by simpa using hb, rfl⟩
  | nop =>
    rcases key _ (by injection h) (by simp) (by simp) with h | h | ⟨hb, e, rs, he, ht⟩
    · exact .inr (.inr (.inl h))
    · exact .inr (.inr (.inr (.inl h)))
    · cases he; rw [claim_nil] at ht
      exact .inr (.inr (.inr (.inr (.inl ⟨hb, rfl, ht⟩))))
  | mclr =>
    rcases key _ (by injection h) (by simp) (by simp) with h | h | ⟨hb, e, rs, he, ht⟩
    · exact .inr (.inr (.inl h))
    · exact .inr (.inr (.inr (.inl h)))
    · cases he; rw [claim_nil] at ht
      exact .inr (.inr (.inr (.inr (.inr (.inl ⟨hb, rfl, ht⟩)))))
  | mfin =>
    rcases key _ (by injection h) (by simp) (by simp) with h | h | ⟨hb, e, rs, he, ht⟩
    · exact .inr (.inr (.inl h))
    · exact .inr (.inr (.inr (.inl h)))
    · obtain ⟨-, rfl⟩ := mfinBody_ok he
      rw [claim_nil] at ht
      exact .inr (.inr (.inr (.inr (.inr (.inr (.inl ⟨hb, rfl, e, he, ht⟩))))))
  | macc =>
    rcases key _ (by injection h) (by simp) (by simp) with h | h | ⟨hb, e, rs, he, ht⟩
    · exact .inr (.inr (.inl h))
    · exact .inr (.inr (.inr (.inl h)))
    · exact .inr (.inr (.inr (.inr (.inr (.inr (.inr (.inl ⟨hb, rfl, e, rs, he, ht⟩)))))))
  | proc acc =>
    rcases key _ (by injection h) (by simp) (by simp) with h | h | ⟨hb, e, rs, he, ht⟩
    · exact .inr (.inr (.inl h))
    · exact .inr (.inr (.inr (.inl h)))
    · exact .inr (.inr (.inr (.inr (.inr (.inr (.inr (.inr ⟨hb, acc, rfl, e, rs, he, ht⟩)))))))

/-- The error entry of an idle engine, written out. -/
theorem raise_idle {s : State} (hb : s.eng.status.busy = false) (x : CmdError) : s.setEng (s.eng.clearOutcome.raise x 0#32) =
  { s with eng := { s.eng with
        status := { s.eng.status with done := false, err := true, canc := false }
        errinfo := x.info, faddr := 0#32, curop := 0#8, accf := false, creq := false } } := by
  simp only [State.setEng, Engine.raise, Engine.clearOutcome, Status.clearOutcome, hb]

theorem info_ne (x : CmdError) : x.info ≠ 0#32 := by cases x <;> decide

theorem info_lt (x : CmdError) : x.info.toNat < 2^16 := by cases x <;> decide

/-! ### Events -/

theorem withEngine_next {s t : State} {k : Nat} {f} (h : s.withEngine k f = .next t) : ∃ u, s.focus k = some u ∧ f u = .next t := by
  unfold State.withEngine at h
  split at h
  · next u hu => exact ⟨u, hu, h⟩
  · cases h

/-- Everything a step can be. -/
theorem step_cases {s t : State} (h : step s = .next t) :
    (s.inputs = [] ∧ s.busyEngine = none ∧ t = s) ∨
    (∃ a rest, s.inputs = .memRead a :: rest ∧ hostLoad a { s with inputs := rest } = .next t) ∨
    (∃ a b rest, s.inputs = .memWrite a b :: rest ∧ hostStore a b { s with inputs := rest } = .next t) ∨
    (∃ k ins u, ({ s with inputs := ins } : State).focus k = some u ∧
      ((∃ a rest, s.inputs = .host k a :: rest ∧ ins = rest ∧ hostAccess a u = .next t) ∨
        (((∃ rest, s.inputs = .engine k :: rest) ∨ s.inputs = [] ∧ s.busyEngine = some k) ∧ engineStep u = .next t) ∨
        ((∃ rest, s.inputs = .reset k :: rest) ∧ t = u.setEng Engine.reset))) := by
  unfold step runNext at h
  split at h
  · next hin =>
    unfold runIdle at h
    split at h
    · next k hk =>
      obtain ⟨u, hu, h⟩ := withEngine_next h
      exact .inr (.inr (.inr ⟨k, s.inputs, u, hu, .inr (.inl ⟨.inr ⟨hin, hk⟩, h⟩)⟩))
    · next hk => cases h; exact .inl ⟨hin, hk, rfl⟩
  · next ev rest hin =>
    cases ev with
    | host k a =>
      obtain ⟨u, hu, h⟩ := withEngine_next h
      exact .inr (.inr (.inr ⟨k, rest, u, hu, .inl ⟨a, rest, hin, rfl, h⟩⟩))
    | memRead a => exact .inr (.inl ⟨a, rest, hin, h⟩)
    | memWrite a b => exact .inr (.inr (.inl ⟨a, b, rest, hin, h⟩))
    | engine k =>
      obtain ⟨u, hu, h⟩ := withEngine_next h
      exact .inr (.inr (.inr ⟨k, rest, u, hu, .inr (.inl ⟨.inl ⟨rest, hin⟩, h⟩)⟩))
    | reset k =>
      obtain ⟨u, hu, h⟩ := withEngine_next h
      cases h
      exact .inr (.inr (.inr ⟨k, rest, u, hu, .inr (.inr ⟨⟨rest, hin⟩, rfl⟩)⟩))

theorem hostLoad_cases {s t : State} {a : Nat} (h : hostLoad a s = .next t) :
   t = { s with rdata := t.rdata, tick := s.tick + 1 } := by
  unfold hostLoad at h; split at h <;> cases h; rfl

theorem hostStore_cases {s t : State} {a : Nat} {b : Byte} (h : hostStore a b s = .next t) :
   t = s.store none a b ∧ a < 2^32 := by
  unfold hostStore at h; split at h
  · next h1 => cases h; exact ⟨rfl, (inSpace_iff a).1 h1⟩
  · cases h

theorem engines_of_frame {s t : State} {e : Engine} (h1 : t.before = s.before) (h2 : t.after = s.after) (h3 : t.eng = e) :
    t.engines = s.engines.set s.idx e := by
  rw [← engines_setEng]; simp [State.engines, h1, h2, h3]

theorem engineStep_engines {s t : State} (h : engineStep s = .next t) : t.engines = s.engines.set s.idx t.eng := by
  have := engineStep_frame h
  exact engines_of_frame (by rw [this]) (by rw [this]) rfl

theorem hostAccess_engines {s t : State} {a} (h : hostAccess a s = .next t) : t.engines = s.engines.set s.idx t.eng := by
  have := hostAccess_frame h
  exact engines_of_frame (by rw [this]) (by rw [this]) rfl

end Sys2Proof.Machine
end

