-- ==== Sys2Proof/Laws/PerInstr.lean ====
section
/-! SUPPORT. Statements about every command, one lemma per constructor: its word is well formed and lies in its row of the opcode table (rule R66). -/

namespace Sys2Proof.Laws.TableRow

/-- The mask column of the opcode table. -/
def mask : Instr → Word
  | .proc _ => 0xFFFFFEFF#32
  | .nop => 0xFFFFFFFF#32
  | .macc => 0xFFFFFFFF#32
  | .mclr => 0xFFFFFFFF#32
  | .mfin => 0xFFFFFFFF#32
  | .abort => 0xFFFFFFFF#32
  | .srst => 0xFFFFFFFF#32

/-- The match column of the opcode table. -/
def pattern : Instr → Word
  | .nop => 0x00000000#32
  | .proc _ => 0x00000001#32
  | .macc => 0x00000002#32
  | .mclr => 0x00000003#32
  | .mfin => 0x00000004#32
  | .abort => 0x00000005#32
  | .srst => 0x00000006#32

/-- The command is well formed, its word carries its fields, and the word matches its row of the table. -/
def Statement (i : Instr) : Prop :=
  i.wf = true ∧ fieldsOf (encode i) = i.fields ∧ encode i &&& mask i = pattern i

theorem nop : Statement .nop := by unfold Statement; decide
theorem proc (acc : Bool) : Statement (.proc acc) := by cases acc <;> (unfold Statement; decide)
theorem macc : Statement .macc := by unfold Statement; decide
theorem mclr : Statement .mclr := by unfold Statement; decide
theorem mfin : Statement .mfin := by unfold Statement; decide
theorem abort : Statement .abort := by unfold Statement; decide
theorem srst : Statement .srst := by unfold Statement; decide

end Sys2Proof.Laws.TableRow
end

