-- ==== Sys2Proof/Tests/Slice0.lean ====
section
/-! SUPPORT. Tests: what WellFormed refuses, the words of 30_encoding.md, the vectors of 95_test_vectors.md, and for every obligation with hypotheses a state and operands that meet them. -/

namespace Sys2Proof.Tests

open Sys2Proof.Machine

/-! ### Ill-formed terms -/

theorem test_wf_refuses_opcode : Fields.wf ⟨7#8, false, 0#23⟩ = false := by decide
theorem test_wf_refuses_rsv : Fields.wf ⟨1#8, true, 1#23⟩ = false := by decide
theorem test_wf_refuses_acc : Fields.wf ⟨2#8, true, 0#23⟩ = false := by decide
theorem test_wf_accepts : Fields.wf ⟨1#8, true, 0#23⟩ = true ∧ ∀ acc, (Instr.proc acc).wf = true := by decide
theorem test_wf_refuses_width : HostAccess.wf (.read 16 0x018) = false := by decide
theorem test_wf_refuses_unaligned : HostAccess.wf (.write 32 0x019 0#32) = false := by decide
theorem test_wf_refuses_outside : HostAccess.wf (.read 32 0x2000) = false := by decide

/-! ### Words, bit by bit from rules R65 and R66 (the table of vector V12) -/

theorem test_decode_nop : decode 0b00000000000000000000000000000000#32 = .ok .nop := by decide
theorem test_decode_proc : decode 0b00000000000000000000000000000001#32 = .ok (.proc false) := by decide
theorem test_decode_proc_acc : decode 0b00000000000000000000000100000001#32 = .ok (.proc true) := by decide
theorem test_decode_macc : decode 0b00000000000000000000000000000010#32 = .ok .macc := by decide
theorem test_decode_mclr : decode 0b00000000000000000000000000000011#32 = .ok .mclr := by decide
theorem test_decode_mfin : decode 0b00000000000000000000000000000100#32 = .ok .mfin := by decide
theorem test_decode_abort : decode 0b00000000000000000000000000000101#32 = .ok .abort := by decide
theorem test_decode_srst : decode 0b00000000000000000000000000000110#32 = .ok .srst := by decide
theorem test_decode_opcode_errors :
    [0x00000007#32, 0x000000FF#32, 0x00000107#32, 0xFFFFFFFF#32].map decode = List.replicate 4 (.error .opcode) := by decide
theorem test_decode_reserved_errors :
    [0x00000100#32, 0x00000102#32, 0x00000105#32, 0x00000106#32, 0x00000201#32, 0x80000001#32, 0x00010000#32].map decode
      = List.replicate 7 (.error .reserved) := by decide
theorem test_encode : ([.nop, .proc false, .proc true, .macc, .mclr, .mfin, .abort, .srst] : List Instr).map encode
    = [0#32, 1#32, 0x101#32, 2#32, 3#32, 4#32, 5#32, 6#32] := by decide
theorem test_table_word : decodeTableWord 32 0x101 = some (.proc true) ∧ decodeTableWord 32 7 = none := by decide

/-! ### Small states -/

/-- A store of 1.0 everywhere. -/
def ones : Store := Vector.replicate 32 (Vector.replicate 32 0x0100#16)

/-- Operands of a one-sample plane. -/
def tinyEngine : Engine :=
  { Engine.reset with
    bsize := 4#32, level := 100#32, width := 1#32, height := 1#32, srcBase := 0x10#32, srcStride := 1#32
    dstBase := 0x20#32, dstStride := 1#32, arcBase := 0x30#32, qm := ones }

/-- One source sample of value 200. -/
def tiny : State := { State.reset with eng := tinyEngine, mem := [(0x10, 200#8)] }

/-- Its PROC in flight, before the block step. -/
def procBusy (acc : Bool) : State :=
  { tiny with eng := { tinyEngine with
      status := { Status.reset with busy := true }, utotal := 1#32, curop := 0x01#8, accf := acc } }

/-- Its MACC in flight, before the row step. -/
def maccBusy : State :=
  { tiny with eng := { tinyEngine with
      status := { Status.reset with busy := true }, utotal := 1#32, curop := 0x02#8 } }

/-- The state base of vector V13. -/
def v13 : Engine :=
  { Engine.reset with
    bsize := 8#32, level := 50#32, width := 16#32, height := 16#32, srcBase := 0x1000#32, srcStride := 16#32
    dstBase := 0x2000#32, dstStride := 16#32, arcBase := 0x3000#32, qm := ones }

/-- STATUS, ERRINFO and UTOTAL after the next step, when the host writes this word. -/
def after (s : State) (w : Nat) : Option (Nat × Nat × Nat) :=
  (nextState (step (s.withFetchWord 32 w))).map fun t =>
    (t.eng.status.word.toNat, t.eng.errinfo.toNat, t.eng.utotal.toNat)

/-- The same for an engine in an otherwise reset platform. -/
def afterEng (e : Engine) (w : Nat) : Option (Nat × Nat × Nat) := after { State.reset with eng := e } w

/-! ### Commands -/

-- Vector V12: from reset, one word.
theorem test_v12 : [0, 1, 0x101, 2, 3, 4, 5, 6, 7, 0x106].map (after State.reset) =
    [some (0x02, 0, 0), some (0x04, 0x0301, 0), some (0x04, 0x0301, 0), some (0x04, 0x0102, 0), some (0x02, 0, 0),
     some (0x04, 0x0401, 0), some (0, 0, 0), some (0, 0, 0), some (0x04, 0x0101, 0), some (0x04, 0x0201, 0)] := by decide

-- Vector V13: acceptance and its checks, for PROC and for MACC.
theorem test_v13_none : afterEng v13 1 = some (1, 0, 4) ∧ afterEng v13 2 = some (1, 0, 16) := by decide
theorem test_v13_bsize : afterEng { v13 with bsize := 5#32 } 1 = some (4, 0x0301, 0) ∧
    afterEng { v13 with bsize := 5#32 } 2 = some (1, 0, 16) := by decide
theorem test_v13_level : afterEng { v13 with level := 101#32 } 1 = some (4, 0x0401, 0) ∧
    afterEng { v13 with level := 0#32, width := 0#32 } 1 = some (4, 0x0401, 0) := by decide
theorem test_v13_dims : afterEng { v13 with width := 0#32, height := 0#32 } 2 = some (4, 0x0102, 0) ∧
    afterEng { v13 with height := 0#32 } 1 = some (4, 0x0202, 0) ∧
    afterEng { v13 with width := 65536#32 } 1 = some (4, 0x0302, 0) := by decide
theorem test_v13_stride_align : afterEng { v13 with dstStride := 15#32 } 2 = some (4, 0x0501, 0) ∧
    afterEng { v13 with arcBase := 0x3001#32 } 1 = some (4, 0x0601, 0) ∧
    afterEng { v13 with arcBase := 0x3001#32 } 2 = some (1, 0, 16) := by decide
theorem test_v13_range : afterEng { v13 with srcBase := 0xFFFFFF00#32 } 1 = some (1, 0, 4) ∧
    afterEng { v13 with dstBase := 0xFFFFFF01#32 } 1 = some (4, 0x0701, 0) ∧
    afterEng { v13 with arcBase := 0xFFFFFE00#32 } 1 = some (1, 0, 4) ∧
    afterEng { v13 with arcBase := 0xFFFFFE02#32 } 1 = some (4, 0x0701, 0) := by decide
theorem test_v13_qm : afterEng { v13 with qm := v13.qm.put 7 7 0x00FF#16 } 1 = some (4, 0x0801, 0) ∧
    afterEng { v13 with qm := v13.qm.put 0 8 0#16 } 1 = some (1, 0, 4) := by decide

-- Rule R143 and vector V13's last line: the errors and the result of MFIN; MVALID is bit 5, MOVF bit 6.
theorem test_mfin_errors : afterEng { v13 with cnt := 0#64 } 4 = some (4, 0x0104, 0) ∧
    afterEng { v13 with cnt := 1#64, status := { Status.reset with movf := true } } 4 = some (0x44, 0x0204, 0) := by decide
theorem test_mfin_result : (nextState (exec .mfin { State.reset with eng :=
      { v13 with level := 100#32, sse := 0#64, cnt := 64#64 } })).map
    (fun t => (t.eng.status.word, t.eng.psnr, t.eng.ratio)) = some (0x22#32, 0x0001FFFF#32, 0x00010000#32) := by decide

-- Rule R164 and program P4: ABORT, then the cancellation step.
theorem test_abort : after (procBusy false) 5 = some (1, 0, 1) ∧
    (nextState (engineStep { procBusy false with eng := { (procBusy false).eng with creq := true } })).map
      (fun t => (t.eng.status.word, t.eng.udone)) = some (8#32, 0#32) := by decide
-- Rules R157 and R165: other words while busy.
theorem test_busy_words : after (procBusy false) 0 = some (0x11, 0, 1) ∧ after (procBusy false) 6 = some (0, 0, 0) := by decide
-- Rule R142.
theorem test_mclr : (nextState (exec .mclr { tiny with eng := { tinyEngine with
      sse := 5#64, cnt := 7#64, psnr := 9#32, status := { Status.reset with movf := true, mvalid := true } } })).map
    (fun t => (t.eng.sse, t.eng.cnt, t.eng.psnr, t.eng.status.word)) = some (0#64, 0#64, 9#32, 2#32) := by decide

/-! ### Engine steps -/

-- Vector V2, the 1 x 1 block: sample 200, q = 72 = 0x48, p = 200; the rest of the slot is 0.
theorem test_v2_block_step : (nextState (engineStep (procBusy true))).map
    (fun t => (t.mem, t.eng.udone, t.eng.sse, t.eng.cnt)) =
    some ([(0x10, 200#8), (0x20, 200#8), (0x30, 0x48#8)], 1#32, 0#64, 1#64) := by decide +kernel
-- Rule R140: one row, 200 against 0.
theorem test_macc_row : (nextState (engineStep maccBusy)).map (fun t => (t.mem, t.eng.udone, t.eng.sse, t.eng.cnt)) =
    some ([(0x10, 200#8)], 1#32, 40000#64, 1#64) := by decide
-- Rules R126 and R160: the completion step, and no step when idle.
theorem test_completion : (nextState (engineStep { maccBusy with eng := { maccBusy.eng with udone := 1#32 } })).map
    (fun t => t.eng.status.word) = some 2#32 ∧ nextState (engineStep tiny) = some tiny := by decide

/-! ### Numerics -/

-- Vector V1.
theorem test_v1_round : [roundDiv 0 7, roundDiv 1 2, roundDiv (-1) 2, roundDiv 3 2, roundDiv (-3) 2, roundDiv 5 2,
    roundDiv (-5) 2, roundDiv (-7) 3, roundDiv 8 3, roundDiv 49 100, roundDiv (-50) 100, roundDiv 250 100]
    = [0, 1, -1, 2, -2, 3, -3, -2, 3, 0, -1, 3] := by decide
-- Vector V2, the 2 x 2 block [[0,255],[255,0]].
theorem test_v2_coded : codeBlock 2 2 (fun _ _ => 0x0100) 10 [0#8, 255#8, 255#8, 0#8] = [[-1, 0], [0, -255]] ∧
    decodeBlock 2 2 (fun _ _ => 0x0100) 10 [[-1, 0], [0, -255]] = [[0, 255], [255, 0]] := by decide
-- Vector V2, the 1 x 3 block [[129,128,128]].
theorem test_v2_strip : fdct2 1 3 [[1, 0, 0]] = [[154976256, 189808640, 109592576]] ∧
    codeBlock 1 3 (fun _ _ => 0x0100) 10 [129#8, 128#8, 128#8] = [[1, 1, 0]] ∧
    decodeBlock 1 3 (fun _ _ => 0x0100) 10 [[1, 1, 0]] = [[129, 129, 128]] := by decide
-- Vector V3.
theorem test_v3_quant : [quant 134217728 0x0100 10, quant (-134217728) 0x0100 10, quant 402653184 0x0100 10,
    quant 134217727 0x0100 10, quant 154639176192 0x1000 109, quant (-154639176192) 0x1000 60,
    quant 1099276746752 0x0100 10, quant 1099276746752 0xFFFF 109] = [1, -1, 2, 0, 3, -6, 4095, 1] := by decide
/-- The samples of vector V7. -/
def v7Samples : List Byte := ([0, 24, 61, 198, 213, 149, 66, 240, 26, 202, 49, 152, 127, 182, 27, 225,
    48, 138, 199, 167, 46, 137, 175, 119, 5, 110, 25, 255, 8, 206, 34, 42,
    32, 157, 168, 167, 237, 90, 131, 240, 83, 250, 12, 68, 177, 16, 113, 7,
    86, 110, 128, 78, 191, 158, 214, 149, 162, 189, 203, 213, 68, 242, 165, 152] : List Nat).map (BitVec.ofNat 8)

/-- Its quantized coefficients as the vector prints them. -/
def v7Coded : Block :=
  [[-10, -114, -117, -81, -19, -94, -64, -140], [-84, -96, -62, -73, 94, -53, 51, -98],
   [95, -66, 33, 25, 33, -5, 81, 10], [-61, -45, -15, 35, 132, -140, -114, 139],
   [49, -50, -78, -45, 72, 46, 86, -84], [-90, -50, -53, 57, -12, 100, 17, 0],
   [-27, 89, 8, -5, -42, 65, -50, 37], [135, -101, 14, -93, 4, 22, 51, 167]]

-- Vector V7, rule R110: q, the value before rounding at (2, 1), and a sample that comes back off by 2 (138 becomes 140).
theorem test_v7_coded : codeBlock 8 8 (fun _ _ => 0x0100) 10 v7Samples = v7Coded := by decide +kernel
theorem test_v7_off_by_two :
    (idct2 8 8 (deqBlock 8 8 (fun _ _ => 0x0100) 10 v7Coded)).entry 2 1 = 7912236213760 ∧ reconstruct 7912236213760 = 140 ∧
    blockError 8 8 v7Samples (decodeBlock 8 8 (fun _ _ => 0x0100) 10 v7Coded) = 6 ∧
    roundTripWithin 2 8 8 (fun _ _ => 0x0100) 10 v7Samples = true ∧
    roundTripWithin 1 8 8 (fun _ _ => 0x0100) 10 v7Samples = false := by decide +kernel
-- Vector V9.
theorem test_v9_psnr : [psnrq 1 1, psnrq 1 64, psnrq 6 70, psnrq 650250 1000, psnrq 65024 1, psnrq 1 (2 ^ 63)]
    = [12321, 16945, 15052, 5120, 0, 60871] := by decide +kernel
-- Vector V18.
theorem test_v18_ratio : [ratioq 1, ratioq 2, ratioq 50, ratioq 99, ratioq 100] = [32932, 33098, 43690, 64887, 65536] := by decide
-- Vector V16.
theorem test_v16_saturate : satadd64 (BitVec.ofNat 64 (2 ^ 64 - 2)) 1 = BitVec.allOnes 64 ∧
    saturates64 (BitVec.ofNat 64 (2 ^ 64 - 2)) 1 = false ∧ saturates64 (BitVec.allOnes 64) 1 = true ∧
    satadd64 5#64 65025 = 65030#64 := by decide

/-! ### The register port and the host's side -/

-- Vector V17.
theorem test_v17_w1c : Status.word (Status.w1c ⟨false, true, false, false, true, false, false⟩ 2#32) = 0x10#32 ∧
    Status.word (Status.w1c ⟨true, false, false, false, false, true, true⟩ 0xFFFFFFFF#32) = 0x61#32 := by decide
theorem test_v17_irq : Engine.irq { tinyEngine with status := ⟨false, true, false, false, true, false, false⟩, ien := 0x10#32 } = true ∧
    Engine.irq { tinyEngine with status := ⟨false, true, false, false, false, false, false⟩, ien := 0x1C#32 } = false := by decide
-- Vector V19.
theorem test_v19_offsets : regOf 0x1080 = some (.qm 1 0) ∧ regOf 0x1004 = some (.qm 0 1) ∧ regOf 0x03C = some .reserved ∧
    regOf 0x2000 = none ∧ regOf 0x1FFC = some (.qm 31 31) := by decide
theorem test_v19_qm_write : (nextState (hostAccess (.write 32 0x1FFC 0xABCD1234#32) tiny)).map
    (fun t => t.eng.regRead (.qm 31 31)) = some 0x1234#32 := by decide
-- Vector V11.
theorem test_v11_radial : [radialUq88 4 0 1, radialUq88 4 1 1, radialUq88 4 3 3, radialUq88 8 0 1, radialUq88 8 7 7,
    radialUq88 16 15 15, radialUq88 32 0 1] = [2519, 3456, 9856, 1387, 11456, 12256, 539] := by decide +kernel

/-! ### Witnesses: states and operands that meet the hypotheses of the obligations, at the ends of the ranges -/

/-- The two in-flight states are good states. -/
theorem procBusy_inv (acc : Bool) : (procBusy acc).Inv := by
  refine ⟨fun e he => ?_, by cases acc <;> decide⟩
  have : e = (procBusy acc).eng := by
    simpa [State.engines, procBusy, tiny, State.reset, Config.numEngines] using he
  subst this
  cases acc <;> exact ⟨by decide, by decide, by decide, by decide, by decide, by decide, by decide⟩

theorem maccBusy_inv : maccBusy.Inv := by
  refine ⟨fun e he => ?_, by decide⟩
  have : e = maccBusy.eng := by simpa [State.engines, maccBusy, tiny, State.reset, Config.numEngines] using he
  subst this
  exact ⟨by decide, by decide, by decide, by decide, by decide, by decide, by decide⟩

/-- Nothing is refused and nothing races in the small states. -/
theorem tiny_quiet (e : Engine) : ({ tiny with eng := e } : State).quiet := by
  refine ⟨rfl, rfl, ?_⟩
  intro c hc; cases hc

theorem witness_WordDecodingOrder : decode 0x00000107#32 = .error .opcode ∧ decode 0x00000106#32 = .error .reserved ∧
    tiny.eng.status.busy = false ∧ maccBusy.eng.status.busy = true := by decide

theorem witness_RegisterMapIsExact : (0x060 % 4 = 0 ∧ 0x060 ≤ 0x060 ∧ 0x060 ≤ 0xFFC) ∧
    0xFFC % 4 = 0 ∧ 0x060 ≤ 0xFFC ∧ 0xFFC ≤ 0xFFC ∧ regOf 0x060 = some .reserved ∧ regOf 0xFFC = some .reserved := by decide

theorem witness_StepRunsTheDecodedCommand :
    (tiny.placeCommand 0#32).inputs = .host 0 (.write 32 0x004 0#32) :: [] ∧
    ({ tiny.placeCommand 0#32 with inputs := [] } : State).focus 0 = some tiny ∧ decode 0#32 = .ok .nop := by decide

theorem witness_busy : maccBusy.eng.status.busy = true ∧
    ({ maccBusy.eng with creq := true } : Engine).creq = true ∧ tiny.eng.status.busy = false := by decide

-- The clauses of MfinResultsAndErrors at LEVEL 0, 101, 1 and 100.
theorem witness_MfinResultsAndErrors :
    ¬ ({ tinyEngine with level := 0#32 } : Engine).levelLegal ∧ ¬ ({ tinyEngine with level := 101#32 } : Engine).levelLegal ∧
    ({ tinyEngine with level := 1#32 } : Engine).levelLegal ∧ tinyEngine.levelLegal ∧ tinyEngine.cnt = 0#64 ∧
    (1#64 : Acc) ≠ 0#64 ∧ tinyEngine.status.movf = false ∧ tinyEngine.status.busy = false := by decide

-- PsnrIsTheLargestExponent: SSE above and at 65025 * CNT; PsnrIsTheFloorOfTheLogarithm.
theorem witness_Psnr : 0 < 65026 ∧ 65025 * 1 < 65026 ∧ 0 < 65025 ∧ 65025 ≤ 65025 * 1 ∧ 0 < 1 ∧
    (0 ≤ 65535 ∧ 10 ^ 0 * 1 ≤ 65025 * 1) := by decide

theorem witness_ProcIsAccepted : tiny.eng.status.busy = false ∧ tiny.eng.procLegal ∧ tiny.eng.planesLegal := by decide

-- Each clause of ProcChecksInOrder and MaccChecksInOrder is met alone: the changes to V13's base state in the test_v13 theorems.
theorem witness_ProcChecksInOrder : v13.status.busy = false ∧ v13.procLegal ∧
    ¬ (({ v13 with bsize := 3#32 } : Engine).n = 4 ∨ ({ v13 with bsize := 3#32 } : Engine).n = 8 ∨
      ({ v13 with bsize := 3#32 } : Engine).n = 16 ∨ ({ v13 with bsize := 3#32 } : Engine).n = 32) := by decide

theorem witness_CommandFrame : ∀ i ∈ ([.nop, .proc false, .proc true, .macc, .mclr, .mfin, .abort, .srst] : List Instr),
    (nextState (exec i tiny)).isSome = true := by decide

-- OneOutcomePerAcceptedCommand: in flight, success, failure.
theorem witness_OneOutcome : (nextState (exec .macc tiny)).map (fun t => t.eng.status.busy) = some true ∧
    (nextState (exec .nop tiny)).map (fun t => t.eng.status.done) = some true ∧
    (nextState (exec .mfin tiny)).map (fun t => t.eng.status.err) = some true := by decide

-- CancellationComesFirst and EngineStepDispatch: all units done, and a unit left, with each operation.
theorem witness_EngineStepDispatch : (procBusy true).eng.status.busy = true ∧ (procBusy true).eng.creq = false ∧
    (procBusy true).eng.udone ≠ (procBusy true).eng.utotal ∧ (procBusy true).eng.curop = 0x01#8 ∧
    maccBusy.eng.curop = 0x02#8 ∧ maccBusy.eng.udone ≠ maccBusy.eng.utotal ∧
    ({ maccBusy.eng with udone := 1#32 } : Engine).udone = maccBusy.eng.utotal := by decide

theorem witness_ProcBlockStepResult (acc : Bool) : (procBusy acc).Inv ∧ (procBusy acc).quiet ∧
    (procBusy acc).eng.status.busy = true ∧ (procBusy acc).eng.creq = false ∧ (procBusy acc).eng.curop = 0x01#8 ∧
    (procBusy acc).eng.udone ≠ (procBusy acc).eng.utotal ∧ (procBusy acc).eng.accf = acc ∧
    ¬ (procBusy acc).eng.inRect 0 ((procBusy acc).eng.arcAddr 0 3 3 + 1) := by
  refine ⟨procBusy_inv acc, tiny_quiet _, rfl, rfl, rfl, ?_, rfl, ?_⟩ <;> cases acc <;> decide

theorem witness_ProcBlockFrame : (nextState (engineStep (procBusy true))).isSome = true := by decide +kernel

-- RefusedReadEndsTheUnit, first read of a block and second read of a row.
theorem witness_RefusedRead :
    (procBusy true).eng.blockReads 0 = [] ++ 0x10 :: [] ∧ maccBusy.eng.rowReads 0 = [0x10] ++ 0x20 :: [] ∧
    inSpace 0x10 = true ∧ inSpace 0x20 = true ∧
    ({ procBusy true with denied := [⟨0x10, 0x10, .read⟩] } : State).memOK 0x10 .read = false ∧
    ({ maccBusy with denied := [⟨0x20, 0x20, .read⟩] } : State).memOK 0x20 .read = false ∧
    ({ maccBusy with denied := [⟨0x20, 0x20, .read⟩] } : State).mayRead 0x10 := by decide

-- RefusedWriteEndsTheUnit: the second byte of the first archive entry, and the sample after the whole slot.
theorem witness_RefusedWrite : (procBusy true).mem.wf ∧
    (∃ post, (procBusy true).eng.slotWrites 0 [[72]] ++ (procBusy true).eng.sampleWrites 0 [[200]] =
      [] ++ (0x30, [0x48#8, 0#8]) :: post) ∧
    (∃ pre, (procBusy true).eng.slotWrites 0 [[72]] ++ (procBusy true).eng.sampleWrites 0 [[200]] =
      pre ++ (0x20, [200#8]) :: []) ∧
    (procBusy true).eng.coded (procBusy true).mem 0 = [[72]] ∧ (procBusy true).eng.decoded (procBusy true).mem 0 = [[200]] ∧
    ({ procBusy true with denied := [⟨0x31, 0x31, .write⟩] } : State).memOK (0x30 + 1) .write = false ∧
    (∀ i < 2, inSpace (0x30 + i) = true) :=
  ⟨by decide, ⟨_, rfl⟩, ⟨(procBusy true).eng.slotWrites 0 [[72]], by decide⟩, by decide, by decide, by decide, by decide⟩

theorem witness_MaccRowStepResult : maccBusy.noRace ∧
    ∀ x < maccBusy.eng.width.toNat, maccBusy.mayRead (maccBusy.eng.srcAddr 0 x) ∧ maccBusy.mayRead (maccBusy.eng.dstAddr 0 x) :=
  ⟨(tiny_quiet _).2, by decide⟩

theorem witness_SaturatingAdd : (BitVec.allOnes 64).toNat + 0 ≤ 2 ^ 64 - 1 ∧ 2 ^ 64 - 1 < (BitVec.allOnes 64).toNat + 1 := by decide

theorem witness_Round : (0 : Int) < 2 ∧ 2 * |roundDiv 1 2 * 2 - 1| = 2 ∧ (0 : Int) < 3 := by decide

-- SamplesAreClampedNeverWrapped: just outside and just inside each end.
theorem witness_Samples : roundDiv (-129 * (5 * 2 ^ 37)) (5 * 2 ^ 37) + 128 < 0 ∧
    255 < roundDiv (128 * (5 * 2 ^ 37)) (5 * 2 ^ 37) + 128 ∧ roundDiv (-128 * (5 * 2 ^ 37)) (5 * 2 ^ 37) + 128 = 0 ∧
    roundDiv (127 * (5 * 2 ^ 37)) (5 * 2 ^ 37) + 128 = 255 := by decide

-- QuantizedCoefficientsFitInt16, TransformPassesCommute, CodecCommutesWithNegation: the largest block, its last coefficient.
theorem witness_Codec : 1 ≤ 32 ∧ 32 ≤ 32 ∧ 31 < 32 ∧ (∀ i < 32, ∀ j < 32, 256 ≤ v13.qmAt i j) ∧ (10 : Int) ≤ tinyEngine.scale := by decide

theorem witness_Gray : [128#8, 128#8].length = 1 * 2 ∧ (∀ b ∈ [128#8, 128#8], b = 128#8) ∧ v13.qmAt 0 0 = 256 := by decide

theorem witness_BlockDependsOnItsOwnInputs : (v13.geometry 3).h = (v13.geometry 0).h ∧ (v13.geometry 3).w = (v13.geometry 0).w ∧
    v13.level = v13.level ∧
    Memory.read [] (v13.srcAddr ((v13.geometry 3).y0 + 7) ((v13.geometry 3).x0 + 7)) =
      Memory.read [] (v13.srcAddr ((v13.geometry 0).y0 + 7) ((v13.geometry 0).x0 + 7)) := by decide

theorem witness_BlocksTileThePlane : 1 ≤ v13.n ∧ 1 ≤ v13.width.toNat ∧ 1 ≤ v13.height.toNat ∧ 3 < v13.nbx * v13.nby ∧
    (v13.geometry 3).y0 ≤ 15 ∧ 15 < (v13.geometry 3).y0 + (v13.geometry 3).h := by decide

theorem witness_BuilderEntriesAreValid : 4 ∈ Config.blockSizes ∧ 32 ∈ Config.blockSizes ∧ 0 < 4 ∧ 31 < 32 := by decide

theorem witness_ReadsHaveNoSideEffect : 0 % 4 = 0 ∧ 0x1FFC % 4 = 0 ∧ (regOf 0).isSome = true ∧ (regOf 0x1FFC).isSome = true := by decide

theorem witness_ParameterWrites : tiny.eng.status.busy = false ∧ Reg.bsize ∈ [Reg.bsize, .level] ∧
    ∃ i j : Fin 32, Reg.qm 31 31 = .qm i j := ⟨rfl, by decide, 31, 31, rfl⟩

theorem witness_ReadOnlyRegisters : Reg.id ∈ [Reg.id, .errinfo] ∧ Reg.reserved ∈ [Reg.ratio, .reserved] ∧
    (0x060 % 4 = 0 ∧ 0x060 ≤ 0x060 ∧ 0x060 ≤ 0xFFC) ∧ 0xFFC % 4 = 0 ∧ 0x060 ≤ 0xFFC ∧ 0xFFC ≤ 0xFFC := by decide

theorem witness_IllegalAccesses : ¬ (32 = 32 ∧ 0x2000 % 4 = 0 ∧ 0x2000 ≤ 0x1FFC) ∧ ¬ (32 = 32 ∧ 1 % 4 = 0 ∧ 1 ≤ 0x1FFC) ∧
    ¬ (16 = 32 ∧ 0 % 4 = 0 ∧ 0 ≤ 0x1FFC) ∧ (32 = 32 ∧ 0x1FFC % 4 = 0 ∧ 0x1FFC ≤ 0x1FFC) := by decide

/-- A PROC of engine 0 owns its three regions. -/
def owning : State := { procBusy false with owned := [⟨0, tinyEngine.srcRegion⟩, ⟨0, tinyEngine.dstRegion true⟩, ⟨0, tinyEngine.arcRegion⟩] }

-- Races: the host outside, in the read-only region, in a written one; the engine itself; first and last byte of the archive.
theorem witness_Races : (∀ c ∈ owning.owned, c.region.written = false ∨ c.region.contains 0x50 = false) ∧
    (∀ c ∈ owning.owned, c.region.written = false ∨ c.region.contains 0x10 = false) ∧
    (∃ c ∈ owning.owned, c.region.contains 0x10 = true) ∧
    (∃ c ∈ owning.owned, c.region.written = true ∧ c.region.contains 0x30 = true) ∧
    (∃ c ∈ owning.owned, c.region.written = true ∧ c.region.contains 0x4F = true) ∧
    (∀ r ∈ owning.rivals, r.other = none → r.region.contains 0x10 = false) ∧
    (∀ r ∈ owning.rivals, r.engine = 0 → r.region.written = false ∨ r.region.contains 0x10 = false) ∧
    0x50 ∉ owning.raced ∧ 0x50 < 2 ^ 32 := by decide

-- Rule R58 (a): the host's write of a source byte leaves the running engine's read of it open, and no other byte's.
theorem test_r58_source_write : (nextState (hostStore 0x10 7#8 owning)).map
    (fun t => (t.racyRead (some 0) 0x10, t.racyRead none 0x10, t.racyRead (some 0) 0x11, t.raced)) =
    some (true, true, false, []) := by decide
-- Rule R59 (b): a byte left open by an earlier race, written by a race-free PROC, is settled.
theorem test_r59_settled : (nextState (engineStep { procBusy false with raced := [0x20, 0x60], past := [(0x20, 5#8)] })).map
    (fun t => (t.raced, t.mem.read 0x20)) = some ([0x60], 200#8) := by decide +kernel

/-- Engine 1 idle with engine 0's written plane as its source, engine 0's command outstanding. -/
def pair : State :=
  { tiny with before := [tinyEngine], eng := { tinyEngine with srcBase := 0x20#32, dstBase := 0x60#32, arcBase := 0x70#32 }
              owned := [⟨0, tinyEngine.srcRegion⟩, ⟨0, tinyEngine.dstRegion true⟩, ⟨0, tinyEngine.arcRegion⟩] }

-- Rules R63 and R214: engine 1 begins while engine 0 is outstanding, so its read of 0x20 stays open after the host has read engine 0's STATUS.
theorem test_r63_no_order : (nextState (exec .macc pair)).map
    (fun t => (t.racyRead (some 1) 0x20, (t.release 0).racyRead (some 1) 0x20, (t.release 0).racyRead none 0x20,
      t.racyRead (some 1) 0x60)) = some (true, true, false, false) := by decide
-- Rule R59 (a): it is in order when the host has read that STATUS first.
theorem test_r59_order : (nextState (exec .macc (pair.release 0))).map (fun t => t.racyRead (some 1) 0x20) = some false := by decide

theorem witness_StatusReadReleases : owning.eng.status.busy = true ∧
    ({ owning with eng := tinyEngine } : State).eng.status.busy = false ∧ owning.owned ≠ [] ∧
    0x4F ∉ owning.raced ∧ (∀ c ∈ owning.owned, c.engine = owning.idx) ∧ ∀ r ∈ owning.rivals, r.engine = owning.idx := by decide

-- EveryStepKeepsTheInvariant, AStepChangesAtMostOneEngine, ResultsChangeOnlyByMfin: good states with a next step.
theorem witness_Step : maccBusy.Inv ∧ (nextState (step maccBusy)).isSome = true ∧
    ((nextState (step maccBusy)).map fun t => t.eng.sse) ≠ some maccBusy.eng.sse ∧
    ((nextState (step ({ tiny with eng := { v13 with cnt := 1#64 } }.withFetchWord 32 4))).map fun t => t.eng.psnr)
      ≠ some v13.psnr := ⟨maccBusy_inv, by decide, by decide, by decide⟩

theorem witness_OperandsAreFrozen : (nextState (step (maccBusy.withFetchWord 32 6))).isSome = true ∧
    maccBusy.engines[0]? = some maccBusy.eng ∧ maccBusy.eng.status.busy = true := by decide

theorem witness_OnlyProcAndTheHostWriteMemory :
    ((nextState (step { tiny with inputs := [.memWrite 0xFFFFFFFF 1#8] })).map fun t => t.mem.read 0xFFFFFFFF) = some 1#8 ∧
    tiny.mem.read 0xFFFFFFFF = 0#8 ∧
    ((nextState (step (procBusy false))).map fun t => t.mem.read 0x20) = some 200#8 ∧ (procBusy false).mem.read 0x20 = 0#8 ∧
    ((nextState (step { procBusy false with inputs := [.engine 0] })).map fun t => t.mem.read 0x30) = some 0x48#8 ∧
    (procBusy false).mem.read 0x30 = 0#8 := by
  decide +kernel

theorem witness_EngineStepsStay : maccBusy.Inv ∧ 0 < maccBusy.engines.length := ⟨maccBusy_inv, by decide⟩

theorem witness_ProgressIsMonotone : (procBusy true).Inv ∧ (nextState (engineStep (procBusy true))).isSome = true :=
  ⟨procBusy_inv true, by decide +kernel⟩

theorem witness_LongCommands : (procBusy true).Inv ∧ (procBusy true).denied = [] ∧ (procBusy true).eng.status.busy = true ∧
    (procBusy true).eng.creq = false := ⟨procBusy_inv true, rfl, rfl, rfl⟩

theorem witness_ProcComputesThePlane : tiny.mem.wf ∧ tiny.denied = [] ∧ tiny.alone ∧ tiny.eng.status.busy = false ∧
    tiny.eng.procLegal ∧ (∀ a : Nat, tiny.eng.inPlane tiny.eng.srcBase tiny.eng.srcStride a → a ∉ tiny.raced) ∧
    tiny.eng.regionsDisjoint := by
  refine ⟨by decide, rfl, by decide, rfl, by decide, fun a _ => by simp [tiny, State.reset], fun a => ?_⟩
  have key : ∀ base : Word, tiny.eng.inPlane base 1#32 a → a = base.toNat := by
    rintro base ⟨y, hy, x, hx, rfl⟩
    have hy' : y < 1 := hy
    have hx' : x < 1 := hx
    have : y = 0 := by omega
    subst this; omega
  refine ⟨fun ⟨h1, h2⟩ => ?_, fun ⟨h1, h2⟩ => ?_, fun ⟨h1, h2⟩ => ?_⟩
  · have e1 : a = 0x10 := key _ h1
    have e2 : a = 0x20 := key _ h2
    omega
  · have e1 : a = 0x10 := key _ h1
    have e2 : 0x30 ≤ a := h2.1
    omega
  · have e1 : a = 0x20 := key _ h1
    have e2 : 0x30 ≤ a := h2.1
    omega

-- The in-place form: SRC_BASE = DST_BASE = 0x10.
theorem witness_ProcInPlace : ({ tinyEngine with dstBase := 0x10#32 } : Engine).procLegal ∧
    ({ tinyEngine with dstBase := 0x10#32 } : Engine).inPlace := by
  refine ⟨by decide, rfl, rfl, ?_⟩
  rintro a ⟨⟨y, hy, x, hx, h⟩, h2, -⟩
  change 0x30 ≤ a at h2
  change y < 1 at hy
  change x < 1 at hx
  change a = 0x10 + y * 1 + x at h
  omega

theorem witness_MaccSumsThePlanes : tiny.denied = [] ∧ tiny.alone ∧
    (∀ a : Nat, tiny.eng.inPlane tiny.eng.srcBase tiny.eng.srcStride a ∨ tiny.eng.inPlane tiny.eng.dstBase tiny.eng.dstStride a →
      a ∉ tiny.raced) ∧ tiny.eng.status.busy = false ∧ tiny.eng.planesLegal ∧
    tiny.eng.sse.toNat + 40000 < 2 ^ 64 ∧ tiny.eng.cnt.toNat + 1 * 1 < 2 ^ 64 ∧
    sqDiff (tiny.mem.read (tiny.eng.srcAddr 0 0)) (tiny.mem.read (tiny.eng.dstAddr 0 0)) = 40000 :=
  ⟨rfl, by decide, fun a _ => by simp [tiny, State.reset], rfl, by decide, by decide, by decide, by decide⟩

end Sys2Proof.Tests
end

/-! Command words and the register map: what decodes to a command, and where each register is (rules R11, R65 to R67). -/

namespace Sys2Proof.Machine

/-! ### Command words: a word that decodes is the word of its command (rules R65 to R67) -/

/-- The three fields make up the whole word. -/
theorem wordOf_fieldsOf (w : Word) : wordOf (fieldsOf w) = w := by
  refine BitVec.eq_of_getLsbD_eq fun i hi => ?_
  simp only [wordOf, fieldsOf, BitVec.getLsbD_append, BitVec.getLsbD_extractLsb', BitVec.getLsbD_ofBool]
  rcases Nat.lt_trichotomy i 8 with h | rfl | h
  · simp [h]
  · simp
  · have h9 : ¬ i - 8 < 1 := by omega
    have hs : 9 + (i - 8 - 1) = i := by omega
    have hl : i - 8 - 1 < 23 := by omega
    simp [h9, hs, hl, show ¬ i < 8 by omega]

/-- Fields with a legal opcode and clear reserved bits are those of the command they name. -/
theorem fields_of_instrOf {f : Fields} {i : Instr} (h : instrOf f = .ok i) (hr : f.reservedClear = true) :
    f = i.fields := by
  obtain ⟨opc, acc, rsv⟩ := f
  simp only [Fields.reservedClear, Bool.and_eq_true, Bool.or_eq_true, Bool.not_eq_true', beq_iff_eq] at hr
  obtain ⟨rfl, hacc⟩ := hr
  have hopc : opc = i.opc := by
    unfold instrOf at h
    split at h <;> cases h <;> exact BitVec.eq_of_toNat_eq ‹opc.toNat = _›
  subst hopc
  have haccBit : acc = i.accBit := by
    cases i with
    | proc a =>
      have hok : (Except.ok (.proc acc) : Except DecodeError Instr) = .ok (.proc a) := h
      simpa [Instr.accBit] using hok
    | _ => exact hacc.resolve_right (by decide)
  rw [haccBit]; rfl

/-- No word but a command's own decodes to it. -/
theorem eq_encode_of_decode {w : Word} {i : Instr} (h : decode w = .ok i) : w = encode i := by
  unfold decode at h
  split at h
  · next hw => cases h; exact hw
  · split at h
    · next hw => cases h; exact hw
    · split at h
      · cases h
      · split at h
        · cases h
        · next hr =>
          rw [encode, ← fields_of_instrOf h (by simpa using hr), wordOf_fieldsOf]

/-! ### The register map (rule R11) -/

/-- Every register is found at its offset. -/
theorem regOf_offset (r : Reg) : regOf r.offset = some r := by
  cases r with
  | qm i j =>
    have hi := i.isLt
    have hj := j.isLt
    have hlegal : legalAccess 32 (0x1000 + 4 * (32 * i.val + j.val)) = true := by
      simp [legalAccess]; omega
    have hrow : (0x1000 + 4 * (32 * i.val + j.val) - 0x1000) / 4 / 32 = i.val := by omega
    have hcol : (0x1000 + 4 * (32 * i.val + j.val) - 0x1000) / 4 % 32 = j.val := by omega
    rw [Reg.offset, regOf, if_pos hlegal, if_neg (by omega), hrow, hcol]
    simp
  | _ => rfl

/-- A 32-bit access finds a register exactly where rule R48 allows it. -/
theorem regOf_isSome_iff (off : Nat) : (regOf off).isSome = true ↔ off % 4 = 0 ∧ off ≤ 0x1FFC := by
  have hl : legalAccess 32 off = true ↔ off % 4 = 0 ∧ off ≤ 0x1FFC := by simp [legalAccess]
  rw [← hl, regOf]
  split
  · next h => split <;> simp [h]
  · next h => simp [h]

/-- The table of named registers ends at 0x05C. -/
theorem regOfLow_of_ge {off : Nat} (h : 0x060 ≤ off) : regOfLow off = .reserved := by
  unfold regOfLow
  split
  case h_24 => rfl
  all_goals omega

/-- CMD is at 0x004 and nowhere else. -/
theorem eq_of_regOf_cmd {off : Nat} (h : regOf off = some .cmd) : off = 0x004 := by
  have low : regOfLow off = .cmd → off = 0x004 := by
    unfold regOfLow
    split <;> simp
  unfold regOf at h
  split at h
  · split at h
    · exact low (by simpa using h)
    · simp at h
  · cases h

/-- Settles O4, register by register one way and by the bounds of the map the other. -/
theorem registerMapIsExact : Obligations.RegisterMapIsExact := by
  refine ⟨regOf_offset, by decide, fun i j => regOf_offset (.qm i j), regOf_isSome_iff, ?_⟩
  intro off haligned hlo hhi
  have hlegal : legalAccess 32 off = true := by simp [legalAccess, haligned]; omega
  rw [regOf, if_pos hlegal, if_pos (by omega), regOfLow_of_ge hlo]

end Sys2Proof.Machine

/-! Inversion, engine by engine: everything that an engine step, a host access, and so a step of the machine can make of one engine. -/

namespace Sys2Proof.Machine

/-! ### What one engine step can make of its engine (rules R118, R140, R160) -/

/-- The engine's side of an engine step: the lines of rule R160, where a unit either fails, is counted, or is counted with `d` added to SSE and `n` to CNT, `n` being the number of samples it compared. -/
inductive UnitChange (e : Engine) : Engine → Prop where
  | idle : UnitChange e e
  | cancel (hb : e.status.busy = true) : UnitChange e e.cancel
  | complete (hb : e.status.busy = true) (hc : e.creq = false) : UnitChange e e.complete
  | fail (hb : e.status.busy = true) (x : CmdError) (a : Word) : UnitChange e (e.raise x a)
  | count (hb : e.status.busy = true) (hu : e.udone ≠ e.utotal) : UnitChange e e.countUnit
  | accumulate (hb : e.status.busy = true) (hu : e.udone ≠ e.utotal) (ha : e.accf = true ∨ e.curop ≠ 0x01#8)
      (d n : Nat) (hd : d ≤ 65025 * n) : UnitChange e (e.accumulate d n).countUnit

/-- The squared error of a block is at most 65025 for each of its samples. -/
theorem blockError_le (h w : Nat) (bytes : List Byte) (p : Block) : blockError h w bytes p ≤ 65025 * (h * w) := by
  have hle := sum_le_of_le
    ((List.range h).flatMap fun r => (List.range w).map fun c =>
      sqDiff (bytes.getD (r * w + c) 0#8) (sampleByte (p.entry r c))) 65025 (by
    intro x hx
    simp only [List.mem_flatMap, List.mem_map] at hx
    obtain ⟨r, -, c, -, rfl⟩ := hx
    exact sqDiff_le _ _)
  have hlen : ((List.range h).flatMap fun r => (List.range w).map fun c =>
      sqDiff (bytes.getD (r * w + c) 0#8) (sampleByte (p.entry r c))).length = h * w := by
    simp [List.length_flatMap]
  rw [hlen, Nat.mul_comm] at hle
  exact hle

/-- The squared error of a list of pairs is at most 65025 for each pair. -/
theorem pairError_le : ∀ bytes : List Byte, 2 * pairError bytes ≤ 65025 * bytes.length
  | [] => Nat.le_refl _
  | [_] => Nat.zero_le _
  | a :: b :: rest => by
    have hrest := pairError_le rest
    have hpair := sqDiff_le a b
    simp only [pairError, List.length_cons]
    omega

theorem rowReads_length (e : Engine) (y : Nat) : (e.rowReads y).length = 2 * e.width.toNat := by
  simp [Engine.rowReads, List.length_flatMap, Nat.mul_comm]

/-- An engine step changes its engine in one of the ways of rule R160. -/
theorem engineStep_unitChange {s t : State} (h : engineStep s = .next t) : UnitChange s.eng t.eng := by
  rcases engineStep_cases h with ⟨-, rfl⟩ | ⟨hb, -, rfl⟩ | ⟨hb, hc, -, rfl⟩ | ⟨hb, -, hu, -, h⟩ | ⟨hb, -, hu, ho, h⟩
  · exact .idle
  · exact .cancel hb
  · exact .complete hb hc
  · rcases procBlock_cases h with ⟨a, -, rfl⟩ | ⟨bytes, q, p, -, -, -, ⟨u, a, -, rfl⟩ | ⟨u, -, rfl⟩⟩
    · exact .fail hb _ _
    · exact .fail hb _ _
    · rw [setEng_eng, Engine.endBlock]
      split
      · next ha => exact .accumulate hb hu (.inl ha) _ _ (blockError_le _ _ _ _)
      · exact .count hb hu
  · rcases maccRow_cases h with ⟨a, -, rfl⟩ | ⟨bytes, hr, rfl⟩
    · exact .fail hb _ _
    · refine .accumulate hb hu (.inr ho) _ _ ?_
      have hlen := (readAll_ok hr).1
      rw [rowReads_length] at hlen
      have hle := pairError_le bytes
      omega

/-! ### What a host access can make of the engine it names (rules R47, R156 to R165) -/

/-- The engine `e` with the nine parameter registers and QM of `p`. -/
def Engine.loadOperands (e p : Engine) : Engine :=
  { e with
    bsize := p.bsize, level := p.level, width := p.width, height := p.height
    srcBase := p.srcBase, srcStride := p.srcStride, dstBase := p.dstBase, dstStride := p.dstStride
    arcBase := p.arcBase, qm := p.qm }

/-- The engine's side of a host access: what registers other than CMD do, what busy and idle engines do with a word, and the two commands that a later statement names by the access that issues them. -/
inductive HostChange (e : Engine) : HostAccess → Engine → Prop where
  | same {a : HostAccess} : HostChange e a e
  | acknowledge {a : HostAccess} (v : Word) : HostChange e a (e.acknowledge v)
  | enable {a : HostAccess} (v : Word) : HostChange e a { e with ien := v &&& irqMask }
  | reject {a : HostAccess} (hb : e.status.busy = true) : HostChange e a e.reject
  | requestCancel {a : HostAccess} (hb : e.status.busy = true) : HostChange e a { e with creq := true }
  | reset {a : HostAccess} : HostChange e a Engine.reset
  | load {a : HostAccess} (hb : e.status.busy = false) (p : Engine) : HostChange e a (e.loadOperands p)
  | fail {a : HostAccess} (hb : e.status.busy = false) (x : CmdError) :
      HostChange e a (e.clearOutcome.raise x 0#32)
  | nop {a : HostAccess} (hb : e.status.busy = false) : HostChange e a e.clearOutcome.finish
  | mclr (hb : e.status.busy = false) :
      HostChange e (.write 32 0x004 (encode .mclr)) e.clearOutcome.clearMetrics.finish
  | mfin (hb : e.status.busy = false) {e' : Engine} (hok : mfinBody e.clearOutcome = .ok (e', [])) :
      HostChange e (.write 32 0x004 (encode .mfin)) e'
  | macc {a : HostAccess} (hb : e.status.busy = false) {e' : Engine} {rs : List Region}
      (hok : maccBody e.clearOutcome = .ok (e', rs)) : HostChange e a e'
  | proc {a : HostAccess} (hb : e.status.busy = false) {acc : Bool} {e' : Engine} {rs : List Region}
      (hok : procBody acc e.clearOutcome = .ok (e', rs)) : HostChange e a e'

/-- A write that takes effect while idle loads operands, and is rejected while busy (rule R49). -/
theorem whenIdle_hostChange (e p : Engine) (a : HostAccess) : HostChange e a (e.whenIdle (e.loadOperands p)) := by
  unfold Engine.whenIdle
  split
  · next hb => exact .reject hb
  · next hb => exact .load (by simpa using hb) p

/-- A write to a register other than CMD. -/
theorem regWrite_hostChange (e : Engine) (r : Reg) (v : Word) (a : HostAccess) :
    HostChange e a (e.regWrite r v) := by
  cases r with
  | status => exact .acknowledge v
  | ien => exact .enable v
  | bsize => exact whenIdle_hostChange e { e with bsize := v } a
  | level => exact whenIdle_hostChange e { e with level := v } a
  | width => exact whenIdle_hostChange e { e with width := v } a
  | height => exact whenIdle_hostChange e { e with height := v } a
  | srcBase => exact whenIdle_hostChange e { e with srcBase := v } a
  | srcStride => exact whenIdle_hostChange e { e with srcStride := v } a
  | dstBase => exact whenIdle_hostChange e { e with dstBase := v } a
  | dstStride => exact whenIdle_hostChange e { e with dstStride := v } a
  | arcBase => exact whenIdle_hostChange e { e with arcBase := v } a
  | qm i j => exact whenIdle_hostChange e { e with qm := e.qm.put i j (v.extractLsb' 0 16) } a
  | _ => exact .same

/-- A word written to CMD, whether it is a command or not (rules R67, R156). -/
theorem issue_hostChange {w : Word} {s t : State} (h : issue w s = .next t) :
    HostChange s.eng (.write 32 0x004 w) t.eng := by
  unfold issue at h
  split at h
  · next i hd =>
    obtain rfl := eq_encode_of_decode hd
    rcases exec_cases h with ⟨-, rfl⟩ | ⟨-, ⟨hb, rfl⟩ | ⟨-, rfl⟩⟩ | ⟨hb, rfl⟩ | ⟨hb, -, -, x, rfl⟩ | ⟨hb, -, rfl⟩ |
      ⟨hb, rfl, rfl⟩ | ⟨hb, rfl, e, hok, rfl⟩ | ⟨hb, -, e, rs, hok, rfl⟩ | ⟨hb, acc, -, e, rs, hok, rfl⟩
    · exact .reset
    · exact .requestCancel hb
    · exact .same
    · exact .reject hb
    · exact .fail hb x
    · exact .nop hb
    · exact .mclr hb
    · exact .mfin hb hok
    · rw [claim_eng, setEng_eng]; exact .macc hb hok
    · rw [claim_eng, setEng_eng]; exact .proc hb hok
  · next d hd =>
    cases h
    rcases accept_cases s (fun _ => .error (DecodeError.cmdError d)) with ⟨hb, ht⟩ | ⟨-, e, rs, hok, -⟩ | ⟨hb, x, -, ht⟩
    · rw [State.acceptInvalid, ht]; exact .reject hb
    · cases hok
    · rw [State.acceptInvalid, ht]; exact .fail hb x

/-- A host access changes the engine it names in one of these ways. -/
theorem hostAccess_hostChange {a : HostAccess} {s t : State} (h : hostAccess a s = .next t) :
    HostChange s.eng a t.eng := by
  unfold hostAccess at h
  split at h
  · split at h
    · cases h
      unfold hostRead
      dsimp only
      split <;> exact .same
    · cases h
  · next bits off v =>
    split at h
    · next r hr =>
      unfold hostWrite at h
      split at h
      · next hcmd =>
        subst hcmd
        split at hr
        · next hbits =>
          subst hbits
          obtain rfl := eq_of_regOf_cmd hr
          exact issue_hostChange h
        · cases hr
      · cases h; exact regWrite_hostChange _ _ _ _
    · cases h

/-! ### What one step can make of any one engine -/

/-- What a step can make of engine `k`, by the event that the step takes (rules R9, R214). -/
inductive StepChange (inputs : List Event) (k : Nat) (e : Engine) : Engine → Prop where
  | same : StepChange inputs k e e
  | host (a : HostAccess) (rest : List Event) (hin : inputs = .host k a :: rest) {e' : Engine}
      (hc : HostChange e a e') : StepChange inputs k e e'
  | unit {e' : Engine} (hc : UnitChange e e') : StepChange inputs k e e'
  | reset : StepChange inputs k e Engine.reset

/-- A step changes no engine, or the one that it names and no other. -/
theorem step_engines {s t : State} (h : step s = .next t) :
    t.engines = s.engines ∨
      ∃ k e e', s.engines[k]? = some e ∧ t.engines = s.engines.set k e' ∧ StepChange s.inputs k e e' := by
  rcases step_cases h with ⟨-, -, rfl⟩ | ⟨a, rest, -, h⟩ | ⟨a, b, rest, -, h⟩ | ⟨k, ins, u, hf, h⟩
  · exact .inl rfl
  · rw [hostLoad_cases h]; exact .inl rfl
  · rw [(hostStore_cases h).1]; exact .inl rfl
  · obtain ⟨heng, rfl, he, -⟩ := focus_some hf
    change u.engines = s.engines at heng
    refine .inr ⟨u.idx, u.eng, t.eng, he, ?_⟩
    rw [← heng]
    rcases h with ⟨a, rest, hin, -, h⟩ | ⟨-, h⟩ | ⟨-, rfl⟩
    · exact ⟨hostAccess_engines h, .host a rest hin (hostAccess_hostChange h)⟩
    · exact ⟨engineStep_engines h, .unit (engineStep_unitChange h)⟩
    · exact ⟨engines_setEng u Engine.reset, .reset⟩

/-- What a step makes of an engine of the platform. -/
theorem step_engine {s t : State} {k : Nat} {e : Engine} (h : step s = .next t) (he : s.engines[k]? = some e) :
    ∃ e', t.engines[k]? = some e' ∧ StepChange s.inputs k e e' := by
  rcases step_engines h with ht | ⟨j, d, d', hd, ht, hc⟩
  · exact ⟨e, ht ▸ he, .same⟩
  · by_cases hj : j = k
    · subst hj
      obtain rfl : d = e := Option.some.inj (hd.symm.trans he)
      have hlt : j < s.engines.length := (List.getElem?_eq_some_iff.1 he).1
      exact ⟨d', by simp [ht, hlt], hc⟩
    · exact ⟨e, by rw [ht, List.getElem?_set_ne hj, he], .same⟩

end Sys2Proof.Machine

/-! The invariant of rule R35: what each change of an engine keeps, and that every step keeps it. -/

namespace Sys2Proof.Machine

/-! ### The saturating sums and the result of PSNR (rules R138, R144) -/

theorem satadd64_toNat (acc : Acc) (d : Nat) : (satadd64 acc d).toNat = min (acc.toNat + d) (2 ^ 64 - 1) := by
  rw [satadd64, BitVec.toNat_ofNat, Nat.mod_eq_of_lt (by omega)]

/-- A sum that does not saturate is exact. -/
theorem satadd64_toNat_of_not_saturates {acc : Acc} {d : Nat} (h : saturates64 acc d = false) :
    (satadd64 acc d).toNat = acc.toNat + d := by
  have hle : ¬ 2 ^ 64 - 1 < acc.toNat + d := by simpa [saturates64] using h
  rw [satadd64_toNat]; omega

/-- PSNRQ has 16 bits. -/
theorem psnrq_lt (sse cnt : Nat) : psnrq sse cnt < 2 ^ 16 := by
  unfold psnrq
  split
  · norm_num
  · have := (bitSearch_bounds (psnrAtLeast (65025 * cnt) sse) 16 0).2
    omega

/-- PSNR has 17 bits: INF and PSNRQ (rule R26). -/
theorem psnrResult_lt (e : Engine) : e.psnrResult.toNat < 2 ^ 17 := by
  unfold Engine.psnrResult
  split
  · decide
  · have := psnrq_lt e.sse.toNat e.cnt.toNat
    rw [BitVec.toNat_ofNat, Nat.mod_eq_of_lt (by omega)]
    omega

/-- Masking with the enable bits leaves nothing outside them (rule R17). -/
theorem and_irqMask_reserved (v : Word) : (v &&& irqMask) &&& ~~~irqMask = 0#32 := by
  rw [BitVec.and_assoc, show irqMask &&& ~~~irqMask = 0#32 by decide, BitVec.and_zero]

/-! ### The invariant of one engine, kept by each thing that can happen to it (rule R35) -/

namespace Engine.Inv
variable {e : Engine}

/-- While no command is in flight the hidden state is 0, and what a command in flight promises is void. -/
theorem of_idle (hbusy : e.status.busy = false) (hcurop : e.curop = 0#8) (haccf : e.accf = false)
    (hcreq : e.creq = false) (hdone : e.status.done = true → e.status.err = false ∧ e.status.canc = false)
    (herr : e.status.err = true → e.status.canc = false ∧ e.errinfo ≠ 0#32)
    (hunits : e.invUnits) (hsums : e.invSums) (hreserved : e.invReserved) : e.Inv where
  outcome := ⟨by simp [hbusy], hdone, fun h => (herr h).1⟩
  busy := by simp [Engine.invBusy, hbusy, hcurop, haccf, hcreq]
  units := hunits
  sums := hsums
  error := ⟨fun h => (herr h).2, by simp [hbusy]⟩
  reserved := hreserved
  command := by simp [Engine.invCommand, hcurop]

/-- The hidden state of an idle engine. -/
theorem hidden_of_idle (hi : e.Inv) (hb : e.status.busy = false) :
    e.curop = 0#8 ∧ e.accf = false ∧ e.creq = false := by
  obtain ⟨-, hcurop, hcreq, haccf⟩ := hi.busy
  have h0 := hcurop hb
  refine ⟨h0, ?_, ?_⟩
  · exact Bool.eq_false_iff.2 fun ha => by simp [haccf ha] at h0
  · exact Bool.eq_false_iff.2 fun hc => by simp [hcreq hc] at hb

theorem reset : Engine.reset.Inv :=
  of_idle rfl rfl rfl rfl (by decide) (by decide) (by decide) (by decide) (by decide)

theorem reject (hi : e.Inv) : e.reject.Inv :=
  ⟨hi.outcome, hi.busy, hi.units, hi.sums, hi.error, hi.reserved, hi.command⟩

theorem enable (hi : e.Inv) (v : Word) : Engine.Inv { e with ien := v &&& irqMask } := by
  obtain ⟨hinfo, -, hpsnr⟩ := hi.reserved
  exact ⟨hi.outcome, hi.busy, hi.units, hi.sums, hi.error, ⟨hinfo, and_irqMask_reserved v, hpsnr⟩, hi.command⟩

theorem acknowledge (hi : e.Inv) (v : Word) : (e.acknowledge v).Inv where
  outcome := by
    obtain ⟨hbusy, hdone, herr⟩ := hi.outcome
    refine ⟨fun h => ?_, fun h => ?_, fun h => ?_⟩ <;> simp_all [Engine.acknowledge, Status.w1c]
  busy := hi.busy
  units := hi.units
  sums := hi.sums
  error := by
    obtain ⟨herr, hbusy⟩ := hi.error
    exact ⟨fun h => herr (Bool.and_elim_left h), hbusy⟩
  reserved := hi.reserved
  command := hi.command

theorem requestCancel (hi : e.Inv) (hb : e.status.busy = true) : Engine.Inv { e with creq := true } := by
  obtain ⟨hop, hidle, -, hacc⟩ := hi.busy
  exact ⟨hi.outcome, ⟨hop, hidle, fun _ => hb, hacc⟩, hi.units, hi.sums, hi.error, hi.reserved, hi.command⟩

/-- The operands of an idle engine may take any values. -/
theorem loadOperands (hi : e.Inv) (hb : e.status.busy = false) (p : Engine) : (e.loadOperands p).Inv := by
  obtain ⟨hcurop, haccf, hcreq⟩ := hi.hidden_of_idle hb
  obtain ⟨-, hdone, herr⟩ := hi.outcome
  exact of_idle hb hcurop haccf hcreq hdone (fun h => ⟨herr h, hi.error.1 h⟩) hi.units hi.sums hi.reserved

/-- Acceptance clears the outcome, and leaves an idle engine good. -/
theorem clearOutcome (hi : e.Inv) (hb : e.status.busy = false) : e.clearOutcome.Inv := by
  obtain ⟨hcurop, haccf, hcreq⟩ := hi.hidden_of_idle hb
  obtain ⟨-, hreserved⟩ := hi.reserved
  exact of_idle hb hcurop haccf hcreq Bool.noConfusion Bool.noConfusion hi.units hi.sums
    ⟨Nat.two_pow_pos 16, hreserved⟩

/-- The error entry, from a state without DONE and CANC. -/
theorem raise (hi : e.Inv) (hd : e.status.done = false) (hc : e.status.canc = false) (x : CmdError) (a : Word) :
    (e.raise x a).Inv := by
  obtain ⟨-, hreserved⟩ := hi.reserved
  exact of_idle rfl rfl rfl rfl (fun h => absurd h (by simp [Engine.raise, hd])) (fun _ => ⟨hc, info_ne x⟩)
    hi.units hi.sums ⟨info_lt x, hreserved⟩

/-- The success of an immediate command, after acceptance has cleared the outcome. -/
theorem finish (hi : e.Inv) (hb : e.status.busy = false) (he : e.status.err = false) (hc : e.status.canc = false) :
    e.finish.Inv := by
  obtain ⟨hcurop, haccf, hcreq⟩ := hi.hidden_of_idle hb
  exact of_idle hb hcurop haccf hcreq (fun _ => ⟨he, hc⟩) (fun h => absurd h (by simp [Engine.finish, he]))
    hi.units hi.sums hi.reserved

theorem clearMetrics (hi : e.Inv) : e.clearMetrics.Inv :=
  ⟨hi.outcome, hi.busy, hi.units, fun _ => Nat.zero_le _, hi.error, hi.reserved, hi.command⟩

/-- The results that MFIN writes. -/
theorem results (hi : e.Inv) (ratio : Word) : Engine.Inv { e with
    psnr := e.psnrResult, ratio := ratio, status := { e.status with mvalid := true } } := by
  obtain ⟨hinfo, hien, -⟩ := hi.reserved
  exact ⟨hi.outcome, hi.busy, hi.units, hi.sums, hi.error, ⟨hinfo, hien, psnrResult_lt e⟩, hi.command⟩

theorem cancel (hi : e.Inv) (hb : e.status.busy = true) : e.cancel.Inv := by
  obtain ⟨hd, he, -⟩ := hi.outcome.1 hb
  exact of_idle rfl rfl rfl rfl (fun h => absurd h (by simp [Engine.cancel, hd]))
    (fun h => absurd h (by simp [Engine.cancel, he])) hi.units hi.sums hi.reserved

theorem complete (hi : e.Inv) (hb : e.status.busy = true) (hcreq : e.creq = false) : e.complete.Inv := by
  obtain ⟨-, he, hc⟩ := hi.outcome.1 hb
  exact of_idle rfl rfl rfl hcreq (fun _ => ⟨he, hc⟩) (fun h => absurd h (by simp [Engine.complete, he]))
    hi.units hi.sums hi.reserved

/-- A unit that is still to do can be counted. -/
theorem udone_lt (hi : e.Inv) (hu : e.udone ≠ e.utotal) : e.udone.toNat < e.utotal.toNat :=
  lt_of_le_of_ne hi.units fun h => hu (BitVec.eq_of_toNat_eq h)

/-- Counting a unit adds 1 to UDONE, with no wrap. -/
theorem countUnit_udone_toNat (hi : e.Inv) (hu : e.udone ≠ e.utotal) :
    e.countUnit.udone.toNat = e.udone.toNat + 1 := by
  have hlt := hi.udone_lt hu
  have := e.utotal.isLt
  rw [countUnit_udone, BitVec.toNat_ofNat, Nat.mod_eq_of_lt (by omega)]

theorem countUnit (hi : e.Inv) (hu : e.udone ≠ e.utotal) : e.countUnit.Inv where
  outcome := hi.outcome
  busy := hi.busy
  units := by
    rw [Engine.invUnits, hi.countUnit_udone_toNat hu]
    exact hi.udone_lt hu
  sums := hi.sums
  error := hi.error
  reserved := hi.reserved
  command := hi.command

/-- Adding at most 65025 for each counted sample keeps R35 (d): either a sum saturates and MOVF is set, or both are exact. -/
theorem accumulate (hi : e.Inv) {d n : Nat} (hd : d ≤ 65025 * n) : (e.accumulate d n).Inv where
  outcome := hi.outcome
  busy := hi.busy
  units := hi.units
  sums := by
    intro hm
    simp only [Engine.accumulate, Bool.or_eq_false_iff] at hm
    obtain ⟨⟨hmovf, hsse⟩, hcnt⟩ := hm
    have hold := hi.sums hmovf
    simp only [Engine.accumulate, satadd64_toNat_of_not_saturates hsse, satadd64_toNat_of_not_saturates hcnt]
    omega
  error := hi.error
  reserved := hi.reserved
  command := hi.command

/-- A long command that is accepted with legal operands. -/
theorem start (hi : e.Inv) (hb : e.status.busy = false) {total : Word} {op : BitVec 8} {acc mv : Bool}
    (hop : op = 0x01#8 ∨ op = 0x02#8) (hacc : acc = true → op = 0x01#8)
    (hproc : op = 0x01#8 → e.procLegal ∧ total.toNat = e.nbx * e.nby)
    (hmacc : op = 0x02#8 → e.planesLegal ∧ total = e.height) :
    Engine.Inv { e.clearOutcome with
      utotal := total, udone := 0#32, curop := op, accf := acc, creq := false
      status := { e.clearOutcome.status with busy := true, mvalid := mv } } where
  outcome := ⟨fun _ => ⟨rfl, rfl, rfl⟩, (hi.clearOutcome hb).outcome.2⟩
  busy := ⟨⟨fun _ => hop, fun _ => rfl⟩, Bool.noConfusion, Bool.noConfusion, hacc⟩
  units := Nat.zero_le _
  sums := hi.sums
  error := ⟨(hi.clearOutcome hb).error.1, fun _ => ⟨rfl, rfl⟩⟩
  reserved := (hi.clearOutcome hb).reserved
  command := ⟨hproc, hmacc⟩

/-- What an engine step makes of a good engine is good. -/
theorem of_unitChange {e' : Engine} (hi : e.Inv) (h : UnitChange e e') : e'.Inv := by
  cases h with
  | idle => exact hi
  | cancel hb => exact hi.cancel hb
  | complete hb hc => exact hi.complete hb hc
  | fail hb x a =>
    obtain ⟨hd, -, hc⟩ := hi.outcome.1 hb
    exact hi.raise hd hc x a
  | count hb hu => exact hi.countUnit hu
  | accumulate hb hu ha d n hd => exact (hi.accumulate hd).countUnit hu

/-- What a host access makes of a good engine is good. -/
theorem of_hostChange {a : HostAccess} {e' : Engine} (hi : e.Inv) (h : HostChange e a e') : e'.Inv := by
  cases h with
  | same => exact hi
  | acknowledge v => exact hi.acknowledge v
  | enable v => exact hi.enable v
  | reject hb => exact hi.reject
  | requestCancel hb => exact hi.requestCancel hb
  | reset => exact Engine.Inv.reset
  | load hb p => exact hi.loadOperands hb p
  | fail hb x => exact (hi.clearOutcome hb).raise rfl rfl x 0#32
  | nop hb => exact (hi.clearOutcome hb).finish hb rfl rfl
  | mclr hb => exact (hi.clearOutcome hb).clearMetrics.finish hb rfl rfl
  | mfin hb hok =>
    obtain ⟨rfl, -⟩ := mfinBody_ok hok
    exact ((hi.clearOutcome hb).results _).finish hb rfl rfl
  | macc hb hok =>
    obtain ⟨hlegal, rfl, -⟩ := maccBody_ok hok
    exact hi.start hb (.inr rfl) Bool.noConfusion
      (fun h => absurd h (by decide)) (fun _ => ⟨hlegal, rfl⟩)
  | proc hb hok =>
    obtain ⟨hlegal, rfl, -⟩ := procBody_ok hok
    exact hi.start hb (.inl rfl) (fun _ => rfl)
      (fun _ => ⟨hlegal, (BitVec.toNat_ofNat _ _).trans (Nat.mod_eq_of_lt (units_lt hlegal))⟩)
      (fun h => absurd h (by decide))

/-- What a step makes of a good engine is good. -/
theorem of_stepChange {inputs : List Event} {k : Nat} {e' : Engine} (hi : e.Inv)
    (h : StepChange inputs k e e') : e'.Inv := by
  cases h with
  | same => exact hi
  | host a rest hin hc => exact hi.of_hostChange hc
  | unit hc => exact hi.of_unitChange hc
  | reset => exact Engine.Inv.reset

end Engine.Inv

/-! ### The canonical form of memory, kept by every step -/

theorem engineStep_mem_wf {s t : State} (hm : s.mem.wf) (h : engineStep s = .next t) : t.mem.wf := by
  rcases engineStep_cases h with ⟨-, rfl⟩ | ⟨-, -, rfl⟩ | ⟨-, -, -, rfl⟩ | ⟨-, -, -, -, h⟩ | ⟨-, -, -, -, h⟩
  · exact hm
  · exact hm
  · exact hm
  · rcases procBlock_cases h with ⟨a, -, rfl⟩ | ⟨bytes, q, p, -, -, -, ⟨u, a, hw, rfl⟩ | ⟨u, hw, rfl⟩⟩
    · exact hm
    · exact (writeAll_wf (s := { s with tick := s.tick + 1 }) hm).2 u a hw
    · exact (writeAll_wf (s := { s with tick := s.tick + 1 }) hm).1 u hw
  · rcases maccRow_cases h with ⟨a, -, rfl⟩ | ⟨bytes, -, rfl⟩ <;> exact hm

theorem step_mem_wf {s t : State} (hm : s.mem.wf) (h : step s = .next t) : t.mem.wf := by
  rcases step_cases h with ⟨-, -, rfl⟩ | ⟨a, rest, -, h⟩ | ⟨a, b, rest, -, h⟩ | ⟨k, ins, u, hf, h⟩
  · exact hm
  · rw [hostLoad_cases h]; exact hm
  · obtain ⟨rfl, ha⟩ := hostStore_cases h
    exact Memory.wf_write hm ha b
  · have hu : u.mem.wf := by
      obtain ⟨-, -, -, hu⟩ := focus_some hf
      rw [hu]; exact hm
    rcases h with ⟨a, rest, -, -, h⟩ | ⟨-, h⟩ | ⟨-, rfl⟩
    · rw [hostAccess_frame h]; exact hu
    · exact engineStep_mem_wf hu h
    · exact hu

/-- Settles O51: engine by engine over what a step can make of one, and for memory write by write. -/
theorem everyStepKeepsTheInvariant : Obligations.EveryStepKeepsTheInvariant := by
  intro s t hi h
  refine ⟨fun e' he' => ?_, step_mem_wf hi.memory h⟩
  rcases step_engines h with ht | ⟨k, e, d, he, ht, hc⟩
  · exact hi.engines e' (ht ▸ he')
  · rw [ht] at he'
    rcases List.mem_or_eq_of_mem_set he' with hmem | rfl
    · exact hi.engines e' hmem
    · exact (hi.engines e (List.mem_of_getElem? he)).of_stepChange hc

/-- Settles O50: every engine of the reset platform is in the reset state. -/
theorem invariantHoldsAtReset : Obligations.InvariantHoldsAtReset := by
  refine ⟨fun e he => ?_, Memory.wf_nil⟩
  obtain rfl : e = Engine.reset := by simpa [State.engines, State.reset, Config.numEngines] using he
  exact Engine.Inv.reset

end Sys2Proof.Machine

/-! Consequences for single engines: operands, results and progress; the flags and the reset values. -/

namespace Sys2Proof.Machine

/-! ### Operands, results and progress -/

theorem sameOperands_of_unitChange {e e' : Engine} (h : UnitChange e e') : e.sameOperands e' := by
  cases h <;> exact sameOperands_refl e

/-- While busy an engine takes no operands from the host: its writes are rejected and its words do no more than cancel or reset (rules R49, R157). -/
theorem sameOperands_or_reset_of_hostChange {e e' : Engine} {a : HostAccess} (hb : e.status.busy = true)
    (h : HostChange e a e') : e.sameOperands e' ∨ e' = Engine.reset := by
  have impossible : e.status.busy ≠ false := by simp [hb]
  cases h with
  | same => exact .inl (sameOperands_refl e)
  | acknowledge v => exact .inl (sameOperands_refl e)
  | enable v => exact .inl (sameOperands_refl e)
  | reject => exact .inl (sameOperands_refl e)
  | requestCancel => exact .inl (sameOperands_refl e)
  | reset => exact .inr rfl
  | load hi => exact absurd hi impossible
  | fail hi => exact absurd hi impossible
  | nop hi => exact absurd hi impossible
  | mclr hi => exact absurd hi impossible
  | mfin hi => exact absurd hi impossible
  | macc hi => exact absurd hi impossible
  | proc hi => exact absurd hi impossible

/-- Settles O52, by the ways in which a step can change a busy engine. -/
theorem operandsAreFrozenWhileBusy : Obligations.OperandsAreFrozenWhileBusy := by
  intro s t k e h he hb
  obtain ⟨e', he', hc⟩ := step_engine h he
  refine ⟨e', he', ?_⟩
  cases hc with
  | same => exact .inl (sameOperands_refl e)
  | host a rest hin hc => exact sameOperands_or_reset_of_hostChange hb hc
  | unit hc => exact .inl (sameOperands_of_unitChange hc)
  | reset => exact .inr rfl

/-- A host access leaves SSE, CNT, PSNR and RATIO alone, or is a reset, MCLR, which leaves PSNR and RATIO, or MFIN, which leaves SSE and CNT. -/
theorem metrics_of_hostChange {e e' : Engine} {a : HostAccess} (h : HostChange e a e') :
    e.sameMetrics e' ∨ e' = Engine.reset ∨
      (a = .write 32 0x004 (encode .mclr) ∧ e'.psnr = e.psnr ∧ e'.ratio = e.ratio) ∨
      (a = .write 32 0x004 (encode .mfin) ∧ e'.sse = e.sse ∧ e'.cnt = e.cnt) := by
  have same : e.sameMetrics e := ⟨rfl, rfl, rfl, rfl⟩
  cases h with
  | reset => exact .inr (.inl rfl)
  | mclr => exact .inr (.inr (.inl ⟨rfl, rfl, rfl⟩))
  | mfin hb hok =>
    obtain ⟨rfl, -⟩ := mfinBody_ok hok
    exact .inr (.inr (.inr ⟨rfl, rfl, rfl⟩))
  | macc hb hok =>
    obtain ⟨-, rfl, -⟩ := maccBody_ok hok
    exact .inl same
  | proc hb hok =>
    obtain ⟨-, rfl, -⟩ := procBody_ok hok
    exact .inl same
  | _ => exact .inl same

/-- An engine step leaves PSNR and RATIO alone, and SSE and CNT but for an accumulating command. -/
theorem metrics_of_unitChange {e e' : Engine} (h : UnitChange e e') :
    e'.psnr = e.psnr ∧ e'.ratio = e.ratio ∧
      (e'.sse = e.sse ∧ e'.cnt = e.cnt ∨ e.status.busy = true ∧ (e.accf = true ∨ e.curop ≠ 0x01#8)) := by
  cases h with
  | accumulate hb hu ha d n hd => exact ⟨rfl, rfl, .inr ⟨hb, ha⟩⟩
  | _ => exact ⟨rfl, rfl, .inl ⟨rfl, rfl⟩⟩

/-- Settles O54, by what each way of changing an engine does to its results. -/
theorem resultsChangeOnlyByMfin : Obligations.ResultsChangeOnlyByMfin := by
  intro s t k e e' h he he'
  obtain ⟨d, hd, hc⟩ := step_engine h he
  obtain rfl : d = e' := Option.some.inj (hd.symm.trans he')
  cases hc with
  | same => simp
  | reset => exact ⟨fun _ => .inl rfl, fun _ => .inl rfl⟩
  | unit hc =>
    obtain ⟨hpsnr, hratio, hsums⟩ := metrics_of_unitChange hc
    refine ⟨fun hne => by simp [hpsnr, hratio] at hne, fun hne => ?_⟩
    rcases hsums with ⟨hsse, hcnt⟩ | hacc
    · simp [hsse, hcnt] at hne
    · exact .inr (.inl hacc)
  | host a rest hin hc =>
    rcases metrics_of_hostChange hc with ⟨hsse, hcnt, hpsnr, hratio⟩ | rfl | ⟨rfl, hpsnr, hratio⟩ | ⟨rfl, hsse, hcnt⟩
    · simp [hsse, hcnt, hpsnr, hratio]
    · exact ⟨fun _ => .inl rfl, fun _ => .inl rfl⟩
    · exact ⟨fun hne => by simp [hpsnr, hratio] at hne, fun _ => .inr (.inr ⟨rest, hin⟩)⟩
    · exact ⟨fun _ => .inr ⟨rest, hin⟩, fun hne => by simp [hsse, hcnt] at hne⟩

/-- Settles O57: UDONE moves only where a unit that is still to do is counted. -/
theorem progressIsMonotone : Obligations.ProgressIsMonotone := by
  intro s t hi h
  have hinv : s.eng.Inv := hi.engines s.eng (eng_mem_engines s)
  have hc := engineStep_unitChange h
  have hunits : t.eng.udone.toNat ≤ t.eng.utotal.toNat := (hinv.of_unitChange hc).units
  generalize t.eng = e' at hc hunits
  cases hc with
  | count hb hu => exact ⟨rfl, hunits, .inr (hinv.countUnit_udone_toNat hu)⟩
  | accumulate hb hu ha d n hd => exact ⟨rfl, hunits, .inr (hinv.countUnit_udone_toNat hu)⟩
  | _ => exact ⟨rfl, hunits, .inl rfl⟩

/-! ### STATUS, IEN and irq (rules R14, R17, R210) -/

/-- The flag at bit `i` of STATUS. -/
def Status.flag (st : Status) : Nat → Bool
  | 0 => st.busy
  | 1 => st.done
  | 2 => st.err
  | 3 => st.canc
  | 4 => st.rej
  | 5 => st.mvalid
  | 6 => st.movf
  | _ => false

/-- STATUS has no bits above 6. -/
theorem Status.word_toNat_lt (st : Status) : st.word.toNat < 2 ^ 7 := by
  have hsum : ∀ a b c d e f g : Bool, a.toNat + 2 * b.toNat + 4 * c.toNat + 8 * d.toNat + 16 * e.toNat
      + 32 * f.toNat + 64 * g.toNat < 2 ^ 7 := by decide
  have := hsum st.busy st.done st.err st.canc st.rej st.mvalid st.movf
  rw [Status.word, BitVec.toNat_ofNat, Nat.mod_eq_of_lt (by omega)]
  exact this

/-- The bits of STATUS are its flags. -/
@[simp] theorem Status.word_getLsbD (st : Status) (i : Nat) : st.word.getLsbD i = st.flag i := by
  have low : ∀ i < 7, ∀ a b c d e f g : Bool,
      (Status.mk a b c d e f g).word.getLsbD i = (Status.mk a b c d e f g).flag i := by decide
  by_cases hi : i < 7
  · exact low i hi _ _ _ _ _ _ _
  · obtain ⟨n, rfl⟩ : ∃ n, i = n + 7 := ⟨i - 7, by omega⟩
    have hlt : st.word.toNat < 2 ^ (n + 7) :=
      lt_of_lt_of_le st.word_toNat_lt (Nat.pow_le_pow_right (by norm_num) (by omega))
    exact Nat.testBit_lt_two_pow hlt

/-- The enable bits are 4:1. -/
@[simp] theorem irqMask_getLsbD (i : Nat) : irqMask.getLsbD i = decide (1 ≤ i ∧ i ≤ 4) := by
  by_cases hi : i < 32
  · have low : ∀ i < 32, irqMask.getLsbD i = decide (1 ≤ i ∧ i ≤ 4) := by decide
    exact low i hi
  · rw [BitVec.getLsbD_of_ge _ _ (by omega), eq_comm, decide_eq_false_iff_not]
    omega

/-- The write-1-to-clear touches bits 4:1 only. -/
theorem Status.w1c_flag (st : Status) (v : Word) (i : Nat) :
    (st.w1c v).flag i = (st.flag i && !(v.getLsbD i && decide (1 ≤ i ∧ i ≤ 4))) := by
  match i with
  | 0 | 1 | 2 | 3 | 4 | 5 | 6 => simp [Status.flag, Status.w1c]
  | n + 7 => rfl

/-- The write-1-to-clear on the word. -/
theorem Status.w1c_word (st : Status) (v : Word) : (st.w1c v).word = st.word &&& ~~~(v &&& irqMask) := by
  refine BitVec.eq_of_getLsbD_eq fun i hi => ?_
  rw [Status.word_getLsbD, Status.w1c_flag, BitVec.getLsbD_and, BitVec.getLsbD_not, BitVec.getLsbD_and,
    Status.word_getLsbD, irqMask_getLsbD, decide_eq_true hi, Bool.true_and]

/-- Settles O44, bit by bit. -/
theorem statusWriteOneToClear : Obligations.StatusWriteOneToClear := by
  intro s v
  exact ⟨s.eng.status.w1c v, rfl, s.eng.status.w1c_word v, Status.word_getLsbD _ 0, Status.word_getLsbD _ 5,
    Status.word_getLsbD _ 6, Status.word_toNat_lt _⟩

/-- A word is not 0 when one of its bits is 1. -/
theorem ne_zero_iff_getLsbD (w : Word) : w ≠ 0#32 ↔ ∃ i, w.getLsbD i = true := by
  constructor
  · intro h
    by_contra hc
    push Not at hc
    exact h (BitVec.eq_of_getLsbD_eq fun i _ => by simpa using hc i)
  · rintro ⟨i, hi⟩ rfl
    simp at hi

/-- irq is 1 when an enabled outcome flag is 1. -/
theorem irq_iff (e : Engine) : e.irq = true ↔ ∃ i, 1 ≤ i ∧ i ≤ 4 ∧ e.status.flag i = true ∧ e.ien.getLsbD i = true := by
  rw [Engine.irq, bne_iff_ne, ne_zero_iff_getLsbD]
  refine exists_congr fun i => ?_
  rw [BitVec.getLsbD_and, BitVec.getLsbD_and, Status.word_getLsbD, irqMask_getLsbD]
  simp only [Bool.and_eq_true, decide_eq_true_eq]
  tauto

/-- Settles O45: the four enable bits are those of the four outcome flags. -/
theorem irqIsTheEnabledOutcomes : Obligations.IrqIsTheEnabledOutcomes := by
  refine ⟨fun s v => rfl, fun e => ⟨by rw [Engine.irq, bne_iff_ne]; rfl, ?_⟩⟩
  rw [irq_iff]
  constructor
  · rintro ⟨i, hlo, hhi, hflag, hen⟩
    interval_cases i
    · exact .inl ⟨hflag, hen⟩
    · exact .inr (.inl ⟨hflag, hen⟩)
    · exact .inr (.inr (.inl ⟨hflag, hen⟩))
    · exact .inr (.inr (.inr ⟨hflag, hen⟩))
  · rintro (⟨hflag, hen⟩ | ⟨hflag, hen⟩ | ⟨hflag, hen⟩ | ⟨hflag, hen⟩)
    · exact ⟨1, by decide, by decide, hflag, hen⟩
    · exact ⟨2, by decide, by decide, hflag, hen⟩
    · exact ⟨3, by decide, by decide, hflag, hen⟩
    · exact ⟨4, by decide, by decide, hflag, hen⟩

/-! ### Reset (rules R32, R231) -/

/-- Every entry of the quantization store is 0 after reset, and so is every index outside it. -/
theorem reset_qm_entry (i j : Nat) : Engine.reset.qm.entry i j = 0#16 := by
  by_cases hi : i < 32 <;> by_cases hj : j < 32 <;> simp [Store.entry, Engine.reset, hi, hj]

/-- Every register but ID reads 0 after reset. -/
theorem reset_regRead {r : Reg} (h : r ≠ .id) : Engine.reset.regRead r = 0#32 := by
  cases r with
  | id => exact absurd rfl h
  | qm i j => rw [Engine.regRead, reset_qm_entry]; rfl
  | _ => decide

/-- Settles O10; the reset input acts on the engine in focus, as SRST does. -/
theorem resetValues : Obligations.ResetValues := by
  refine ⟨rfl, rfl, fun r h => reset_regRead h, rfl, rfl, rfl, by decide, fun s => ?_⟩
  rw [runEvent, State.withEngine, focus_idx]
  rfl

end Sys2Proof.Machine

/-! The register port: what an access finds at its offset, and what a write leaves of the registers (rules R46 to R49). -/

namespace Sys2Proof.Machine

/-! ### Accesses by the register they name -/

theorem hostAccess_read {off : Nat} {r : Reg} (h : regOf off = some r) (s : State) :
    hostAccess (.read 32 off) s = .next (hostRead r s) := by
  simp [hostAccess, h]

theorem hostAccess_write {off : Nat} {r : Reg} (h : regOf off = some r) (v : Word) (s : State) :
    hostAccess (.write 32 off v) s = hostWrite r v s := by
  simp [hostAccess, h]

theorem hostWrite_of_ne_cmd {r : Reg} (h : r ≠ .cmd) (v : Word) (s : State) :
    hostWrite r v s = .next (s.setEng (s.eng.regWrite r v)) := if_neg h

/-- A legal write always has a next state, also that of a word to CMD. -/
theorem hostWrite_next (r : Reg) (v : Word) (s : State) : ∃ t, hostWrite r v s = .next t := by
  unfold hostWrite
  split
  · obtain ⟨e, rs, vs, h⟩ := issue_frame v s
    exact ⟨_, h⟩
  · exact ⟨_, rfl⟩

/-- Where rule R48 allows no access, no register is found. -/
theorem register_eq_none_of_illegal {bits off : Nat} (h : ¬ (bits = 32 ∧ off % 4 = 0 ∧ off ≤ 0x1FFC)) :
    (if bits = 32 then regOf off else none) = none := by
  split
  · next hbits =>
    rw [← Option.not_isSome_iff_eq_none, regOf_isSome_iff]
    exact fun hoff => h ⟨hbits, hoff⟩
  · rfl

theorem exists_regOf {off : Nat} (haligned : off % 4 = 0) (hoff : off ≤ 0x1FFC) : ∃ r, regOf off = some r :=
  Option.isSome_iff_exists.1 ((regOf_isSome_iff off).2 ⟨haligned, hoff⟩)

/-- Settles O46: legal accesses are those at whose offset the map has a register. -/
theorem illegalAccessesAreRefused : Obligations.IllegalAccessesAreRefused := by
  refine fun s bits off v => ⟨fun h => ?_, ?_⟩
  · have hnone := register_eq_none_of_illegal h
    exact ⟨by rw [hostAccess, hnone], by rw [hostAccess, hnone]⟩
  · rintro ⟨rfl, haligned, hoff⟩
    obtain ⟨r, hr⟩ := exists_regOf haligned hoff
    rw [hostAccess_read hr, hostAccess_write hr]
    exact ⟨⟨_, rfl⟩, hostWrite_next r v s⟩

/-! ### Reads (rule R46) -/

/-- A read gives the host its value; beyond that it touches only the model's record of ownership. -/
theorem hostRead_frame (r : Reg) (s : State) : hostRead r s =
    { s with rdata := s.eng.regRead r, owned := (hostRead r s).owned, rivals := (hostRead r s).rivals } := by
  unfold hostRead
  dsimp only
  split <;> rfl

/-- The two halves of an accumulator make up the whole (rule R25). -/
theorem acc_halves (x : Acc) : x.extractLsb' 32 32 ++ x.extractLsb' 0 32 = x := by
  rw [BitVec.extractLsb'_append_extractLsb'_eq_extractLsb' (by rfl)]
  exact BitVec.extractLsb'_eq_self

/-- Settles O40, by the register that each legal offset names. -/
theorem readsHaveNoSideEffect : Obligations.ReadsHaveNoSideEffect := by
  refine ⟨fun s off haligned hoff => ?_, fun e => ?_⟩
  · obtain ⟨r, hr⟩ := exists_regOf haligned hoff
    refine ⟨r, hostRead r s, hr, hostAccess_read hr s, ?_⟩
    rw [hostRead_frame]
    exact ⟨rfl, rfl, rfl, rfl, rfl, rfl, rfl, rfl, rfl, rfl⟩
  · refine ⟨rfl, rfl, rfl, fun i j => ?_, rfl, rfl, rfl, rfl, rfl, rfl, rfl, rfl, rfl, rfl, rfl, rfl, rfl, rfl, rfl,
      acc_halves e.sse, acc_halves e.cnt, rfl, rfl⟩
    exact BitVec.toNat_setWidth_of_le (by decide)

/-! ### Writes to the parameter registers and QM (rules R47, R49) -/

/-- The registers that hold operands: the nine parameter registers and the entries of QM. -/
inductive OperandReg : Reg → Prop where
  | bsize : OperandReg .bsize
  | level : OperandReg .level
  | width : OperandReg .width
  | height : OperandReg .height
  | srcBase : OperandReg .srcBase
  | srcStride : OperandReg .srcStride
  | dstBase : OperandReg .dstBase
  | dstStride : OperandReg .dstStride
  | arcBase : OperandReg .arcBase
  | qm (i j : Fin 32) : OperandReg (.qm i j)

namespace OperandReg
variable {r : Reg}

theorem of_mem
    (h : r ∈ [Reg.bsize, .level, .width, .height, .srcBase, .srcStride, .dstBase, .dstStride, .arcBase]) :
    OperandReg r := by
  simp only [List.mem_cons, List.not_mem_nil, or_false] at h
  rcases h with rfl | rfl | rfl | rfl | rfl | rfl | rfl | rfl | rfl <;> constructor

theorem ne_cmd (h : OperandReg r) : r ≠ .cmd := by rintro rfl; cases h

/-- While busy the write is dropped and REJ is set. -/
theorem regWrite_busy (h : OperandReg r) {e : Engine} (hb : e.status.busy = true) (v : Word) :
    e.regWrite r v = e.reject := by
  cases h <;> exact if_pos hb

/-- While idle the hidden state stays, and so does every register but the written one. -/
theorem regWrite_idle_frame (h : OperandReg r) {e : Engine} (hb : e.status.busy = false) (v : Word) :
    (e.regWrite r v).curop = e.curop ∧ (e.regWrite r v).accf = e.accf ∧ (e.regWrite r v).creq = e.creq ∧
      ∀ r', r' ≠ r → (e.regWrite r v).regRead r' = e.regRead r' := by
  cases h with
  | qm i j =>
    simp only [Engine.regWrite, Engine.whenIdle, hb, Bool.false_eq_true, if_false, true_and]
    intro r' hr
    cases r' with
    | qm i' j' =>
      have hentry : ¬ (i' = i ∧ j' = j) := fun ⟨hi, hj⟩ => hr (hi ▸ hj ▸ rfl)
      rw [Engine.regRead, Engine.regRead, put_entry, if_neg hentry]
    | _ => rfl
  | _ =>
    simp only [Engine.regWrite, Engine.whenIdle, hb, Bool.false_eq_true, if_false, true_and]
    intro r' hr
    cases r' <;> simp [Engine.regRead] at hr ⊢

/-- The low half of a word, zero-extended, is the word masked. -/
theorem low_half_zeroExtend (v : Word) : (v.extractLsb' 0 16).zeroExtend 32 = v &&& 0x0000FFFF#32 := by
  refine BitVec.eq_of_getLsbD_eq fun i hi => ?_
  have hmask : ∀ i < 32, (0x0000FFFF#32).getLsbD i = decide (i < 16) := by decide
  rw [BitVec.getLsbD_and, hmask i hi]
  simp [hi, Bool.and_comm]

/-- While idle a parameter register takes the whole word and a QM entry its low half. -/
theorem regRead_regWrite_idle (h : OperandReg r) {e : Engine} (hb : e.status.busy = false) (v : Word) :
    (e.regWrite r v).regRead r = if ∃ i j : Fin 32, r = .qm i j then v &&& 0x0000FFFF#32 else v := by
  cases h with
  | qm i j =>
    have hlow := low_half_zeroExtend v
    simp [Engine.regWrite, Engine.whenIdle, hb, Engine.regRead, put_entry, ← hlow]
  | _ => simp [Engine.regWrite, Engine.whenIdle, hb, Engine.regRead]

end OperandReg

/-- Settles O41: the write reaches the register that its offset names, and only that one. -/
theorem parameterAndStoreWritesWhileIdle : Obligations.ParameterAndStoreWritesWhileIdle := by
  intro s r v hb hr
  have hop : OperandReg r := by
    rcases hr with hr | ⟨i, j, rfl⟩
    · exact .of_mem hr
    · exact .qm i j
  obtain ⟨hcurop, haccf, hcreq, hother⟩ := hop.regWrite_idle_frame hb v
  refine ⟨s.eng.regWrite r v, ?_, hop.regRead_regWrite_idle hb v, hother, hcurop, haccf, hcreq⟩
  rw [hostAccess_write (regOf_offset r), hostWrite_of_ne_cmd hop.ne_cmd]
  rfl

/-- Settles O42: every such write is rejected. -/
theorem writesWhileBusyAreRejected : Obligations.WritesWhileBusyAreRejected := by
  intro s v hb
  have rejected : ∀ r, OperandReg r → hostAccess (.write 32 r.offset v) s = .next (s.setEng s.eng.reject) := by
    intro r hop
    rw [hostAccess_write (regOf_offset r), hostWrite_of_ne_cmd hop.ne_cmd, hop.regWrite_busy hb]
  exact ⟨fun r hr => rejected r (.of_mem hr), fun i j => rejected _ (.qm i j)⟩

/-! ### Read-only registers (rule R47) -/

/-- The registers that no write changes and that issue nothing. -/
def readOnlyRegs : List Reg :=
  [.id, .errinfo, .faddr, .udone, .utotal, .sseLo, .sseHi, .cntLo, .cntHi, .psnr, .ratio, .reserved]

theorem hostAccess_write_readOnly {off : Nat} {r : Reg} (hoff : regOf off = some r) (hr : r ∈ readOnlyRegs)
    (v : Word) (s : State) : hostAccess (.write 32 off v) s = .next s := by
  have hcmd : r ≠ .cmd := by rintro rfl; exact absurd hr (by decide)
  have hsame : s.eng.regWrite r v = s.eng := by
    simp only [readOnlyRegs, List.mem_cons, List.not_mem_nil, or_false] at hr
    rcases hr with rfl | rfl | rfl | rfl | rfl | rfl | rfl | rfl | rfl | rfl | rfl | rfl <;> rfl
  rw [hostAccess_write hoff, hostWrite_of_ne_cmd hcmd, hsame, setEng_self]

/-- Settles O43: each of these offsets names a read-only register or none. -/
theorem readOnlyRegistersIgnoreWrites : Obligations.ReadOnlyRegistersIgnoreWrites := by
  refine fun s v => ⟨fun r hr => hostAccess_write_readOnly (regOf_offset r) hr v s, fun off hoff => ?_, ?_⟩
  · have named : ∀ off ∈ [0x000, 0x00C, 0x010, 0x03C, 0x040, 0x044, 0x048, 0x04C, 0x050, 0x054, 0x058, 0x05C],
        ∃ r ∈ readOnlyRegs, regOf off = some r := by decide
    obtain ⟨r, hr, hreg⟩ := named off hoff
    exact hostAccess_write_readOnly hreg hr v s
  · obtain ⟨-, -, -, -, hreserved⟩ := registerMapIsExact
    exact fun off haligned hlo hhi => hostAccess_write_readOnly (hreserved off haligned hlo hhi) (by decide) v s

end Sys2Proof.Machine

/-! Races: which bytes an agent reads as they are, and what the host's accesses do to the standing of a byte (rules R58, R59, R63). -/

namespace Sys2Proof.Machine

/-! ### When a byte is determined -/

theorem outputByte_eq_false_iff (s : State) (a : Nat) :
    s.outputByte a = false ↔ ∀ c ∈ s.owned, c.region.written = false ∨ c.region.contains a = false := by
  simp only [State.outputByte, List.any_eq_false, Bool.not_eq_true, Bool.and_eq_false_iff]

theorem disturbed_eq_false_iff (s : State) (a : Nat) :
    s.disturbed a = false ↔ ∀ r ∈ s.rivals, r.other = none → r.region.contains a = false := by
  simp [State.disturbed]

theorem contested_eq_false_iff (s : State) (k a : Nat) :
    s.contested k a = false ↔
      ∀ r ∈ s.rivals, r.engine = k → r.region.written = false ∨ r.region.contains a = false := by
  rw [State.contested, List.any_eq_false]
  refine forall₂_congr fun r _ => ?_
  rw [Bool.and_assoc, Bool.and_eq_true, beq_iff_eq, not_and, Bool.not_eq_true, Bool.and_eq_false_iff]

theorem racyRead_host_eq_false_iff (s : State) (a : Nat) :
    s.racyRead none a = false ↔ a ∉ s.raced ∧ s.outputByte a = false ∧ s.disturbed a = false := by
  simp [State.racyRead]

theorem racyRead_engine_eq_false_iff (s : State) (k a : Nat) :
    s.racyRead (some k) a = false ↔ a ∉ s.raced ∧ s.contested k a = false := by
  simp [State.racyRead]

/-! ### What a read returns (log entry 6) -/

theorem mem_candidates {s : State} {a : Nat} {b : Byte} :
    b ∈ s.candidates a ↔ b = s.mem.read a ∨ (a, b) ∈ s.past := by
  simp [State.candidates]

/-- Whatever the free value is, a read returns a candidate. -/
theorem fetch_mem_candidates (s : State) (ag : Option Nat) (slot a : Nat) : s.fetch ag slot a ∈ s.candidates a := by
  unfold State.fetch
  split
  · have hpos : 0 < (s.candidates a).length := by simp [State.candidates]
    rw [List.getD_eq_getElem _ _ (Nat.mod_lt _ hpos)]
    exact List.getElem_mem _
  · exact mem_candidates.2 (.inl rfl)

/-- Settles O47: a racing read returns a candidate, and a read where nothing races is memory's. -/
theorem racesReturnHeldValues : Obligations.RacesReturnHeldValues := by
  refine fun s agent slot a => ⟨mem_candidates.1 (fetch_mem_candidates s agent slot a), ?_⟩
  intro hraced hhost hengine
  refine fetch_of_not_racy ?_ slot
  cases agent with
  | none =>
    obtain ⟨howned, hrivals⟩ := hhost rfl
    exact (racyRead_host_eq_false_iff s a).2
      ⟨hraced, (outputByte_eq_false_iff s a).2 howned, (disturbed_eq_false_iff s a).2 hrivals⟩
  | some k => exact (racyRead_engine_eq_false_iff s k a).2 ⟨hraced, (contested_eq_false_iff s k a).2 (hengine k rfl)⟩

/-! ### The host writes a byte -/

@[simp] theorem Region.byte_contains (a x : Nat) : (Region.byte a).contains x = decide (x = a) := by
  rw [Bool.eq_iff_iff]
  simp only [Region.contains, Bool.and_eq_true, decide_eq_true_eq]
  change (a ≤ x ∧ (x - a) / 1 < 1) ∧ (x - a) % 1 < 1 ↔ x = a
  omega

@[simp] theorem Region.byte_written (a : Nat) : (Region.byte a).written = true := rfl

theorem mem_rivalsAfter_host {s : State} {a : Nat} {r : Rival} :
    r ∈ s.rivalsAfter none a ↔
      r ∈ s.rivals ∨ ∃ c ∈ s.owned, c.region.contains a = true ∧ r = ⟨c.engine, none, Region.byte a⟩ := by
  simp only [State.rivalsAfter, List.mem_append, List.mem_map, List.mem_filter, and_assoc, eq_comm (b := r)]

/-- A write disturbs no byte but its own. -/
theorem contested_store_host_other (s : State) (k : Nat) {a x : Nat} (b : Byte) (h : x ≠ a) :
    (s.store none a b).contested k x = s.contested k x := by
  simp [State.contested, State.rivalsAfter, List.any_append, List.any_map, h]

theorem disturbed_store_host_other (s : State) {a x : Nat} (b : Byte) (h : x ≠ a) :
    (s.store none a b).disturbed x = s.disturbed x := by
  simp [State.disturbed, State.rivalsAfter, List.any_append, List.any_map, h]

theorem mem_raced_store_other (s : State) (ag : Option Nat) {a x : Nat} (b : Byte) (h : x ≠ a) :
    x ∈ (s.store ag a b).raced ↔ x ∈ s.raced := by
  rw [store_raced, mem_racedAfter, if_neg h]

/-- Every other byte keeps its standing, for every agent. -/
theorem racyRead_store_host_other (s : State) (ag : Option Nat) {a x : Nat} (b : Byte) (h : x ≠ a) :
    (s.store none a b).racyRead ag x = s.racyRead ag x := by
  have hraced : (s.store none a b).raced.contains x = s.raced.contains x := by
    rw [Bool.eq_iff_iff, List.contains_iff_mem, List.contains_iff_mem, mem_raced_store_other s none b h]
  cases ag with
  | none =>
    have houtput : (s.store none a b).outputByte x = s.outputByte x := rfl
    simp only [State.racyRead, hraced, houtput, disturbed_store_host_other s b h]
  | some k => simp only [State.racyRead, hraced, contested_store_host_other s k b h]

/-- A byte that the host writes inside a command's region is undetermined for that command and for the host. -/
theorem racyRead_store_host_of_owned {s : State} {a : Nat} {c : Claim} (hc : c ∈ s.owned)
    (ha : c.region.contains a = true) (b : Byte) :
    (s.store none a b).racyRead (some c.engine) a = true ∧ (s.store none a b).racyRead none a = true := by
  have hrival : (⟨c.engine, none, Region.byte a⟩ : Rival) ∈ (s.store none a b).rivals :=
    mem_rivalsAfter_host.2 (.inr ⟨c, hc, ha, rfl⟩)
  have hcontested : (s.store none a b).contested c.engine a = true :=
    List.any_eq_true.2 ⟨_, hrival, by simp⟩
  have hdisturbed : (s.store none a b).disturbed a = true :=
    List.any_eq_true.2 ⟨_, hrival, by simp⟩
  simp [State.racyRead, hcontested, hdisturbed]

/-- The host's write puts its own byte in a race exactly where an outstanding command writes it. -/
theorem mem_raced_store_host_self (s : State) (a : Nat) (b : Byte) :
    a ∈ (s.store none a b).raced ↔ s.outputByte a = true := by
  rw [store_raced, mem_racedAfter, if_pos rfl]
  rfl

/-- Settles O48: the written byte by the regions that contain it, every other byte by the frame of the write. -/
theorem hostWritesRaceOnlyOwnedBytes : Obligations.HostWritesRaceOnlyOwnedBytes := by
  intro s a b ha
  refine ⟨s.store none a b, if_pos ((inSpace_iff a).2 ha), List.mem_cons_self, ?_, ?_, ?_, ?_, rfl, ?_, ?_,
    rfl, rfl, rfl⟩
  · exact fun c hc hca => racyRead_store_host_of_owned hc hca b
  · rintro ⟨c, hc, hwritten, hca⟩
    exact (mem_raced_store_host_self s a b).2 (List.any_eq_true.2 ⟨c, hc, by simp [hwritten, hca]⟩)
  · intro howned
    rw [mem_raced_store_host_self, (outputByte_eq_false_iff s a).2 howned]
    exact Bool.false_ne_true
  · exact fun x hx => ⟨mem_raced_store_other s none b hx, fun ag => racyRead_store_host_other s ag b hx⟩
  · exact fun x hx => Memory.read_write_other s.mem b hx
  · exact fun hwf => Memory.read_write_same hwf a b

/-! ### The host reads STATUS -/

/-- Dropping the rivals of one engine settles nothing for another (rule R63). -/
theorem contested_release_other (s : State) {k j : Nat} (h : k ≠ j) (a : Nat) :
    (s.release j).contested k a = s.contested k a := by
  simp only [State.contested, release_rivals, List.any_filter]
  congr 1
  funext r
  by_cases hr : r.engine = k <;> simp [hr, h]

theorem hostRead_status_idle {s : State} (hb : s.eng.status.busy = false) :
    hostRead .status s = ({ s with rdata := s.eng.status.word } : State).release s.idx := if_pos ⟨rfl, hb⟩

theorem hostRead_status_busy {s : State} (hb : s.eng.status.busy = true) :
    hostRead .status s = { s with rdata := s.eng.status.word } := if_neg (by simp [hb])

/-- Settles O49: with BUSY = 0 exactly this engine's claims and rivals are dropped. -/
theorem statusReadReleasesTheRegions : Obligations.StatusReadReleasesTheRegions := by
  intro s
  have hread : hostAccess (.read 32 0x008) s = .next (hostRead .status s) := hostAccess_read (regOf_offset .status) s
  rw [hread]
  refine ⟨fun hb => by rw [hostRead_status_busy hb], fun hb => ⟨hostRead .status s, rfl, ?_⟩⟩
  rw [hostRead_status_idle hb]
  refine ⟨rfl, fun c => by simp, fun r => by simp, fun k a hk => ?_, fun slot a hraced howned hrivals => ?_⟩
  · exact congrArg (s.raced.contains a || ·) (contested_release_other _ hk a)
  · refine fetch_of_not_racy (s := ({ s with rdata := s.eng.status.word } : State).release s.idx)
      ((racyRead_host_eq_false_iff _ a).2 ⟨hraced, ?_, ?_⟩) slot
    · rw [outputByte_eq_false_iff]
      intro c hc
      simp only [release_owned, List.mem_filter, bne_iff_ne] at hc
      exact (howned c hc.1).resolve_left hc.2
    · rw [disturbed_eq_false_iff]
      intro r hr hhost
      simp only [release_rivals, List.mem_filter, bne_iff_ne] at hr
      exact ((hrivals r hr.1).resolve_left hr.2).resolve_left (fun hne => hne hhost)

end Sys2Proof.Machine

/-! Engine steps and memory: how a refused access ends a unit, which bytes a unit can change, and that none of its addresses leaves the memory space (rules R55 to R57, R117, R124). -/

namespace Sys2Proof.Machine

/-! ### The dispatch of rule R160 for an engine with a unit to do -/

section dispatch
variable {s : State} (hb : s.eng.status.busy = true) (hc : s.eng.creq = false) (hu : s.eng.udone ≠ s.eng.utotal)
include hb hc hu

theorem engineStep_eq_procBlock (ho : s.eng.curop = 0x01#8) : engineStep s = procBlock s := by
  simp [engineStep, hb, hc, hu, ho]

theorem engineStep_eq_maccRow (ho : s.eng.curop ≠ 0x01#8) : engineStep s = maccRow s := by
  simp [engineStep, hb, hc, hu, ho]

end dispatch

/-! ### Refused accesses (rules R56, R57) -/

/-- The reads end at the first refused address. -/
theorem readAll_refused_at {s : State} {pre post : List Nat} {a : Nat} (hpre : ∀ b ∈ pre, s.mayRead b)
    (ha : inSpace a = true) (hok : s.memOK a .read = false) (slot : Nat) :
    s.readAll slot (pre ++ a :: post) = .refused a := by
  induction pre generalizing slot with
  | nil => simp [State.readAll, ha, hok]
  | cons b pre ih =>
    obtain ⟨hin, hread⟩ := hpre b List.mem_cons_self
    rw [List.cons_append, State.readAll, ih (fun c hc => hpre c (List.mem_cons_of_mem _ hc))]
    simp [hin, hread]

theorem procBlock_of_readRefused {s : State} {a : Nat}
    (h : s.readAll 0 (s.eng.blockReads s.eng.udone.toNat) = .refused a) :
    procBlock s = .next { s with tick := s.tick + 1, eng := s.eng.raise .busRead (BitVec.ofNat 32 a) } := by
  rw [procBlock, h]; rfl

theorem maccRow_of_readRefused {s : State} {a : Nat}
    (h : s.readAll 0 (s.eng.rowReads s.eng.udone.toNat) = .refused a) :
    maccRow s = .next { s with tick := s.tick + 1, eng := s.eng.raise .busRead (BitVec.ofNat 32 a) } := by
  rw [maccRow, h]; rfl

/-- Settles O27: for a block and for a row the reads end at the first refused one, before anything is written. -/
theorem refusedReadEndsTheUnit : Obligations.RefusedReadEndsTheUnit := by
  intro s pre post a hb hc hu hunit hpre ha hok
  rcases hunit with ⟨ho, hreads⟩ | ⟨ho, hreads⟩
  · rw [engineStep_eq_procBlock hb hc hu ho]
    exact procBlock_of_readRefused (hreads ▸ readAll_refused_at hpre ha hok 0)
  · rw [engineStep_eq_maccRow hb hc hu (by rw [ho]; decide)]
    exact maccRow_of_readRefused (hreads ▸ readAll_refused_at hpre ha hok 0)

theorem memOK_storeBytes (s : State) (k a : Nat) (bs : List Byte) (x : Nat) (kind : AccessKind) :
    (s.storeBytes (some k) a bs).memOK x kind = s.memOK x kind := by
  rw [storeBytes_frame]; rfl

/-- The writes end at the first access that is refused at any of its bytes, after all the accesses before it. -/
theorem writeAll_refused_at {s : State} {pre post : List (Nat × List Byte)} {w : Nat × List Byte}
    (hpre : ∀ v ∈ pre, s.mayWrite v) (hin : ∀ i < w.2.length, inSpace (w.1 + i) = true)
    (hok : ∃ i < w.2.length, s.memOK (w.1 + i) .write = false) :
    ∃ t, s.writeAll pre = .ok t ∧ s.writeAll (pre ++ w :: post) = .refused t w.1 := by
  induction pre generalizing s with
  | nil =>
    obtain ⟨i, hi, hno⟩ := hok
    have hrefused : (accessBytes w.1 w.2.length).all (fun b => s.memOK b .write) = false := by
      refine Bool.eq_false_iff.2 fun hall => ?_
      simp [accessBytes_all.1 hall i hi] at hno
    refine ⟨s, rfl, ?_⟩
    rw [List.nil_append, State.writeAll, accessBytes_all.2 hin, hrefused]
    rfl
  | cons v pre ih =>
    have hv := hpre v List.mem_cons_self
    have hvin : (accessBytes v.1 v.2.length).all inSpace = true := accessBytes_all.2 fun i hi => (hv i hi).1
    have hvok : (accessBytes v.1 v.2.length).all (fun b => s.memOK b .write) = true :=
      accessBytes_all.2 fun i hi => (hv i hi).2
    obtain ⟨t, hpreWrites, hwrites⟩ := ih (s := s.storeBytes (some s.idx) v.1 v.2)
      (fun x hx i hi => by
        rw [memOK_storeBytes]
        exact hpre x (List.mem_cons_of_mem _ hx) i hi)
      (by simpa only [memOK_storeBytes] using hok)
    refine ⟨t, ?_, ?_⟩
    · simpa [State.writeAll, hvin, hvok] using hpreWrites
    · simpa [State.writeAll, hvin, hvok] using hwrites

/-- Where no read is refused and no agent races, a refused write of what the unit makes of memory's samples ends the block step. -/
theorem procBlock_of_writeRefused {s u : State} {a : Nat} (hr : s.noRace)
    (hreads : ∀ x ∈ s.eng.blockReads s.eng.udone.toNat, s.mayRead x)
    (hw : ({ s with tick := s.tick + 1 } : State).writeAll
      (s.eng.slotWrites s.eng.udone.toNat (s.eng.coded s.mem s.eng.udone.toNat) ++
        s.eng.sampleWrites s.eng.udone.toNat (s.eng.decoded s.mem s.eng.udone.toNat)) = .refused u a) :
    procBlock s = .next (u.setEng (s.eng.raise .busWrite (BitVec.ofNat 32 a))) := by
  rw [Engine.decoded, Engine.coded, Engine.blockBytes] at hw
  rw [procBlock, readAll_of_noRace hr 0 hreads]
  simp only [hw]

/-- Settles O28: the accesses before the refused one are what the sequence of writes has done. -/
theorem refusedWriteEndsTheUnit : Obligations.RefusedWriteEndsTheUnit := by
  intro s pre post w hwf hr hb hc hu ho hreads hwrites hpre hin hok
  obtain ⟨t, hdone, hrefused⟩ :=
    writeAll_refused_at (s := { s with tick := s.tick + 1 }) (post := post) hpre hin hok
  refine ⟨t.setEng (s.eng.raise .busWrite (BitVec.ofNat 32 w.1)), ?_, rfl, ?_, ?_⟩
  · rw [engineStep_eq_procBlock hb hc hu ho]
    exact procBlock_of_writeRefused hr hreads (hwrites ▸ hrefused)
  · exact fun a ha => writeAll_read_other hdone a ha
  · rintro l r a bs rfl i hi hlast
    rw [List.getElem?_eq_getElem hi]
    exact congrArg some (writeAll_read (s := { s with tick := s.tick + 1 }) hwf hdone i hi hlast)

/-! ### The bytes that a unit writes (rules R117, R124) -/

/-- An archive entry lies in the slot of its unit. -/
theorem inSlot_arcAddr {e : Engine} (k : Nat) {u v i : Nat} (hu : u < e.n) (hv : v < e.n) (hi : i < 2) :
    e.inSlot k (e.arcAddr k u v + i) := by
  have hentry : u * e.n + v + 1 ≤ e.n * e.n :=
    calc u * e.n + v + 1 ≤ (u + 1) * e.n := by rw [Nat.succ_mul]; omega
      _ ≤ e.n * e.n := Nat.mul_le_mul_right _ hu
  have hsquare : 2 * e.n * e.n = 2 * (e.n * e.n) := Nat.mul_assoc _ _ _
  constructor <;> simp only [Engine.arcAddr] <;> omega

/-- The writes of a unit go to its archive slot and to its rectangle. -/
theorem inRect_or_inSlot_of_writtenBy {e : Engine} {k a : Nat} {q p : Block}
    (h : writtenBy (e.slotWrites k q ++ e.sampleWrites k p) a) : e.inRect k a ∨ e.inSlot k a := by
  obtain ⟨w, hw, hlo, hhi⟩ := h
  rcases List.mem_append.1 hw with hw | hw
  · obtain ⟨u, hu, v, hv, rfl⟩ := slotWrites_mem.1 hw
    simp only [bytesLE, List.length_cons, List.length_nil] at hlo hhi
    obtain ⟨i, rfl⟩ := Nat.exists_eq_add_of_le hlo
    exact .inr (inSlot_arcAddr k hu hv (by omega))
  · obtain ⟨r, hr, c, hc, rfl⟩ := sampleWrites_mem.1 hw
    simp only [List.length_cons, List.length_nil] at hlo hhi
    exact .inl ⟨r, hr, c, hc, by omega⟩

/-- A block step changes no byte outside the rectangle and the slot of its unit. -/
theorem procBlock_read_other {s t : State} (h : procBlock s = .next t) {a : Nat}
    (hrect : ¬ s.eng.inRect s.eng.udone.toNat a) (hslot : ¬ s.eng.inSlot s.eng.udone.toNat a) :
    t.mem.read a = s.mem.read a := by
  have unwritten : ∀ q p,
      ¬ writtenBy (s.eng.slotWrites s.eng.udone.toNat q ++ s.eng.sampleWrites s.eng.udone.toNat p) a :=
    fun q p hw => (inRect_or_inSlot_of_writtenBy hw).elim hrect hslot
  rcases procBlock_cases h with ⟨x, -, rfl⟩ | ⟨bytes, q, p, -, -, -, ⟨u, x, hw, rfl⟩ | ⟨u, hw, rfl⟩⟩
  · rfl
  · exact writeAll_refused_read_other hw a (unwritten q p)
  · exact writeAll_read_other hw a (unwritten q p)

/-- No engine step but a block step changes memory, and a block step only at its unit. -/
theorem engineStep_changes_only_its_unit {s t : State} (h : engineStep s = .next t) {a : Nat}
    (ha : t.mem.read a ≠ s.mem.read a) :
    s.eng.status.busy = true ∧ s.eng.curop = 0x01#8 ∧ s.eng.creq = false ∧ s.eng.udone ≠ s.eng.utotal ∧
      (s.eng.inRect s.eng.udone.toNat a ∨ s.eng.inSlot s.eng.udone.toNat a) := by
  rcases engineStep_cases h with ⟨-, rfl⟩ | ⟨-, -, rfl⟩ | ⟨-, -, -, rfl⟩ | ⟨hb, hc, hu, ho, h⟩ | ⟨-, -, -, -, h⟩
  · exact absurd rfl ha
  · exact absurd rfl ha
  · exact absurd rfl ha
  · refine ⟨hb, ho, hc, hu, ?_⟩
    by_contra hout
    rw [not_or] at hout
    exact ha (procBlock_read_other h hout.1 hout.2)
  · rcases maccRow_cases h with ⟨x, -, rfl⟩ | ⟨bytes, -, rfl⟩ <;> exact absurd rfl ha

/-- Settles O55, event by event. -/
theorem onlyProcAndTheHostWriteMemory : Obligations.OnlyProcAndTheHostWriteMemory := by
  intro s t a h ha
  rcases step_cases h with ⟨-, -, rfl⟩ | ⟨x, rest, -, h⟩ | ⟨x, b, rest, hin, h⟩ | ⟨k, ins, u, hf, h⟩
  · exact absurd rfl ha
  · rw [hostLoad_cases h] at ha
    exact absurd rfl ha
  · obtain ⟨rfl, -⟩ := hostStore_cases h
    obtain rfl : a = x := by
      by_contra hne
      exact ha (Memory.read_write_other _ b hne)
    exact .inl ⟨b, rest, hin⟩
  · obtain ⟨-, -, he, hu⟩ := focus_some hf
    have hmem : u.mem = s.mem := by rw [hu]
    rw [← hmem] at ha
    rcases h with ⟨x, rest, -, -, h⟩ | ⟨hin, h⟩ | ⟨-, rfl⟩
    · rw [hostAccess_frame h] at ha
      exact absurd rfl ha
    · exact .inr ⟨k, u.eng, he, hin, engineStep_changes_only_its_unit h ha⟩
    · exact absurd rfl ha

/-! ### The addresses of a unit (rule R55) -/

/-- A sample of a block is a sample of the plane. -/
theorem geometry_inside (e : Engine) {k r c : Nat} (hr : r < (e.geometry k).h) (hc : c < (e.geometry k).w) :
    (e.geometry k).y0 + r < e.height.toNat ∧ (e.geometry k).x0 + c < e.width.toNat := by
  simp only [Engine.geometry, lt_min_iff] at *
  omega

section planes
variable {e : Engine} (h : e.planesLegal) {y x : Nat} (hy : y < e.height.toNat) (hx : x < e.width.toNat)
include h hy hx

theorem srcAddr_inSpace : inSpace (e.srcAddr y x) = true := by
  obtain ⟨-, -, -, -, hsrc, -⟩ := h
  exact (inSpace_iff _).2 (plane_lt hsrc hy hx)

theorem dstAddr_inSpace : inSpace (e.dstAddr y x) = true := by
  obtain ⟨-, -, -, -, -, hdst⟩ := h
  exact (inSpace_iff _).2 (plane_lt hdst hy hx)

end planes

theorem rowReads_inSpace {e : Engine} (h : e.planesLegal) {y : Nat} (hy : y < e.height.toNat) :
    ∀ a ∈ e.rowReads y, inSpace a = true := by
  intro a ha
  obtain ⟨x, hx, rfl | rfl⟩ := rowReads_mem.1 ha
  · exact srcAddr_inSpace h hy hx
  · exact dstAddr_inSpace h hy hx

theorem blockReads_inSpace {e : Engine} (h : e.procLegal) (k : Nat) : ∀ a ∈ e.blockReads k, inSpace a = true := by
  obtain ⟨-, -, hplanes, -⟩ := h
  intro a ha
  obtain ⟨r, hr, c, hc, rfl⟩ := blockReads_mem.1 ha
  obtain ⟨hy, hx⟩ := geometry_inside e hr hc
  exact srcAddr_inSpace hplanes hy hx

theorem blockWrites_inSpace {e : Engine} (h : e.procLegal) {k : Nat} (hk : k < e.nbx * e.nby) (q p : Block) :
    ∀ w ∈ e.slotWrites k q ++ e.sampleWrites k p, (accessBytes w.1 w.2.length).all inSpace = true := by
  obtain ⟨-, -, hplanes, -, harc, -⟩ := h
  intro w hw
  refine accessBytes_all.2 fun i hi => ?_
  rcases List.mem_append.1 hw with hw | hw
  · obtain ⟨u, hu, v, hv, rfl⟩ := slotWrites_mem.1 hw
    obtain ⟨-, hslot, harchive⟩ := arcAddr_bound hk hu hv
    simp only [bytesLE, List.length_cons, List.length_nil] at hi
    exact (inSpace_iff _).2 (by omega)
  · obtain ⟨r, hr, c, hc, rfl⟩ := sampleWrites_mem.1 hw
    obtain ⟨hy, hx⟩ := geometry_inside e hr hc
    obtain rfl : i = 0 := by simpa using hi
    exact dstAddr_inSpace hplanes hy hx

/-- A block step whose addresses all exist has a next state, refused accesses included. -/
theorem procBlock_next {s : State} (hreads : ∀ a ∈ s.eng.blockReads s.eng.udone.toNat, inSpace a = true)
    (hwrites : ∀ q p, ∀ w ∈ s.eng.slotWrites s.eng.udone.toNat q ++ s.eng.sampleWrites s.eng.udone.toNat p,
      (accessBytes w.1 w.2.length).all inSpace = true) :
    ∃ t, procBlock s = .next t := by
  unfold procBlock
  dsimp only
  split
  · next a hr => exact absurd hr (readAll_inSpace hreads a)
  · exact ⟨_, rfl⟩
  · split
    · next a hw => exact absurd hw (writeAll_inSpace (hwrites _ _) a)
    · exact ⟨_, rfl⟩
    · exact ⟨_, rfl⟩

/-- A row step whose addresses all exist has a next state, refused reads included. -/
theorem maccRow_next {s : State} (hreads : ∀ a ∈ s.eng.rowReads s.eng.udone.toNat, inSpace a = true) :
    ∃ t, maccRow s = .next t := by
  unfold maccRow
  dsimp only
  split
  · next a hr => exact absurd hr (readAll_inSpace hreads a)
  · exact ⟨_, rfl⟩
  · exact ⟨_, rfl⟩

/-- An engine step of a good engine never faults: a unit still to do is one of the command's, whose checks have bounded it. -/
theorem engineStep_next {s : State} (hi : s.eng.Inv) : ∃ t, engineStep s = .next t := by
  unfold engineStep
  split
  · exact ⟨_, rfl⟩
  · next hb =>
    obtain ⟨⟨hop, -⟩, -⟩ := hi.busy
    replace hop := hop (by simpa using hb)
    split
    · exact ⟨_, rfl⟩
    · split
      · exact ⟨_, rfl⟩
      · next hu =>
        have hlt := hi.udone_lt hu
        obtain ⟨hproc, hmacc⟩ := hi.command
        split
        · next ho =>
          obtain ⟨hlegal, htotal⟩ := hproc ho
          exact procBlock_next (blockReads_inSpace hlegal _) (blockWrites_inSpace hlegal (htotal ▸ hlt))
        · next ho =>
          obtain ⟨hplanes, htotal⟩ := hmacc (hop.resolve_left ho)
          exact maccRow_next (rowReads_inSpace hplanes (htotal ▸ hlt))

/-- Settles O56: the scheduled engine is one of the platform's, and good. -/
theorem engineStepsStayInTheMemorySpace : Obligations.EngineStepsStayInTheMemorySpace := by
  intro s k hi hk
  obtain ⟨u, hu⟩ := focus_isSome hk
  obtain ⟨-, -, he, -⟩ := focus_some hu
  rw [runEvent, State.withEngine, hu]
  exact engineStep_next (hi.engines u.eng (List.mem_of_getElem? he))

end Sys2Proof.Machine

/-! The frame of the commands: what issuing one leaves alone (rules R45, R127, R142, R143, R149, R163, R164). -/

namespace Sys2Proof.Machine

/-- What the engine `e` keeps when command `i` makes it `e'`, one group of registers and flags at a time. -/
structure CommandKeeps (i : Instr) (e e' : Engine) : Prop where
  operands : i ≠ .srst → e.sameOperands e' ∧ e'.ien = e.ien
  sums : i ≠ .srst → i ≠ .mclr → e'.sse = e.sse ∧ e'.cnt = e.cnt ∧ e'.status.movf = e.status.movf
  results : i ≠ .srst → i ≠ .mfin → e'.psnr = e.psnr ∧ e'.ratio = e.ratio
  mvalid : i = .nop ∨ i = .abort → e'.status.mvalid = e.status.mvalid
  progress : i ≠ .srst → i ≠ .macc → (∀ acc, i ≠ .proc acc) →
    e'.udone = e.udone ∧ e'.utotal = e.utotal ∧ e'.status.busy = e.status.busy
  rej : e.status.busy = false → i ≠ .srst → e'.status.rej = e.status.rej

/-- A change of the outcome bits, REJ while busy, ERRINFO, FADDR and the hidden state alone keeps everything that any command keeps. -/
theorem CommandKeeps.of_outcome (i : Instr) {e : Engine} {st : Status} {info addr : Word} {op : BitVec 8}
    {acc creq : Bool} (hbusy : st.busy = e.status.busy) (hmvalid : st.mvalid = e.status.mvalid)
    (hmovf : st.movf = e.status.movf) (hrej : e.status.busy = false → st.rej = e.status.rej) :
    CommandKeeps i e { e with
      status := st, errinfo := info, faddr := addr, curop := op, accf := acc, creq := creq } where
  operands _ := ⟨sameOperands_refl e, rfl⟩
  sums _ _ := ⟨rfl, rfl, hmovf⟩
  results _ _ := ⟨rfl, rfl⟩
  mvalid _ := hmvalid
  progress _ _ _ := ⟨rfl, rfl, hbusy⟩
  rej h _ := hrej h

/-- Every command keeps what the frame says, in each of the ways it can end. -/
theorem exec_keeps {i : Instr} {s t : State} (h : exec i s = .next t) : CommandKeeps i s.eng t.eng := by
  rcases exec_cases h with ⟨rfl, rfl⟩ | ⟨-, ⟨-, rfl⟩ | ⟨-, rfl⟩⟩ | ⟨hb, rfl⟩ | ⟨hb, -, -, x, rfl⟩ | ⟨-, -, rfl⟩ |
    ⟨-, rfl, rfl⟩ | ⟨-, rfl, e, hok, rfl⟩ | ⟨-, rfl, e, rs, hok, rfl⟩ | ⟨-, acc, rfl, e, rs, hok, rfl⟩
  · exact {
      operands hne := absurd rfl hne
      sums hne _ := absurd rfl hne
      results hne _ := absurd rfl hne
      mvalid hi := by simp at hi
      progress hne _ _ := absurd rfl hne
      rej _ hne := absurd rfl hne }
  · exact .of_outcome i rfl rfl rfl fun _ => rfl
  · exact .of_outcome i rfl rfl rfl fun _ => rfl
  · exact .of_outcome i rfl rfl rfl fun hidle => absurd (hb.symm.trans hidle) (by decide)
  · exact .of_outcome i hb.symm rfl rfl fun _ => rfl
  · exact .of_outcome i rfl rfl rfl fun _ => rfl
  · exact {
      operands _ := ⟨sameOperands_refl _, rfl⟩
      sums _ hne := absurd rfl hne
      results _ _ := ⟨rfl, rfl⟩
      mvalid hi := by simp at hi
      progress _ _ _ := ⟨rfl, rfl, rfl⟩
      rej _ _ := rfl }
  · obtain ⟨rfl, -⟩ := mfinBody_ok hok
    exact {
      operands _ := ⟨sameOperands_refl _, rfl⟩
      sums _ _ := ⟨rfl, rfl, rfl⟩
      results _ hne := absurd rfl hne
      mvalid hi := by simp at hi
      progress _ _ _ := ⟨rfl, rfl, rfl⟩
      rej _ _ := rfl }
  · obtain ⟨-, rfl, -⟩ := maccBody_ok hok
    rw [claim_eng, setEng_eng]
    exact {
      operands _ := ⟨sameOperands_refl _, rfl⟩
      sums _ _ := ⟨rfl, rfl, rfl⟩
      results _ _ := ⟨rfl, rfl⟩
      mvalid hi := by simp at hi
      progress _ hne _ := absurd rfl hne
      rej _ _ := rfl }
  · obtain ⟨-, rfl, -⟩ := procBody_ok hok
    rw [claim_eng, setEng_eng]
    exact {
      operands _ := ⟨sameOperands_refl _, rfl⟩
      sums _ _ := ⟨rfl, rfl, rfl⟩
      results _ _ := ⟨rfl, rfl⟩
      mvalid hi := by simp at hi
      progress _ _ hne := absurd rfl (hne acc)
      rej _ _ := rfl }

/-- Settles O21: the surroundings by the frame that all commands share, the engine by what each command keeps. -/
theorem commandFrame : Obligations.CommandFrame := by
  intro i s t h
  have hkeeps := exec_keeps h
  obtain ⟨e, rs, vs, hframe⟩ := exec_frame i s
  obtain rfl : { s with eng := e, owned := rs, rivals := vs } = t := by simpa [hframe] using h
  exact ⟨fun _ => rfl, ⟨rfl, rfl, rfl, rfl, rfl⟩, hkeeps.operands, hkeeps.sums, hkeeps.results, hkeeps.mvalid,
    hkeeps.progress, hkeeps.rej⟩

end Sys2Proof.Machine

/-! Command words, the other direction: every command's own word decodes to it, the fields of a word as numbers, and what a word that is no command does (rules R65 to R67, R206). -/

namespace Sys2Proof.Machine

/-! ### A command's word decodes to the command (rules R66, R67) -/

/-- Every command is decoded from its own word. -/
theorem decode_encode (i : Instr) : decode (encode i) = .ok i := by
  cases i with
  | proc acc => cases acc <;> decide
  | _ => decide

/-- Settles O1: no other word decodes to the command, and its own word does. -/
theorem decodeExactlyTheEncodedWords : Obligations.DecodeExactlyTheEncodedWords := by
  intro w i
  constructor
  · exact eq_encode_of_decode
  · rintro rfl
    exact decode_encode i

/-! ### The fields of a word as numbers (rule R65) -/

@[simp] theorem fieldsOf_opc_toNat (w : Word) : (fieldsOf w).opc.toNat = w.toNat % 256 := by
  simp [fieldsOf, BitVec.extractLsb'_toNat]

@[simp] theorem fieldsOf_acc (w : Word) : (fieldsOf w).acc = decide (w.toNat / 256 % 2 = 1) := by
  simp [fieldsOf, BitVec.getLsbD, Nat.testBit_eq_decide_div_mod_eq]

@[simp] theorem fieldsOf_rsv_toNat (w : Word) : (fieldsOf w).rsv.toNat = w.toNat / 512 := by
  have hw := w.isLt
  simp only [fieldsOf, BitVec.extractLsb'_toNat, Nat.shiftRight_eq_div_pow]
  omega

theorem opcodeDefined_fieldsOf (w : Word) : (fieldsOf w).opcodeDefined = decide (w.toNat % 256 ≤ 6) := by
  rw [Fields.opcodeDefined, fieldsOf_opc_toNat]

theorem reservedClear_fieldsOf_eq_false (w : Word) :
    (fieldsOf w).reservedClear = false ↔
      w.toNat / 512 ≠ 0 ∨ (w.toNat / 256 % 2 = 1 ∧ w.toNat % 256 ≠ 1) := by
  have hrsv : (fieldsOf w).rsv = 0#23 ↔ w.toNat / 512 = 0 := by
    rw [← BitVec.toNat_inj, fieldsOf_rsv_toNat]; rfl
  have hproc : (fieldsOf w).opc = 1#8 ↔ w.toNat % 256 = 1 := by
    rw [← BitVec.toNat_inj, fieldsOf_opc_toNat]; rfl
  simp [Fields.reservedClear, hrsv, hproc, imp_iff_not_or]

/-! ### The order of decoding, on numbers (rule R67) -/

/-- Rule R67's order, with its conditions on the word's number and the opcode table not yet opened. -/
theorem decode_eq_chain (w : Word) :
    decode w =
      if w = 0x00000006#32 then .ok .srst
      else if w = 0x00000005#32 then .ok .abort
      else if 6 < w.toNat % 256 then .error .opcode
      else if w.toNat / 512 ≠ 0 ∨ (w.toNat / 256 % 2 = 1 ∧ w.toNat % 256 ≠ 1) then .error .reserved
      else instrOf (fieldsOf w) := by
  simp only [decode, opcodeDefined_fieldsOf, Bool.not_eq_true', decide_eq_false_iff_not, Nat.not_le,
    reservedClear_fieldsOf_eq_false]

/-- A legal word that is neither ABORT nor SRST has an opcode below theirs, as they allow no other bit. -/
theorem opcode_le_four {w : Word} (hsrst : w ≠ 0x00000006#32) (habort : w ≠ 0x00000005#32)
    (hopc : ¬ 6 < w.toNat % 256)
    (hrsv : ¬ (w.toNat / 512 ≠ 0 ∨ (w.toNat / 256 % 2 = 1 ∧ w.toNat % 256 ≠ 1))) :
    w.toNat % 256 ≤ 4 := by
  have h6 : w.toNat ≠ 6 := fun h => hsrst (BitVec.eq_of_toNat_eq h)
  have h5 : w.toNat ≠ 5 := fun h => habort (BitVec.eq_of_toNat_eq h)
  omega

/-- The rows of the opcode table below ABORT, found by number (rule R66). -/
theorem instrOf_of_le_four {f : Fields} (h : f.opc.toNat ≤ 4) :
    instrOf f =
      if f.opc.toNat = 0 then .ok .nop
      else if f.opc.toNat = 1 then .ok (.proc f.acc)
      else if f.opc.toNat = 2 then .ok .macc
      else if f.opc.toNat = 3 then .ok .mclr
      else .ok .mfin := by
  unfold instrOf
  generalize f.opc.toNat = n at h ⊢
  interval_cases n <;> rfl

/-! ### A word that is no command, written to CMD (rules R67, R157, R206) -/

section
variable {w : Word} {s : State} {d : DecodeError} (hd : decode w = .error d)
include hd

/-- An idle engine takes the error entry at once. -/
theorem issue_invalid_idle (hb : s.eng.status.busy = false) :
    issue w s = .next (s.setEng (s.eng.clearOutcome.raise (DecodeError.cmdError d) 0#32)) := by
  rw [issue, hd]
  exact congrArg _ (accept_error hb rfl)

/-- A busy engine rejects it. -/
theorem issue_invalid_busy (hb : s.eng.status.busy = true) : issue w s = .next (s.setEng s.eng.reject) := by
  rw [issue, hd]
  exact congrArg _ (accept_busy hb _)

end

/-- Settles O2, in the order of rule R67; that ABORT and SRST are not met again at the end is `opcode_le_four`. -/
theorem wordDecodingOrder : Obligations.WordDecodingOrder := by
  intro w
  refine ⟨?_, fun s d hd => ⟨fun hb => ?_, issue_invalid_busy hd⟩⟩
  · rw [decode_eq_chain]
    refine ite_congr rfl (fun _ => rfl) fun hsrst => ite_congr rfl (fun _ => rfl) fun habort =>
      ite_congr rfl (fun _ => rfl) fun hopc => ite_congr rfl (fun _ => rfl) fun hrsv => ?_
    have hle : (fieldsOf w).opc.toNat ≤ 4 := by
      rw [fieldsOf_opc_toNat]
      exact opcode_le_four hsrst habort hopc hrsv
    rw [instrOf_of_le_four hle, fieldsOf_opc_toNat, fieldsOf_acc]
  · rw [issue_invalid_idle hd hb, raise_idle hb]
    cases d <;> rfl

/-- Settles O3: the words of the table are those that the commands encode to; the two invalid ones are evaluated. -/
theorem opcodeTableWordsDecode : Obligations.OpcodeTableWordsDecode :=
  ⟨decode_encode .nop, decode_encode (.proc false), decode_encode (.proc true), decode_encode .macc,
    decode_encode .mclr, decode_encode .mfin, decode_encode .abort, decode_encode .srst,
    by decide, by decide⟩

end Sys2Proof.Machine

/-! The matrix builder of the host: its entries are valid, and the radial ramp is the real formula (rules R84, R91, R92, R94). -/

namespace Sys2Proof.Machine

/-! ### The search as a floor -/

/-- A search for the largest number up to `x` finds the floor of `x`. -/
theorem bitSearch_eq_floor {P : Nat → Bool} {x : ℝ} {n : Nat} (hP : ∀ t : Nat, P t = true ↔ (t : ℝ) ≤ x)
    (hx : 0 ≤ x) (hlt : x < 2 ^ n) : (bitSearch P n 0 : Int) = ⌊x⌋ := by
  have hdown : ∀ i j, i ≤ j → P j = true → P i = true := fun i j hij hj =>
    (hP i).2 ((Nat.cast_le.2 hij).trans ((hP j).1 hj))
  obtain ⟨hfound, hmax⟩ := bitSearch_spec hdown n 0 ((hP 0).2 (by simpa using hx))
  have hfloor : ⌊x⌋₊ = bitSearch P n 0 := by
    refine le_antisymm (hmax _ ?_ ((hP _).2 (Nat.floor_le hx))) (Nat.le_floor ((hP _).1 hfound))
    rw [zero_add, Nat.floor_lt hx]
    exact_mod_cast hlt
  rw [← hfloor, Int.natCast_floor_eq_floor hx]

/-! ### The radial ramp (rule R92) -/

/-- By how many 256ths the CustomRadial entry exceeds 1, as a real number. -/
noncomputable def radialRise (size i j : Nat) : ℝ :=
  12800 * Real.sqrt ((i : ℝ) ^ 2 + (j : ℝ) ^ 2) / ((size : ℝ) * Real.sqrt 2)

theorem radialRise_nonneg (size i j : Nat) : 0 ≤ radialRise size i j := by
  unfold radialRise; positivity

/-- The condition on integers by which the model finds the entry compares squares. -/
theorem le_radialRise_iff {size : Nat} (hs : 0 < size) (i j t : Nat) :
    (2 * t - 1) ^ 2 * (2 * size ^ 2) ≤ 4 * 12800 ^ 2 * (i ^ 2 + j ^ 2) ↔ (t : ℝ) ≤ radialRise size i j + 1 / 2 := by
  cases t with
  | zero =>
    have := radialRise_nonneg size i j
    refine iff_of_true (by simp) ?_
    rw [Nat.cast_zero]
    linarith
  | succ t =>
    have hs' : (0 : ℝ) < size := Nat.cast_pos.2 hs
    have hden : 0 < (size : ℝ) * Real.sqrt 2 := by positivity
    have hsq : ((2 * t + 1) * (size * Real.sqrt 2)) ^ 2 = (2 * t + 1 : ℝ) ^ 2 * (2 * (size : ℝ) ^ 2) := by
      rw [mul_pow, mul_pow, Real.sq_sqrt zero_le_two, mul_comm (2 : ℝ)]
      ring
    have hsq' : (25600 * Real.sqrt ((i : ℝ) ^ 2 + (j : ℝ) ^ 2)) ^ 2 =
        4 * 12800 ^ 2 * ((i : ℝ) ^ 2 + (j : ℝ) ^ 2) := by
      rw [mul_pow, Real.sq_sqrt (by positivity)]
      ring
    calc (2 * (t + 1) - 1) ^ 2 * (2 * size ^ 2) ≤ 4 * 12800 ^ 2 * (i ^ 2 + j ^ 2)
        ↔ (2 * t + 1 : ℝ) ^ 2 * (2 * (size : ℝ) ^ 2) ≤ 4 * 12800 ^ 2 * ((i : ℝ) ^ 2 + (j : ℝ) ^ 2) := by
          rw [show 2 * (t + 1) - 1 = 2 * t + 1 by omega]
          exact_mod_cast Iff.rfl
      _ ↔ (2 * t + 1) * (size * Real.sqrt 2) ≤ 25600 * Real.sqrt ((i : ℝ) ^ 2 + (j : ℝ) ^ 2) := by
          rw [← hsq, ← hsq', sq_le_sq₀ (by positivity) (by positivity)]
      _ ↔ (2 * t + 1 : ℝ) / 2 ≤ radialRise size i j := by
          rw [radialRise, le_div_iff₀ hden]
          constructor <;> intro h <;> linarith
      _ ↔ ((t + 1 : Nat) : ℝ) ≤ radialRise size i j + 1 / 2 := by
          push_cast
          constructor <;> intro h <;> linarith

/-- Inside the matrix the distance from the origin is at most `size * sqrt 2`. -/
theorem radialRise_le {size i j : Nat} (hi : i < size) (hj : j < size) : radialRise size i j ≤ 12800 := by
  have hi' : (i : ℝ) ≤ size := Nat.cast_le.2 hi.le
  have hj' : (j : ℝ) ≤ size := Nat.cast_le.2 hj.le
  have hdist : Real.sqrt ((i : ℝ) ^ 2 + (j : ℝ) ^ 2) ≤ size * Real.sqrt 2 := by
    rw [← Real.sqrt_sq (Nat.cast_nonneg size), ← Real.sqrt_mul (sq_nonneg _)]
    exact Real.sqrt_le_sqrt (by nlinarith)
  exact div_le_of_le_mul₀ (by positivity) (by norm_num) (by gcongr)

/-- The integer form of CustomRadial is ROUND of the real entry (rules R84, R92). -/
theorem radialUq88_eq_floor {size i j : Nat} (hi : i < size) (hj : j < size) :
    (radialUq88 size i j : Int) = 256 + ⌊radialRise size i j + 1 / 2⌋ := by
  have hnonneg := radialRise_nonneg size i j
  have hle := radialRise_le hi hj
  rw [radialUq88, Nat.cast_add,
    bitSearch_eq_floor (fun t => decide_eq_true_iff.trans (le_radialRise_iff (Nat.zero_lt_of_lt hi) i j t))
      (by linarith) (by linarith)]
  rfl

/-! ### Entries are valid (rule R94) -/

/-- The conversion of rule R84 ends in the valid range. -/
theorem toUq88_valid (r : Rat) : Config.qmMin ≤ toUq88 r ∧ toUq88 r ≤ 0xFFFF := by
  have h := clamp_mem (v := roundDiv (256 * r.num) r.den) (show (0x0100 : Int) ≤ 0xFFFF by norm_num)
  unfold toUq88 Config.qmMin
  omega

/-- The search for a radial entry has 14 bits, so the entry needs no clamp. -/
theorem radialUq88_valid (size i j : Nat) : Config.qmMin ≤ radialUq88 size i j ∧ radialUq88 size i j ≤ 0xFFFF := by
  have hlt : radialUq88 size i j < 256 + (0 + 2 ^ 14) := Nat.add_lt_add_left (bitSearch_bounds _ 14 0).2 256
  exact ⟨Nat.le_add_right _ _, by omega⟩

/-- Whatever the open parameters are, the host loads only valid entries. -/
theorem buildEntry_valid (P : HostParams) (p : Policy) (size i j : Nat) :
    Config.qmMin ≤ buildEntry P p size i j ∧ buildEntry P p size i j ≤ 0xFFFF := by
  cases p with
  | standard =>
    simp only [buildEntry]
    split
    · exact toUq88_valid (P.std8 i j)
    · exact toUq88_valid (clampEntry (P.resample P.base4 size i j))
  | uniform => exact ⟨le_rfl, by norm_num [buildEntry]⟩
  | customRadial => exact radialUq88_valid size i j

/-- Settles O39, policy by policy for the range; the radial ramp is a search for a floor. -/
theorem builderEntriesAreValid : Obligations.BuilderEntriesAreValid := by
  refine ⟨fun P p size i j _ _ _ => buildEntry_valid P p size i j, fun P size i j _ hi hj => ?_⟩
  have hreal : 256 * (1 + 50 * Real.sqrt ((i : ℝ) ^ 2 + (j : ℝ) ^ 2) / ((size : ℝ) * Real.sqrt 2)) + 1 / 2 =
      (256 : Int) + (radialRise size i j + 1 / 2) := by
    rw [radialRise]
    push_cast
    ring
  rw [hreal, Int.floor_intCast_add]
  exact radialUq88_eq_floor hi hj

end Sys2Proof.Machine

/-! The codec datapath: ROUND, the two transforms as sums that are linear in the block, the bound on a quantized coefficient, and the blocks that come back exactly (rules R96 to R110). -/

namespace Sys2Proof.Machine

/-! ### ROUND (rule R99) -/

/-- The formula as the rule prints it, with the absolute value of the integers. -/
theorem roundDiv_eq (n d : Int) : roundDiv n d = n.sign * ((2 * |n| + d) / (2 * d)) := by
  rw [roundDiv, Int.abs_eq_natAbs]

/-- Where `n` is not negative, the error `roundDiv n d * d - n` lies above `-d/2` and is at most `d/2`: a half is rounded up. -/
theorem roundDiv_error_of_nonneg {n d : Int} (hn : 0 ≤ n) (hd : 0 < d) :
    -d < 2 * (roundDiv n d * d - n) ∧ 2 * (roundDiv n d * d - n) ≤ d := by
  rw [roundDiv_of_nonneg hn hd]
  have hle := Int.mul_ediv_self_le (x := 2 * n + d) (k := 2 * d) (by omega)
  have hlt := Int.lt_mul_ediv_self_add (x := 2 * n + d) (k := 2 * d) (by omega)
  constructor <;> linarith

/-- ROUND is at most half a `d` away from `n`, and at a half it is further from 0 than `n` is. -/
theorem roundDiv_nearest (n : Int) {d : Int} (hd : 0 < d) :
    2 * |roundDiv n d * d - n| ≤ d ∧ (2 * |roundDiv n d * d - n| = d → |n| < |roundDiv n d * d|) := by
  wlog hn : 0 ≤ n generalizing n
  · have hneg := this (-n) (by omega)
    rwa [roundDiv_neg, neg_mul, neg_sub_neg, abs_sub_comm, abs_neg, abs_neg] at hneg
  obtain ⟨hlo, hhi⟩ := roundDiv_error_of_nonneg hn hd
  simp only [Int.abs_eq_natAbs]
  exact ⟨by omega, fun hhalf => by omega⟩

/-- Scaling both numbers changes nothing. -/
theorem roundDiv_mul_right (n d : Int) {t : Int} (ht : 0 < t) : roundDiv (n * t) (d * t) = roundDiv n d := by
  rw [roundDiv_eq, roundDiv_eq, Int.sign_mul, Int.sign_eq_one_of_pos ht, mul_one, abs_mul, abs_of_pos ht,
    ← mul_assoc, ← mul_assoc, ← add_mul, Int.mul_ediv_mul_of_pos_left _ _ ht]

/-- A multiple of `d` is divided exactly. -/
theorem roundDiv_mul_self (k : Int) {d : Int} (hd : 0 < d) : roundDiv (k * d) d = k := by
  have hnear := (roundDiv_nearest (k * d) hd).1
  rw [← sub_mul, abs_mul, abs_of_pos hd] at hnear
  have hlt : |roundDiv (k * d) d - k| < 1 := by nlinarith
  exact sub_eq_zero.1 (Int.abs_lt_one_iff.1 hlt)

/-- A bound on ROUND from a bound on the number that is rounded. -/
theorem abs_roundDiv_le {n d K : Int} (hd : 0 < d) (h : 2 * |n| < (2 * K + 1) * d) : |roundDiv n d| ≤ K := by
  have hnear := (roundDiv_nearest n hd).1
  have htri : |roundDiv n d| * d ≤ |roundDiv n d * d - n| + |n| := by
    rw [← abs_of_pos hd, ← abs_mul, abs_of_pos hd]
    exact sub_le_iff_le_add.1 (abs_sub_abs_le_abs_sub _ _)
  have hlt : |roundDiv n d| < K + 1 := lt_of_mul_lt_mul_right (by linarith) hd.le
  omega

/-- Settles O31: the laws are the lemmas above, and the printed values are evaluated. -/
theorem roundIsNearestHalvesAway : Obligations.RoundIsNearestHalvesAway := by
  refine ⟨fun n d hd => ?_, by decide⟩
  obtain ⟨hnear, haway⟩ := roundDiv_nearest n hd
  exact ⟨roundDiv_eq n d, hnear, haway, roundDiv_neg n d, fun t ht => roundDiv_mul_right n d ht,
    fun k => roundDiv_mul_self k hd, roundDiv_zero d⟩

/-! ### Reconstructed samples (rules R105, R106) -/

theorem clamp_of_lt {v lo hi : Int} (h : v < lo) : clamp v lo hi = lo := if_pos h

theorem clamp_of_gt {v lo hi : Int} (hle : lo ≤ hi) (h : hi < v) : clamp v lo hi = hi := by
  rw [clamp, if_neg (by omega), if_pos h]

theorem clamp_of_mem {v lo hi : Int} (hlo : lo ≤ v) (hhi : v ≤ hi) : clamp v lo hi = v := by
  rw [clamp, if_neg (by omega), if_neg (by omega)]

/-- A byte holds every value from 0 to 255. -/
theorem sampleByte_toNat {p : Int} (h0 : 0 ≤ p) (h255 : p ≤ 255) : ((sampleByte p).toNat : Int) = p := by
  rw [sampleByte, BitVec.toNat_ofInt]
  omega

/-- Settles O32: the three ranges are the three cases of CLAMP, and what CLAMP answers fits a byte. -/
theorem samplesAreClampedNeverWrapped : Obligations.SamplesAreClampedNeverWrapped := by
  refine ⟨fun Z => ⟨clamp_of_lt, clamp_of_gt (by norm_num), clamp_of_mem, ?_⟩, by decide⟩
  obtain ⟨h0, h255⟩ := clamp_mem (v := roundDiv Z (5 * 2 ^ 37) + 128) (show (0 : Int) ≤ 255 by norm_num)
  exact sampleByte_toNat h0 h255

/-! ### The entries of the codec's blocks (rules R98 to R105) -/

section entries
variable {h w r c u v : Nat} {m : Nat → Nat → Int} {S : Int} {bytes : List Byte} {Y q x : Block}

theorem shiftedBlock_entry (hr : r < h) (hc : c < w) :
    (shiftedBlock h w bytes).entry r c = shiftDown (bytes.getD (r * w + c) 0#8) := tabulate_entry hr hc _

theorem fdct2_entry (hu : u < h) (hv : v < w) : (fdct2 h w x).entry u v =
    sumTo h fun r => sumTo w fun c => basisEntry h u r * basisEntry w v c * x.entry r c := tabulate_entry hu hv _

theorem quantBlock_entry (hu : u < h) (hv : v < w) :
    (quantBlock h w m S Y).entry u v = quant (Y.entry u v) (m u v) S := tabulate_entry hu hv _

theorem deqBlock_entry (hu : u < h) (hv : v < w) :
    (deqBlock h w m S q).entry u v = deq (q.entry u v) (m u v) S := tabulate_entry hu hv _

theorem idct2_entry (hr : r < h) (hc : c < w) : (idct2 h w Y).entry r c =
    sumTo h fun u => sumTo w fun v => basisEntry h u r * basisEntry w v c * Y.entry u v := tabulate_entry hr hc _

theorem codeBlock_entry (hu : u < h) (hv : v < w) : (codeBlock h w m S bytes).entry u v =
    quant ((fdct2 h w (shiftedBlock h w bytes)).entry u v) (m u v) S := quantBlock_entry hu hv

theorem roundTrip_entry (hr : r < h) (hc : c < w) : (roundTrip h w m S bytes).entry r c =
    reconstruct ((idct2 h w (deqBlock h w m S (codeBlock h w m S bytes))).entry r c) := tabulate_entry hr hc _

/-- A sample shifted down by 128 lies between -128 and 127. -/
theorem abs_shiftDown_le (s : Byte) : |shiftDown s| ≤ 128 := by
  have hs := s.isLt
  rw [shiftDown, abs_le]
  omega

theorem quant_zero (m S : Int) : quant 0 m S = 0 := roundDiv_zero _

theorem quant_neg (Y m S : Int) : quant (-Y) m S = -quant Y m S := by
  rw [quant, mul_neg, roundDiv_neg, quant]

/-! ### The order of the passes (rule R100) -/

theorem mul_sumTo (n : Nat) (a : Int) (f : Nat → Int) : a * sumTo n f = sumTo n fun i => a * f i := by
  rw [sumTo_eq_sum, sumTo_eq_sum, Finset.mul_sum]

theorem sumTo_comm (n k : Nat) (f : Nat → Nat → Int) :
    (sumTo n fun i => sumTo k fun j => f i j) = sumTo k fun j => sumTo n fun i => f i j := by
  simp only [sumTo_eq_sum]
  exact Finset.sum_comm

/-- A pass over the rows (the inner sum, along row `r`) and then one over the columns. -/
theorem fdct2_entry_columns_of_rows (hu : u < h) (hv : v < w) : (fdct2 h w x).entry u v =
    sumTo h fun r => basisEntry h u r * sumTo w fun c => basisEntry w v c * x.entry r c := by
  rw [fdct2_entry hu hv]
  simp only [mul_sumTo, mul_assoc]

/-- A pass over the columns (the inner sum, down column `c`) and then one over the rows. -/
theorem fdct2_entry_rows_of_columns (hu : u < h) (hv : v < w) : (fdct2 h w x).entry u v =
    sumTo w fun c => basisEntry w v c * sumTo h fun r => basisEntry h u r * x.entry r c := by
  rw [fdct2_entry hu hv, sumTo_comm]
  simp only [mul_sumTo, mul_assoc, mul_left_comm]

/-! ### The transforms are linear (rules R100, R104) -/

theorem sumTo_sumTo_smul {k : Int} {a f g : Nat → Nat → Int} (H : ∀ i < h, ∀ j < w, g i j = k * f i j) :
    (sumTo h fun i => sumTo w fun j => a i j * g i j) = k * sumTo h fun i => sumTo w fun j => a i j * f i j := by
  simp only [mul_sumTo]
  refine sumTo_congr fun i hi => sumTo_congr fun j hj => ?_
  rw [H i hi j hj, mul_left_comm]

theorem fdct2_entry_smul {k : Int} {y : Block} (hu : u < h) (hv : v < w)
    (H : ∀ r < h, ∀ c < w, y.entry r c = k * x.entry r c) :
    (fdct2 h w y).entry u v = k * (fdct2 h w x).entry u v := by
  rw [fdct2_entry hu hv, fdct2_entry hu hv, sumTo_sumTo_smul H]

theorem idct2_entry_smul {k : Int} {y : Block} (hr : r < h) (hc : c < w)
    (H : ∀ u < h, ∀ v < w, y.entry u v = k * x.entry u v) :
    (idct2 h w y).entry r c = k * (idct2 h w x).entry r c := by
  rw [idct2_entry hr hc, idct2_entry hr hc, sumTo_sumTo_smul H]

end entries

/-- Settles O34: the two orders of the passes are one double sum. -/
theorem transformPassesCommute : Obligations.TransformPassesCommute := fun _ _ _ _ _ hu hv =>
  ⟨fdct2_entry_rows_of_columns hu hv, fdct2_entry_columns_of_rows hu hv⟩

/-! ### The bound on a quantized coefficient (rules R96, R108, R124) -/

/-- The sum of the magnitudes in a row of a table is at most that of row 0 of B(32), 32 entries of 2896: a fact about the data of rule R96, read off row by row. -/
theorem basisRow_absSum_le : ∀ L ≤ 32, ∀ k < L, ((basisRow L k).map abs).sum ≤ 92672 := by decide +kernel

/-- The first entries of a list have no larger sum of magnitudes than all of it. -/
theorem sumTo_abs_getD_le (l : List Int) (n : Nat) : (sumTo n fun i => |l.getD i 0|) ≤ (l.map abs).sum := by
  induction l generalizing n with
  | nil => exact (sumTo_zero n).le
  | cons a l ih =>
    cases n with
    | zero => exact List.sum_nonneg (by simp)
    | succ n =>
      have htail := ih n
      rw [sumTo_eq_sum] at htail ⊢
      rw [Finset.sum_range_succ', List.map_cons, List.sum_cons, add_comm]
      exact add_le_add_right htail _

/-- One pass of the forward transform over numbers of magnitude at most `X`. -/
theorem abs_basisPass_le {L k : Nat} {f : Nat → Int} {X : Int} (hL : L ≤ 32) (hk : k < L) (H : ∀ i < L, |f i| ≤ X) :
    |sumTo L fun i => basisEntry L k i * f i| ≤ 92672 * X := by
  have hX : 0 ≤ X := (abs_nonneg _).trans (H k hk)
  calc |sumTo L fun i => basisEntry L k i * f i|
      ≤ sumTo L fun i => |basisEntry L k i * f i| := sumTo_abs _ _
    _ ≤ (sumTo L fun i => |basisEntry L k i|) * X := by
        rw [sumTo_eq_sum, sumTo_eq_sum, Finset.sum_mul]
        refine Finset.sum_le_sum fun i hi => ?_
        rw [abs_mul]
        exact mul_le_mul_of_nonneg_left (H i (Finset.mem_range.1 hi)) (abs_nonneg _)
    _ ≤ 92672 * X :=
        mul_le_mul_of_nonneg_right ((sumTo_abs_getD_le _ _).trans (basisRow_absSum_le L hL k hk)) hX

/-- The coefficients of a block of samples are at most 128 * 92672 ^ 2, one pass after the other (rule R108). -/
theorem abs_coefficient_le {h w u v : Nat} {bytes : List Byte} (hh : h ≤ 32) (hw : w ≤ 32) (hu : u < h) (hv : v < w) :
    |(fdct2 h w (shiftedBlock h w bytes)).entry u v| ≤ 92672 * (92672 * 128) := by
  rw [fdct2_entry_columns_of_rows hu hv]
  refine abs_basisPass_le hh hu fun r hr => abs_basisPass_le hw hv fun c hc => ?_
  rw [shiftedBlock_entry hr hc]
  exact abs_shiftDown_le _

/-- With the smallest valid entry and scale, the largest coefficient is quantized to less than 4095.5. -/
theorem abs_quant_le {Y m S : Int} (hY : |Y| ≤ 92672 * (92672 * 128)) (hm : 256 ≤ m) (hS : 10 ≤ S) : |quant Y m S| ≤ 4095 := by
  have hmS : 256 * 10 ≤ m * S := mul_le_mul hm hS (by norm_num) (by omega)
  have h5 : |5 * Y| = 5 * |Y| := by rw [abs_mul]; rfl
  refine abs_roundDiv_le (by omega) ?_
  rw [h5]
  omega

/-- 16 bits hold every quantized coefficient (rule R124). -/
theorem int16_toInt {q : Int} (h : |q| ≤ 4095) : (int16 q).toInt = q := by
  obtain ⟨hlo, hhi⟩ := abs_le.1 h
  rw [int16, BitVec.toInt_ofInt]
  exact Int.bmod_eq_of_le (by omega) (by omega)

/-- Settles O33: the table's row sums bound the coefficient, and the smallest step size its quantized value. -/
theorem quantizedCoefficientsFitInt16 : Obligations.QuantizedCoefficientsFitInt16 := by
  intro h w m S bytes u v _ hh _ hw hu hv hm hS
  have hq : |(codeBlock h w m S bytes).entry u v| ≤ 4095 := by
    rw [codeBlock_entry hu hv]
    exact abs_quant_le (abs_coefficient_le hh hw hu hv) hm hS
  exact ⟨hq, int16_toInt hq⟩

/-! ### What the codec keeps exactly (rules R109, R110) -/

section kept
variable {h w r c u v : Nat} {m : Nat → Nat → Int} {S : Int}

/-- Negated samples have negated quantized coefficients. -/
theorem quantBlock_fdct2_entry_neg {x y : Block} (hu : u < h) (hv : v < w)
    (H : ∀ r < h, ∀ c < w, y.entry r c = -x.entry r c) :
    (quantBlock h w m S (fdct2 h w y)).entry u v = -(quantBlock h w m S (fdct2 h w x)).entry u v := by
  have hY : (fdct2 h w y).entry u v = -1 * (fdct2 h w x).entry u v :=
    fdct2_entry_smul hu hv fun r hr c hc => by rw [H r hr c hc, neg_one_mul]
  rw [quantBlock_entry hu hv, quantBlock_entry hu hv, hY, neg_one_mul, quant_neg]

/-- The values before rounding are linear in the quantized coefficients. -/
theorem idct2_deqBlock_entry_smul {k : Int} {p q : Block} (hr : r < h) (hc : c < w)
    (H : ∀ u < h, ∀ v < w, p.entry u v = k * q.entry u v) :
    (idct2 h w (deqBlock h w m S p)).entry r c = k * (idct2 h w (deqBlock h w m S q)).entry r c := by
  refine idct2_entry_smul hr hc fun u hu v hv => ?_
  rw [deqBlock_entry hu hv, deqBlock_entry hu hv, H u hu v hv, deq, deq, mul_assoc, mul_assoc, mul_assoc]

/-- A block of samples 128 has no coefficient but zeros. -/
theorem codeBlock_entry_of_gray {bytes : List Byte} (hlen : bytes.length = h * w) (hgray : ∀ b ∈ bytes, b = 128#8)
    (hu : u < h) (hv : v < w) : (codeBlock h w m S bytes).entry u v = 0 := by
  have hx : ∀ r < h, ∀ c < w, (shiftedBlock h w bytes).entry r c = 0 * (shiftedBlock h w bytes).entry r c := by
    intro r hr c hc
    have hi : r * w + c < bytes.length := by
      have := Nat.mul_le_mul_right w (Nat.succ_le_of_lt hr)
      rw [Nat.succ_mul] at this
      omega
    rw [zero_mul, shiftedBlock_entry hr hc, List.getD_eq_getElem _ _ hi, hgray _ (List.getElem_mem hi)]
    rfl
  rw [codeBlock_entry hu hv, fdct2_entry_smul hu hv hx, zero_mul, quant_zero]

/-- Zero coefficients come back as samples 128. -/
theorem roundTrip_entry_of_zero {bytes : List Byte} (H : ∀ u < h, ∀ v < w, (codeBlock h w m S bytes).entry u v = 0)
    (hr : r < h) (hc : c < w) : (roundTrip h w m S bytes).entry r c = 128 := by
  rw [roundTrip_entry hr hc, idct2_deqBlock_entry_smul (k := 0) (q := codeBlock h w m S bytes) hr hc, zero_mul]
  · decide
  · intro u hu v hv
    rw [zero_mul, H u hu v hv]

/-- The only entry of B(1) is 2 ^ 14, so the transforms of one value scale it by 2 ^ 28. -/
theorem fdct2_one_entry (x : Block) : (fdct2 1 1 x).entry 0 0 = 2 ^ 28 * x.entry 0 0 := by
  rw [fdct2_entry Nat.one_pos Nat.one_pos]
  simp [sumTo, basisEntry, basisRow, basis1]

theorem idct2_one_entry (D : Block) : (idct2 1 1 D).entry 0 0 = 2 ^ 28 * D.entry 0 0 := by
  rw [idct2_entry Nat.one_pos Nat.one_pos]
  simp [sumTo, basisEntry, basisRow, basis1]

/-- With step size 1 the quantized coefficient of one sample is the shifted sample. -/
theorem codeBlock_one_entry (s : Byte) (hm : m 0 0 = 256) : (codeBlock 1 1 m 10 [s]).entry 0 0 = shiftDown s := by
  rw [codeBlock_entry Nat.one_pos Nat.one_pos, fdct2_one_entry, shiftedBlock_entry Nat.one_pos Nat.one_pos, hm, quant]
  have hscale : 5 * (2 ^ 28 * shiftDown s) = shiftDown s * (256 * 10 * 2 ^ 19) := by ring
  exact hscale ▸ roundDiv_mul_self _ (by norm_num)

/-- With step size 1 one sample comes back. -/
theorem roundTrip_one_entry (s : Byte) (hm : m 0 0 = 256) : (roundTrip 1 1 m 10 [s]).entry 0 0 = s.toNat := by
  have hs := s.isLt
  rw [roundTrip_entry Nat.one_pos Nat.one_pos, idct2_one_entry, deqBlock_entry Nat.one_pos Nat.one_pos,
    codeBlock_one_entry s hm, hm, deq]
  have hscale : 2 ^ 28 * (shiftDown s * 256 * 10) = shiftDown s * (5 * 2 ^ 37) := by ring
  rw [hscale, reconstruct, roundDiv_mul_self _ (by norm_num), shiftDown, sub_add_cancel]
  exact clamp_of_mem (by omega) (by omega)

end kept

/-- Settles O35: gray blocks through their zero coefficients, one sample through the factor 2 ^ 28 of each transform; vector V7 is evaluated. -/
theorem grayAndSingleSampleBlocksAreExact : Obligations.GrayAndSingleSampleBlocksAreExact := by
  refine ⟨fun h w m S bytes hlen hgray r hr c hc => ?_, fun m s hm => ?_, by decide +kernel⟩
  · have hzero : ∀ u < h, ∀ v < w, (codeBlock h w m S bytes).entry u v = 0 := fun u hu v hv =>
      codeBlock_entry_of_gray hlen hgray hu hv
    exact ⟨hzero r hr c hc, roundTrip_entry_of_zero hzero hr hc⟩
  · exact ⟨codeBlock_one_entry s hm, roundTrip_one_entry s hm⟩

/-- Settles O36: the transforms are linear, and ROUND is odd. -/
theorem codecCommutesWithNegation : Obligations.CodecCommutesWithNegation := by
  intro h w m S x u v hu hv neg _ _ q q'
  have hneg : ∀ r < h, ∀ c < w, (neg x).entry r c = -x.entry r c := fun r hr c hc => tabulate_entry hr hc _
  have hq : ∀ u < h, ∀ v < w, q'.entry u v = -1 * q.entry u v := fun u hu v hv => by
    rw [neg_one_mul]
    exact quantBlock_fdct2_entry_neg hu hv hneg
  refine ⟨quantBlock_fdct2_entry_neg hu hv hneg, ?_⟩
  rw [idct2_deqBlock_entry_smul hu hv hq, neg_one_mul, roundDiv_neg]

end Sys2Proof.Machine

/-! The block codec, unit by unit: acceptance of PROC, how the units tile the plane, what a block depends on, and what one block step does (rules R116 to R121, R124). -/

namespace Sys2Proof.Machine

/-! ### Acceptance (rule R116) -/

/-- The engine that has accepted PROC. -/
def Engine.startProc (e : Engine) (acc : Bool) : Engine :=
  { e with
    status := { e.status with
      busy := true, done := false, err := false, canc := false, mvalid := e.status.mvalid && !acc }
    errinfo := 0#32, faddr := 0#32
    utotal := BitVec.ofNat 32 (e.nbx * e.nby), udone := 0#32
    curop := 0x01#8, accf := acc, creq := false }

/-- The regions of PROC: source plane, reconstructed plane, archive. -/
def Engine.procRegions (e : Engine) : List Region := [e.srcRegion, e.dstRegion true, e.arcRegion]

/-- The state in which the engine in focus has accepted PROC. -/
def State.startProc (s : State) (acc : Bool) : State := (s.setEng (s.eng.startProc acc)).claim s.eng.procRegions

theorem exec_proc_of_legal {s : State} (hb : s.eng.status.busy = false) (hl : s.eng.procLegal) (acc : Bool) :
    exec (.proc acc) s = .next (s.startProc acc) := by
  have hcheck : s.eng.clearOutcome.checkProc = none := (checkProc_none s.eng.clearOutcome).2 hl
  refine congrArg _ (accept_ok hb ?_)
  rw [procBody, hcheck]
  rfl

theorem utotal_startProc_toNat {e : Engine} (hl : e.procLegal) (acc : Bool) :
    (e.startProc acc).utotal.toNat = e.nbx * e.nby :=
  (BitVec.toNat_ofNat _ _).trans (Nat.mod_eq_of_lt (units_lt hl))

/-- Settles O16: the legal operands pass every check, and the regions are claimed. -/
theorem procIsAccepted : Obligations.ProcIsAccepted := by
  intro s acc hb hl
  have hmvalid : (s.eng.status.mvalid && !acc) = if acc then false else s.eng.status.mvalid := by cases acc <;> simp
  refine ⟨s.startProc acc, exec_proc_of_legal hb hl acc, ?_, utotal_startProc_toNat hl acc, rfl,
    ⟨rfl, rfl, rfl, rfl, rfl⟩, rfl, rfl, rfl, rfl, ?_⟩
  · rw [← hmvalid]
    rfl
  · exact mem_claim_rivals (s := s.setEng (s.eng.startProc acc)) (List.cons_ne_nil _ _)

/-! ### The units tile the plane (rules R117, R122) -/

/-- The unit whose rectangle holds sample (y, x). -/
def Engine.unitAt (e : Engine) (y x : Nat) : Nat := y / e.n * e.nbx + x / e.n

/-- A row or column number of the plane lies in the clipped interval from `i * n` on exactly when its quotient by `n` is `i`. -/
theorem mem_clipped_iff {n i y size : Nat} (hn : 1 ≤ n) (hy : y < size) :
    (i * n ≤ y ∧ y < i * n + min n (size - i * n)) ↔ y / n = i := by
  rw [Nat.div_eq_iff hn]
  omega

section tiling
variable {e : Engine} (hn : 1 ≤ e.n) {k y x : Nat}

theorem nbx_pos (hk : k < e.nbx * e.nby) : 0 < e.nbx := Nat.pos_of_mul_pos_right (Nat.zero_lt_of_lt hk)

include hn

/-- The origin of a unit lies in the plane. -/
theorem geometry_origin_lt (hk : k < e.nbx * e.nby) :
    (e.geometry k).y0 < e.height.toNat ∧ (e.geometry k).x0 < e.width.toNat :=
  ⟨ceilDiv_lt hn (Nat.div_lt_of_lt_mul hk), ceilDiv_lt hn (Nat.mod_lt _ (nbx_pos hk))⟩

theorem unitAt_lt (hy : y < e.height.toNat) (hx : x < e.width.toNat) : e.unitAt y x < e.nbx * e.nby := by
  have hrow : y / e.n + 1 ≤ e.nby := lt_ceilDiv hn ((Nat.div_mul_le_self _ _).trans_lt hy)
  have hcol : x / e.n < e.nbx := lt_ceilDiv hn ((Nat.div_mul_le_self _ _).trans_lt hx)
  calc y / e.n * e.nbx + x / e.n < (y / e.n + 1) * e.nbx := by rw [Nat.succ_mul]; omega
    _ ≤ e.nbx * e.nby := by rw [Nat.mul_comm]; exact Nat.mul_le_mul_left _ hrow

/-- A sample of the plane lies in the rectangle of exactly one unit. -/
theorem mem_geometry_iff (hk : k < e.nbx * e.nby) (hy : y < e.height.toNat) (hx : x < e.width.toNat) :
    ((e.geometry k).y0 ≤ y ∧ y < (e.geometry k).y0 + (e.geometry k).h ∧
      (e.geometry k).x0 ≤ x ∧ x < (e.geometry k).x0 + (e.geometry k).w) ↔ k = e.unitAt y x := by
  have hcol : x / e.n < e.nbx := lt_ceilDiv hn ((Nat.div_mul_le_self _ _).trans_lt hx)
  calc _ ↔ y / e.n = k / e.nbx ∧ x / e.n = k % e.nbx := by
        rw [← and_assoc]
        exact and_congr (mem_clipped_iff hn hy) (mem_clipped_iff hn hx)
    _ ↔ k / e.nbx = y / e.n ∧ k % e.nbx = x / e.n := by rw [eq_comm, eq_comm (a := x / e.n)]
    _ ↔ k = e.unitAt y x := by
        rw [Nat.div_mod_unique (nbx_pos hk), Engine.unitAt, Nat.mul_comm, Nat.add_comm, eq_comm]
        exact and_iff_left hcol

end tiling

/-- Settles O38: every sample lies in the rectangle of its own unit and of no other. -/
theorem blocksTileThePlane : Obligations.BlocksTileThePlane := by
  intro e hn _ _
  refine ⟨fun k hk => ?_, fun y hy x hx => ⟨e.unitAt y x, unitAt_lt hn hy hx, ?_, ?_⟩⟩
  · obtain ⟨hy0, hx0⟩ := geometry_origin_lt hn hk
    simp only [Engine.geometry] at hy0 hx0 ⊢
    omega
  · exact (mem_geometry_iff hn (unitAt_lt hn hy hx) hy hx).2 rfl
  · exact fun k hk h1 h2 h3 h4 => (mem_geometry_iff hn hk hy hx).1 ⟨h1, h2, h3, h4⟩

/-! ### What a block depends on (rule R121) -/

/-- The coefficients of a block depend on the corner of the store that it covers, and on no other entry. -/
theorem codeBlock_congr {h w : Nat} {m m' : Nat → Nat → Int} (H : ∀ u < h, ∀ v < w, m' u v = m u v) (S : Int)
    (bytes : List Byte) : codeBlock h w m' S bytes = codeBlock h w m S bytes :=
  tabulate_congr fun u hu v hv => by rw [H u hu v hv]

theorem decodeBlock_congr {h w : Nat} {m m' : Nat → Nat → Int} (H : ∀ u < h, ∀ v < w, m' u v = m u v) (S : Int)
    (q : Block) : decodeBlock h w m' S q = decodeBlock h w m S q := by
  have hdeq : deqBlock h w m' S q = deqBlock h w m S q := tabulate_congr fun u hu v hv => by rw [H u hu v hv]
  rw [decodeBlock, hdeq, decodeBlock]

/-- The samples of a unit, row by row. -/
theorem blockBytes_eq (e : Engine) (m : Memory) (k : Nat) : e.blockBytes m k =
    (List.range (e.geometry k).h).flatMap fun r => (List.range (e.geometry k).w).map fun c =>
      m.read (e.srcAddr ((e.geometry k).y0 + r) ((e.geometry k).x0 + c)) := by
  simp [Engine.blockBytes, Engine.blockReads, List.map_flatMap, Function.comp_def]

/-- Units of one extent whose samples are the same have the same bytes. -/
theorem blockBytes_congr {e e' : Engine} {m m' : Memory} {k k' : Nat}
    (hh : (e'.geometry k').h = (e.geometry k).h) (hw : (e'.geometry k').w = (e.geometry k).w)
    (H : ∀ r < (e.geometry k).h, ∀ c < (e.geometry k).w,
      m'.read (e'.srcAddr ((e'.geometry k').y0 + r) ((e'.geometry k').x0 + c)) =
        m.read (e.srcAddr ((e.geometry k).y0 + r) ((e.geometry k).x0 + c))) :
    e'.blockBytes m' k' = e.blockBytes m k := by
  rw [blockBytes_eq, blockBytes_eq, hh, hw]
  refine List.flatMap_congr fun r hr => List.map_congr_left fun c hc => ?_
  exact H r (List.mem_range.1 hr) c (List.mem_range.1 hc)

/-- Settles O37: the bytes of the two blocks are the same, and each step of the codec uses the store at the block's entries only. -/
theorem blockDependsOnItsOwnInputs : Obligations.BlockDependsOnItsOwnInputs := by
  intro e e' m m' k k' hh hw hlevel hqm hsamples
  have hbytes := blockBytes_congr hh hw hsamples
  have hscale : e'.scale = e.scale := by rw [Engine.scale, hlevel, Engine.scale]
  have hentry : ∀ u < (e.geometry k).h, ∀ v < (e.geometry k).w, e'.qmAt u v = e.qmAt u v := fun u hu v hv => by
    rw [Engine.qmAt, hqm u hu v hv, Engine.qmAt]
  have hcoded : e'.coded m' k' = e.coded m k := by
    rw [Engine.coded, hh, hw, hscale, hbytes]
    exact codeBlock_congr hentry _ _
  refine ⟨hcoded, ?_⟩
  rw [Engine.decoded, hh, hw, hscale, hcoded]
  exact decodeBlock_congr hentry _ _

/-! ### The frame of a block step (rule R127) -/

/-- What no engine step changes of its engine, beside the operands and results. -/
theorem flags_of_unitChange {e e' : Engine} (h : UnitChange e e') :
    e'.ien = e.ien ∧ e'.utotal = e.utotal ∧ e'.status.rej = e.status.rej ∧ e'.status.mvalid = e.status.mvalid := by
  cases h <;> exact ⟨rfl, rfl, rfl, rfl⟩

/-- PROC without ACC adds to no sum. -/
theorem sums_of_unitChange {e e' : Engine} (h : UnitChange e e') (ho : e.curop = 0x01#8) (ha : e.accf = false) :
    e'.sse = e.sse ∧ e'.cnt = e.cnt ∧ e'.status.movf = e.status.movf := by
  cases h with
  | accumulate _ _ hacc => simp [ho, ha] at hacc
  | _ => exact ⟨rfl, rfl, rfl⟩

/-- Settles O26: the bytes by the writes of the unit, the engine by what an engine step can make of it. -/
theorem procBlockFrame : Obligations.ProcBlockFrame := by
  intro s t hb hc ho hu h
  have hframe := engineStep_frame h
  have hchange := engineStep_unitChange h
  obtain ⟨hien, hutotal, hrej, hmvalid⟩ := flags_of_unitChange hchange
  obtain ⟨hpsnr, hratio, -⟩ := metrics_of_unitChange hchange
  rw [engineStep_eq_procBlock hb hc hu ho] at h
  refine ⟨fun a hrect hslot => procBlock_read_other h hrect hslot, ?_, by rw [hframe],
    sameOperands_of_unitChange hchange, hien, hutotal, hpsnr, hratio, hrej, hmvalid,
    sums_of_unitChange hchange ho⟩
  rw [hframe]
  exact ⟨rfl, rfl, rfl, rfl, rfl⟩

end Sys2Proof.Machine

/-! One block step that nothing disturbs: what it writes, what it settles, and what it makes of its engine (rules R118, R124, R138, R147). -/

namespace Sys2Proof.Machine

/-! ### The writes of a unit (rules R56, R124) -/

theorem writtenBy_append {l r : List (Nat × List Byte)} {a : Nat} :
    writtenBy (l ++ r) a ↔ writtenBy l a ∨ writtenBy r a := by
  simp only [writtenBy, List.mem_append, or_and_right, exists_or]

/-- The two bytes of an archive entry. -/
theorem bytesLE_getElem (v : BitVec 16) {i : Nat} (hi : i < (bytesLE v).length) :
    (bytesLE v)[i] = v.extractLsb' (8 * i) 8 := by
  match i, hi with
  | 0, _ => rfl
  | 1, _ => rfl

/-- The samples of a rectangle have different addresses. -/
theorem dstAddr_inj {e : Engine} (hs : e.width.toNat ≤ e.dstStride.toNat) {y x y' x' : Nat} (hx : x < e.width.toNat)
    (hx' : x' < e.width.toNat) (h : e.dstAddr y x = e.dstAddr y' x') : y = y' ∧ x = x' := plane_inj hs hx hx' h

/-- Every byte of a slot belongs to an entry. -/
theorem exists_arcAddr_of_inSlot {e : Engine} {k a : Nat} (h : e.inSlot k a) :
    ∃ u < e.n, ∃ v < e.n, ∃ i < 2, a = e.arcAddr k u v + i := by
  obtain ⟨hlo, hhi⟩ := h
  obtain ⟨d, rfl⟩ := Nat.exists_eq_add_of_le hlo
  have hd : d / 2 < e.n * e.n := by
    rw [Nat.mul_assoc] at hhi
    omega
  have hn : 0 < e.n := Nat.pos_of_mul_pos_right (Nat.zero_lt_of_lt hd)
  refine ⟨d / 2 / e.n, Nat.div_lt_of_lt_mul hd, d / 2 % e.n, Nat.mod_lt _ hn, d % 2, Nat.mod_lt _ Nat.two_pos, ?_⟩
  have hrow := Nat.div_add_mod' (d / 2) e.n
  simp only [Engine.arcAddr]
  omega

/-- The writes of a unit cover its rectangle and its slot. -/
theorem writtenBy_unit_iff {e : Engine} {k a : Nat} {q p : Block} :
    writtenBy (e.slotWrites k q ++ e.sampleWrites k p) a ↔ e.inRect k a ∨ e.inSlot k a := by
  refine ⟨inRect_or_inSlot_of_writtenBy, fun h => writtenBy_append.2 ?_⟩
  rcases h with ⟨r, hr, c, hc, rfl⟩ | h
  · exact .inr ⟨_, sampleWrites_mem.2 ⟨r, hr, c, hc, rfl⟩, Nat.le_refl _, Nat.lt_succ_self _⟩
  · obtain ⟨u, hu, v, hv, i, hi, rfl⟩ := exists_arcAddr_of_inSlot h
    exact .inl ⟨_, slotWrites_mem.2 ⟨u, hu, v, hv, rfl⟩, Nat.le_add_right _ _, Nat.add_lt_add_left hi _⟩

section writes
variable {e : Engine} {s t : State} {k : Nat} {q p : Block} (hm : s.mem.wf)
  (hw : s.writeAll (e.slotWrites k q ++ e.sampleWrites k p) = .ok t)
include hm hw

/-- The samples of a unit are written, and nothing overwrites them. -/
theorem writeAll_unit_sample (hs : e.width.toNat ≤ e.dstStride.toNat) {r c : Nat} (hr : r < (e.geometry k).h)
    (hc : c < (e.geometry k).w) :
    t.mem.read (e.dstAddr ((e.geometry k).y0 + r) ((e.geometry k).x0 + c)) = sampleByte (p.entry r c) := by
  obtain ⟨pre, post, hsplit, hpost⟩ := flat_split hr hc fun r c =>
    (e.dstAddr ((e.geometry k).y0 + r) ((e.geometry k).x0 + c), [sampleByte (p.entry r c)])
  have hsamples : e.sampleWrites k p = _ := hsplit
  rw [hsamples, ← List.append_assoc] at hw
  refine writeAll_read hm hw 0 Nat.one_pos ?_
  rintro ⟨w, hwpost, hlo, hhi⟩
  obtain ⟨r', hr', c', hc', hne, rfl⟩ := hpost w hwpost
  have haddr := Nat.le_antisymm hlo (Nat.lt_succ_iff.1 hhi)
  obtain ⟨hy, hx⟩ := dstAddr_inj hs (geometry_inside e hr' hc').2 (geometry_inside e hr hc).2 haddr
  exact hne (by rw [Nat.add_left_cancel hy, Nat.add_left_cancel hx])

/-- The entries of the slot are written, and stay where the rectangle does not lie over them. -/
theorem writeAll_unit_entry {u v i : Nat} (hu : u < e.n) (hv : v < e.n) (hi : i < 2)
    (hrect : ¬ e.inRect k (e.arcAddr k u v + i)) :
    t.mem.read (e.arcAddr k u v + i) =
      (int16 (slotEntry (e.geometry k).h (e.geometry k).w q u v)).extractLsb' (8 * i) 8 := by
  obtain ⟨pre, post, hsplit, hpost⟩ := flat_split hu hv fun u v =>
    (e.arcAddr k u v, bytesLE (int16 (slotEntry (e.geometry k).h (e.geometry k).w q u v)))
  have hslot : e.slotWrites k q = _ := hsplit
  rw [hslot, List.append_assoc, List.cons_append] at hw
  rw [← bytesLE_getElem _ hi]
  refine writeAll_read hm hw i hi fun hwritten => ?_
  rcases writtenBy_append.1 hwritten with ⟨w, hwpost, hlo, hhi⟩ | ⟨w, hsample, hlo, hhi⟩
  · obtain ⟨u', hu', v', hv', hne, rfl⟩ := hpost w hwpost
    obtain ⟨j, hj⟩ := Nat.exists_eq_add_of_le hlo
    have hj2 : j < 2 := by
      simp only [bytesLE, List.length_cons, List.length_nil] at hhi
      omega
    obtain ⟨rfl, rfl⟩ := arcAddr_inj hv hv' hi hj2 hj
    exact hne rfl
  · obtain ⟨r, hr, c, hc, rfl⟩ := sampleWrites_mem.1 hsample
    exact hrect ⟨r, hr, c, hc, (Nat.le_antisymm hlo (Nat.lt_succ_iff.1 hhi)).symm⟩

end writes

/-! ### The sums of a block (rules R138, R147) -/

theorem accumulate_zero (e : Engine) : e.accumulate 0 0 = e := by
  have hsum : ∀ acc : Acc, satadd64 acc 0 = acc := fun acc =>
    BitVec.eq_of_toNat_eq (by rw [satadd64_toNat]; have := acc.isLt; omega)
  have hflag : ∀ acc : Acc, saturates64 acc 0 = false := fun acc =>
    decide_eq_false (by have := acc.isLt; omega)
  simp only [Engine.accumulate, hsum, hflag, Bool.or_false]

/-- The squared error that unit `k` adds to SSE, its samples being those in memory `m`. -/
def Engine.unitError (e : Engine) (m : Memory) (k : Nat) : Nat :=
  if e.accf then blockError (e.geometry k).h (e.geometry k).w (e.blockBytes m k) (e.decoded m k) else 0

/-- The number of samples that unit `k` adds to CNT. -/
def Engine.unitCount (e : Engine) (k : Nat) : Nat := if e.accf then (e.geometry k).h * (e.geometry k).w else 0

/-- The end of a block step adds to the sums, with ACCF, and counts the unit. -/
theorem endBlock_eq (e : Engine) (m : Memory) :
    e.endBlock (e.blockBytes m e.udone.toNat) (e.decoded m e.udone.toNat) =
      (e.accumulate (e.unitError m e.udone.toNat) (e.unitCount e.udone.toNat)).countUnit := by
  unfold Engine.endBlock Engine.unitError Engine.unitCount
  dsimp only
  split
  · rfl
  · rw [accumulate_zero]

/-! ### The block step that nothing disturbs (rules R118, R57, R58) -/

/-- Memory `m'` holds the outputs of unit `k`: its samples, and its archive entries where the rectangle does not lie over them, as the codec gives them of the samples in memory `m`. -/
structure UnitHolds (e : Engine) (m : Memory) (k : Nat) (m' : Memory) : Prop where
  samples : ∀ r < (e.geometry k).h, ∀ c < (e.geometry k).w,
    m'.read (e.dstAddr ((e.geometry k).y0 + r) ((e.geometry k).x0 + c)) = sampleByte ((e.decoded m k).entry r c)
  slot : ∀ u < e.n, ∀ v < e.n, ∀ i < 2, ¬ e.inRect k (e.arcAddr k u v + i) →
    m'.read (e.arcAddr k u v + i) =
      (int16 (slotEntry (e.geometry k).h (e.geometry k).w (e.coded m k) u v)).extractLsb' (8 * i) 8

/-- Byte `a` is one that unit `k` writes. -/
abbrev Engine.inUnit (e : Engine) (k a : Nat) : Prop := e.inRect k a ∨ e.inSlot k a

/-- From `s` to `t` unit `k` has been written and no other byte changed; what has been written is in no race. -/
structure UnitWritten (e : Engine) (m : Memory) (k : Nat) (s t : State) : Prop extends UnitHolds e m k t.mem where
  other : ∀ a, ¬ e.inUnit k a → t.mem.read a = s.mem.read a
  settled : ∀ a, a ∈ t.raced ↔ a ∈ s.raced ∧ ¬ e.inUnit k a

/-- Where every read gives memory's byte and no write is refused, the block step writes its unit and counts it. -/
theorem procBlock_of_written {s u : State}
    (hreads : s.readAll 0 (s.eng.blockReads s.eng.udone.toNat) = .ok (s.eng.blockBytes s.mem s.eng.udone.toNat))
    (hw : ({ s with tick := s.tick + 1 } : State).writeAll
      (s.eng.slotWrites s.eng.udone.toNat (s.eng.coded s.mem s.eng.udone.toNat) ++
        s.eng.sampleWrites s.eng.udone.toNat (s.eng.decoded s.mem s.eng.udone.toNat)) = .ok u) :
    procBlock s = .next (u.setEng (s.eng.endBlock (s.eng.blockBytes s.mem s.eng.udone.toNat)
      (s.eng.decoded s.mem s.eng.udone.toNat))) := by
  rw [Engine.decoded, Engine.coded] at hw ⊢
  rw [procBlock, hreads]
  simp only [hw]

/-- With legal operands, no refused access, no rival and no source byte in a race, the block step does its unit. -/
theorem procBlock_undisturbed {s : State} (hl : s.eng.procLegal) (hk : s.eng.udone.toNat < s.eng.nbx * s.eng.nby)
    (hm : s.mem.wf) (hdenied : s.denied = []) (hrivals : ∀ r ∈ s.rivals, r.engine ≠ s.idx)
    (hraced : ∀ a ∈ s.eng.blockReads s.eng.udone.toNat, a ∉ s.raced) :
    ∃ t, procBlock s = .next t ∧ UnitWritten s.eng s.mem s.eng.udone.toNat s t ∧
      t.eng = (s.eng.accumulate (s.eng.unitError s.mem s.eng.udone.toNat)
        (s.eng.unitCount s.eng.udone.toNat)).countUnit := by
  have hreads : s.readAll 0 (s.eng.blockReads s.eng.udone.toNat) = .ok (s.eng.blockBytes s.mem s.eng.udone.toNat) :=
    readAll_of_alone hrivals 0 fun a ha =>
      ⟨⟨blockReads_inSpace hl _ a ha, memOK_of_denied_nil hdenied a .read⟩, hraced a ha⟩
  obtain ⟨u, hu⟩ := writeAll_total (s := { s with tick := s.tick + 1 })
    (ws := s.eng.slotWrites s.eng.udone.toNat (s.eng.coded s.mem s.eng.udone.toNat) ++
      s.eng.sampleWrites s.eng.udone.toNat (s.eng.decoded s.mem s.eng.udone.toNat))
    fun w hw => ⟨blockWrites_inSpace hl hk _ _ w hw, accessBytes_all.2 fun i _ => memOK_of_denied_nil hdenied _ _⟩
  obtain ⟨-, -, ⟨-, -, -, hstride, -⟩, -⟩ := hl
  refine ⟨u.setEng (s.eng.endBlock _ _), ?_, ⟨⟨?_, ?_⟩, ?_, ?_⟩, endBlock_eq s.eng s.mem⟩
  · exact procBlock_of_written hreads hu
  · exact fun r hr c hc => writeAll_unit_sample (s := { s with tick := s.tick + 1 }) hm hu hstride hr hc
  · exact fun a ha b hb i hi => writeAll_unit_entry (s := { s with tick := s.tick + 1 }) hm hu ha hb hi
  · exact fun a ha => writeAll_read_other hu a (mt writtenBy_unit_iff.1 ha)
  · exact fun a => (mem_raced_writeAll (s := { s with tick := s.tick + 1 }) hrivals hu a).trans
      (and_congr_right' (not_congr writtenBy_unit_iff))

/-- Settles O25: a good engine's operands are legal, and without a race nothing disturbs the step. -/
theorem procBlockStepResult : Obligations.ProcBlockStepResult := by
  intro s hi hquiet hb hc ho hu e k g q p
  obtain ⟨hdenied, hraced, hrivals⟩ := hquiet
  have hinv : e.Inv := hi.engines e (eng_mem_engines s)
  obtain ⟨hlegal, htotal⟩ := hinv.command.1 ho
  have hk : k < e.nbx * e.nby := htotal ▸ hinv.udone_lt hu
  obtain ⟨t, ht, hunit, heng⟩ := procBlock_undisturbed hlegal hk hi.memory hdenied hrivals (by simp [hraced])
  refine ⟨t, (engineStep_eq_procBlock hb hc hu ho).trans ht, hunit.samples, hunit.slot,
    fun a hrect hslot => hunit.other a (not_or.2 ⟨hrect, hslot⟩), ?_, ?_, ?_⟩
  · rw [heng]
    exact hinv.countUnit_udone_toNat hu
  · intro hacc
    have herror : e.unitError s.mem k = _ := if_pos hacc
    have hcount : e.unitCount k = _ := if_pos hacc
    rw [heng, herror, hcount]
    rfl
  · intro hacc
    have herror : e.unitError s.mem k = 0 := if_neg (by simp [hacc])
    have hcount : e.unitCount k = 0 := if_neg (by simp [hacc])
    rw [heng, herror, hcount, accumulate_zero]
    rfl

end Sys2Proof.Machine

/-! PROC from acceptance to the STATUS read: the sums of the units are those of the plane, the outputs of different units do not meet, and a run does unit after unit (rules R59, R60, R124, R126, R128, R138, R147). -/

namespace Sys2Proof.Machine

/-! ### Sums over units are sums over the plane (rules R117, R147) -/

/-- A list of rows of `w` entries, read at row `r` and column `c`. -/
theorem flatMap_map_getD {α : Type} {h w r c : Nat} (hr : r < h) (hc : c < w) (f : Nat → Nat → α) (d : α) :
    ((List.range h).flatMap fun r => (List.range w).map fun c => f r c).getD (r * w + c) d = f r c := by
  induction h with
  | zero => omega
  | succ h ih =>
    have hlen : ((List.range h).flatMap fun r => (List.range w).map fun c => f r c).length = h * w := by
      simp [List.length_flatMap]
    rw [List.range_succ, List.flatMap_append]
    rcases Nat.lt_succ_iff_lt_or_eq.1 hr with hlt | rfl
    · have hin : r * w + c < h * w := by
        have := Nat.mul_le_mul_right w (Nat.succ_le_of_lt hlt)
        rw [Nat.succ_mul] at this
        omega
      rw [List.getD_append _ _ _ _ (by rw [hlen]; exact hin)]
      exact ih hlt
    · rw [List.getD_append_right _ _ _ _ (by rw [hlen]; omega), hlen]
      simp [hc]

theorem blockBytes_getD (e : Engine) (m : Memory) {k r c : Nat} (hr : r < (e.geometry k).h) (hc : c < (e.geometry k).w) :
    (e.blockBytes m k).getD (r * (e.geometry k).w + c) 0#8 =
      m.read (e.srcAddr ((e.geometry k).y0 + r) ((e.geometry k).x0 + c)) := by
  rw [blockBytes_eq]
  exact flatMap_map_getD hr hc _ _

theorem blockError_eq_sum (h w : Nat) (bytes : List Byte) (p : Block) : blockError h w bytes p =
    ∑ r ∈ Finset.range h, ∑ c ∈ Finset.range w, sqDiff (bytes.getD (r * w + c) 0#8) (sampleByte (p.entry r c)) := by
  rw [blockError, List.flatMap, List.sum_flatten, List.map_map]
  rfl

/-- Consecutive intervals of length `n`, the last ones clipped at `a`, cover the numbers below `a` once. -/
theorem sum_clipped (n a : Nat) (f : Nat → Nat) (m : Nat) :
    ∑ i ∈ Finset.range m, ∑ r ∈ Finset.range (min n (a - i * n)), f (i * n + r) =
      ∑ y ∈ Finset.range (min (m * n) a), f y := by
  induction m with
  | zero => simp
  | succ m ih =>
    rw [Finset.sum_range_succ, ih, Nat.succ_mul]
    rcases Nat.le_total (m * n) a with hle | hle
    · rw [Nat.min_eq_left hle, ← Finset.sum_range_add]
      congr 2
      omega
    · rw [Nat.sub_eq_zero_of_le hle, Nat.min_zero, Finset.sum_range_zero, Nat.add_zero, Nat.min_eq_right hle,
        Nat.min_eq_right (by omega)]

/-- Without a clip: a sum by quotient and remainder. -/
theorem sum_rows (n m : Nat) (f : Nat → Nat) :
    ∑ i ∈ Finset.range m, ∑ r ∈ Finset.range n, f (i * n + r) = ∑ y ∈ Finset.range (m * n), f y := by
  have hclip := sum_clipped n (m * n) f m
  rw [Nat.min_self] at hclip
  rw [← hclip]
  refine Finset.sum_congr rfl fun i hi => ?_
  have hrow := Nat.mul_le_mul_right n (Nat.succ_le_of_lt (Finset.mem_range.1 hi))
  rw [Nat.succ_mul] at hrow
  rw [Nat.min_eq_left (by omega)]

theorem le_ceilDiv_mul {n : Nat} (hn : 1 ≤ n) (a : Nat) : a ≤ ceilDiv a n * n := by
  by_contra hlt
  exact absurd (lt_ceilDiv hn (Nat.lt_of_not_le hlt)) (Nat.lt_irrefl _)

/-- A sum over all intervals that are needed to cover the numbers below `a`. -/
theorem sum_ceilDiv {n : Nat} (hn : 1 ≤ n) (a : Nat) (f : Nat → Nat) :
    ∑ i ∈ Finset.range (ceilDiv a n), ∑ r ∈ Finset.range (min n (a - i * n)), f (i * n + r) =
      ∑ y ∈ Finset.range a, f y := by
  rw [sum_clipped, Nat.min_eq_right (le_ceilDiv_mul hn a)]

/-- A sum over the samples of all units is the sum over the samples of the plane. -/
theorem sum_units {e : Engine} (hn : 1 ≤ e.n) (f : Nat → Nat → Nat) :
    ∑ k ∈ Finset.range (e.nbx * e.nby), ∑ r ∈ Finset.range (e.geometry k).h, ∑ c ∈ Finset.range (e.geometry k).w,
        f ((e.geometry k).y0 + r) ((e.geometry k).x0 + c) =
      ∑ y ∈ Finset.range e.height.toNat, ∑ x ∈ Finset.range e.width.toNat, f y x := by
  rw [Nat.mul_comm, ← sum_rows, ← sum_ceilDiv hn e.height.toNat]
  refine Finset.sum_congr rfl fun i _ => ?_
  simp only [← sum_ceilDiv hn e.width.toNat]
  rw [Finset.sum_comm]
  refine Finset.sum_congr rfl fun j hj => ?_
  have hj' : j < e.nbx := Finset.mem_range.1 hj
  have hrow : (i * e.nbx + j) / e.nbx = i := by
    rw [Nat.mul_comm, Nat.mul_add_div (by omega), Nat.div_eq_of_lt hj', Nat.add_zero]
  have hcol : (i * e.nbx + j) % e.nbx = j := by rw [Nat.mul_comm, Nat.mul_add_mod, Nat.mod_eq_of_lt hj']
  simp only [Engine.geometry, hrow, hcol]

/-! ### The outputs of different units do not meet (rules R60, R117, R124) -/

/-- The host duty of rule R60, in either form. -/
abbrev Engine.placed (e : Engine) : Prop := e.regionsDisjoint ∨ e.inPlace

section outputs
variable {e : Engine} {j k a : Nat}

theorem inPlane_of_inRect (h : e.inRect k a) : e.inPlane e.dstBase e.dstStride a := by
  obtain ⟨r, hr, c, hc, rfl⟩ := h
  obtain ⟨hy, hx⟩ := geometry_inside e hr hc
  exact ⟨_, hy, _, hx, rfl⟩

theorem inPlane_of_mem_blockReads (h : a ∈ e.blockReads k) : e.inPlane e.srcBase e.srcStride a := by
  obtain ⟨r, hr, c, hc, rfl⟩ := blockReads_mem.1 h
  obtain ⟨hy, hx⟩ := geometry_inside e hr hc
  exact ⟨_, hy, _, hx, rfl⟩

theorem inArchive_of_inSlot (hk : k < e.nbx * e.nby) (h : e.inSlot k a) : e.inArchive a := by
  obtain ⟨u, hu, v, hv, i, hi, rfl⟩ := exists_arcAddr_of_inSlot h
  have := arcAddr_bound hk hu hv
  exact ⟨by omega, by omega⟩

/-- The unit of a sample is the one whose rectangle it is in. -/
theorem unitAt_geometry {r c : Nat} (hn : 1 ≤ e.n) (hk : k < e.nbx * e.nby) (hr : r < (e.geometry k).h)
    (hc : c < (e.geometry k).w) : e.unitAt ((e.geometry k).y0 + r) ((e.geometry k).x0 + c) = k := by
  obtain ⟨hy, hx⟩ := geometry_inside e hr hc
  exact ((mem_geometry_iff hn hk hy hx).1 ⟨by omega, by omega, by omega, by omega⟩).symm

/-- Every byte of the reconstructed plane is in the rectangle of a unit. -/
theorem exists_inRect (hn : 1 ≤ e.n) (h : e.inPlane e.dstBase e.dstStride a) : ∃ k < e.nbx * e.nby, e.inRect k a := by
  obtain ⟨y, hy, x, hx, rfl⟩ := h
  have hk := unitAt_lt hn hy hx
  obtain ⟨hy0, hyh, hx0, hxw⟩ := (mem_geometry_iff hn hk hy hx).2 rfl
  refine ⟨_, hk, y - (e.geometry (e.unitAt y x)).y0, by omega, x - (e.geometry (e.unitAt y x)).x0, by omega, ?_⟩
  rw [Nat.add_sub_cancel' hy0, Nat.add_sub_cancel' hx0]
  rfl

/-- The slots of the units follow each other without a gap. -/
theorem inSlot_iff : e.inSlot k a ↔ e.arcBase.toNat ≤ a ∧ (a - e.arcBase.toNat) / (2 * e.n * e.n) = k ∧ 0 < e.n := by
  have harc : e.arcAddr k 0 0 = e.arcBase.toNat + k * (2 * e.n * e.n) := by
    simp only [Engine.arcAddr, Nat.zero_mul, Nat.add_zero, Nat.mul_zero]
    ring
  rw [Engine.inSlot, harc]
  rcases Nat.eq_zero_or_pos e.n with h0 | hn
  · simp [h0]
  · have hpos : 0 < 2 * e.n * e.n := Nat.mul_pos (Nat.mul_pos Nat.two_pos hn) hn
    generalize 2 * e.n * e.n = size at hpos ⊢
    constructor
    · rintro ⟨hlo, hhi⟩
      exact ⟨by omega, Nat.div_eq_of_lt_le (by omega) (by rw [Nat.succ_mul]; omega), hn⟩
    · rintro ⟨hlo, rfl, -⟩
      have := Nat.div_mul_le_self (a - e.arcBase.toNat) size
      have := Nat.lt_div_mul_add hpos (a := a - e.arcBase.toNat)
      omega

/-- Every byte of the archive is in the slot of a unit. -/
theorem exists_inSlot (hn : 1 ≤ e.n) (h : e.inArchive a) : ∃ k < e.nbx * e.nby, e.inSlot k a := by
  obtain ⟨hlo, hhi⟩ := h
  refine ⟨_, ?_, inSlot_iff.2 ⟨hlo, rfl, hn⟩⟩
  have hbytes : e.arcBytes = 2 * e.n * e.n * (e.nbx * e.nby) := by
    rw [Engine.arcBytes]
    ring
  exact Nat.div_lt_of_lt_mul (by omega)

/-- Every byte of the outputs is one that a unit writes. -/
theorem exists_inUnit (hn : 1 ≤ e.n) (h : e.inPlane e.dstBase e.dstStride a ∨ e.inArchive a) :
    ∃ k < e.nbx * e.nby, e.inUnit k a := by
  rcases h with hplane | harchive
  · obtain ⟨k, hk, hrect⟩ := exists_inRect hn hplane
    exact ⟨k, hk, .inl hrect⟩
  · obtain ⟨k, hk, hslot⟩ := exists_inSlot hn harchive
    exact ⟨k, hk, .inr hslot⟩

theorem inSlot_unique (hj : e.inSlot j a) (hk : e.inSlot k a) : j = k := by
  obtain ⟨-, hj, -⟩ := inSlot_iff.1 hj
  obtain ⟨-, hk, -⟩ := inSlot_iff.1 hk
  exact hj.symm.trans hk

section legal
variable (hl : e.procLegal) (hp : e.placed)
include hl

theorem n_pos : 1 ≤ e.n := by
  obtain ⟨hn, -⟩ := hl
  omega

theorem inRect_unique (hj : j < e.nbx * e.nby) (hk : k < e.nbx * e.nby) (h : e.inRect j a) (h' : e.inRect k a) :
    j = k := by
  have hn := n_pos hl
  obtain ⟨-, -, ⟨-, -, -, hstride, -⟩, -⟩ := hl
  obtain ⟨r, hr, c, hc, rfl⟩ := h
  obtain ⟨r', hr', c', hc', haddr⟩ := h'
  obtain ⟨hy, hx⟩ := dstAddr_inj hstride (geometry_inside e hr hc).2 (geometry_inside e hr' hc').2 haddr
  rw [← unitAt_geometry hn hj hr hc, hy, hx, unitAt_geometry hn hk hr' hc']

include hp
omit hl in
theorem not_inArchive_of_inPlane (h : e.inPlane e.dstBase e.dstStride a) : ¬ e.inArchive a := by
  intro harc
  rcases hp with hdisjoint | ⟨hbase, hstride, hdisjoint⟩
  · obtain ⟨-, -, hda⟩ := hdisjoint a
    exact hda ⟨h, harc⟩
  · rw [hbase, hstride] at h
    exact hdisjoint a ⟨h, harc⟩

omit hl in
/-- No rectangle lies over a slot. -/
theorem not_inSlot_of_inRect (hk : k < e.nbx * e.nby) (h : e.inRect j a) : ¬ e.inSlot k a := fun hslot =>
  not_inArchive_of_inPlane hp (inPlane_of_inRect h) (inArchive_of_inSlot hk hslot)

/-- No byte is written by two units. -/
theorem inUnit_unique (hj : j < e.nbx * e.nby) (hk : k < e.nbx * e.nby) (h : e.inUnit j a) (h' : e.inUnit k a) :
    j = k := by
  rcases h with h | h <;> rcases h' with h' | h'
  · exact inRect_unique hl hj hk h h'
  · exact absurd h' (not_inSlot_of_inRect hp hk h)
  · exact absurd h (not_inSlot_of_inRect hp hj h')
  · exact inSlot_unique h h'

/-- The samples that a unit reads are written by no other unit: in place they are its own rectangle. -/
theorem eq_of_inUnit_of_mem_blockReads (hj : j < e.nbx * e.nby) (hk : k < e.nbx * e.nby) (h : e.inUnit j a)
    (hread : a ∈ e.blockReads k) : j = k := by
  have hsrc := inPlane_of_mem_blockReads hread
  rcases hp with hdisjoint | hplace
  · obtain ⟨hsd, hsa, -⟩ := hdisjoint a
    rcases h with h | h
    · exact absurd ⟨hsrc, inPlane_of_inRect h⟩ hsd
    · exact absurd ⟨hsrc, inArchive_of_inSlot hj h⟩ hsa
  · obtain ⟨r, hr, c, hc, haddr⟩ := blockReads_mem.1 hread
    refine inUnit_unique hl (.inr hplace) hj hk h (.inl ⟨r, hr, c, hc, ?_⟩)
    obtain ⟨hbase, hstride, -⟩ := hplace
    rw [haddr, Engine.srcAddr, Engine.dstAddr, hbase, hstride]

end legal
end outputs

/-! ### The sums after several units (rule R138) -/

theorem satadd64_satadd64 (acc : Acc) (d d' : Nat) : satadd64 (satadd64 acc d) d' = satadd64 acc (d + d') :=
  BitVec.eq_of_toNat_eq (by simp only [satadd64_toNat]; omega)

/-- A sum in two parts saturates when it saturates as a whole. -/
theorem saturates64_or (acc : Acc) (d d' : Nat) :
    (saturates64 acc d || saturates64 (satadd64 acc d) d') = saturates64 acc (d + d') := by
  rw [Bool.eq_iff_iff]
  simp only [saturates64, satadd64_toNat, Bool.or_eq_true, decide_eq_true_eq]
  omega

theorem accumulate_accumulate (e : Engine) (d n d' n' : Nat) :
    (e.accumulate d n).accumulate d' n' = e.accumulate (d + d') (n + n') := by
  simp only [Engine.accumulate, satadd64_satadd64, ← saturates64_or]
  congr 2
  ac_rfl

/-- The engine `e`, in which PROC has been accepted, after its first `k` units, their samples being those in memory `m`. -/
def Engine.afterUnits (e : Engine) (m : Memory) (k : Nat) : Engine :=
  { e.accumulate (∑ j ∈ Finset.range k, e.unitError m j) (∑ j ∈ Finset.range k, e.unitCount j) with
    udone := BitVec.ofNat 32 k }

theorem afterUnits_zero {e : Engine} (h : e.udone = 0#32) (m : Memory) : e.afterUnits m 0 = e := by
  rw [Engine.afterUnits, Finset.sum_range_zero, Finset.sum_range_zero, accumulate_zero, ← h]

theorem afterUnits_succ (e : Engine) (m : Memory) {k : Nat} (hk : k < 2 ^ 32) :
    ((e.afterUnits m k).accumulate (e.unitError m k) (e.unitCount k)).countUnit = e.afterUnits m (k + 1) := by
  have hudone : (e.afterUnits m k).udone.toNat = k := (BitVec.toNat_ofNat _ _).trans (Nat.mod_eq_of_lt hk)
  rw [Engine.countUnit, accumulate_udone, hudone]
  simp only [Engine.afterUnits, Finset.sum_range_succ, ← accumulate_accumulate]
  rfl

/-! ### A run of units (rules R118, R126, R128) -/

/-- What a unit has written stays while its bytes stay. -/
theorem UnitHolds.of_agree {e : Engine} {m m' m'' : Memory} {k : Nat} (h : UnitHolds e m k m')
    (H : ∀ a, e.inUnit k a → m''.read a = m'.read a) : UnitHolds e m k m'' where
  samples r hr c hc := by
    rw [H _ (.inl ⟨r, hr, c, hc, rfl⟩)]
    exact h.samples r hr c hc
  slot u hu v hv i hi hrect := by
    rw [H _ (.inr (inSlot_arcAddr k hu hv hi))]
    exact h.slot u hu v hv i hi hrect

section congr
variable {e : Engine} {m m' : Memory} {k : Nat} (hbytes : e.blockBytes m k = e.blockBytes m' k)
include hbytes

/-- Memory enters the codec through the bytes of the block only. -/
theorem coded_eq_of_blockBytes : e.coded m k = e.coded m' k := by rw [Engine.coded, hbytes, Engine.coded]

theorem decoded_eq_of_blockBytes : e.decoded m k = e.decoded m' k := by
  rw [Engine.decoded, coded_eq_of_blockBytes hbytes, Engine.decoded]

theorem unitError_eq_of_blockBytes : e.unitError m k = e.unitError m' k := by
  rw [Engine.unitError, hbytes, decoded_eq_of_blockBytes hbytes, Engine.unitError]

theorem UnitWritten.of_blockBytes {s t : State} (h : UnitWritten e m k s t) : UnitWritten e m' k s t where
  samples := decoded_eq_of_blockBytes hbytes ▸ h.samples
  slot := coded_eq_of_blockBytes hbytes ▸ h.slot
  other := h.other
  settled := h.settled

end congr

/-- PROC has been accepted in `s`, nothing disturbs it, and its regions lie as rule R60 asks. -/
structure ProcReady (s : State) : Prop where
  legal : s.eng.procLegal
  placed : s.eng.placed
  busy : s.eng.status.busy = true
  creq : s.eng.creq = false
  curop : s.eng.curop = 0x01#8
  udone : s.eng.udone = 0#32
  utotal : s.eng.utotal.toNat = s.eng.nbx * s.eng.nby
  memory : s.mem.wf
  denied : s.denied = []
  rivals : s.rivals = []
  sources : ∀ a : Nat, s.eng.inPlane s.eng.srcBase s.eng.srcStride a → a ∉ s.raced

/-- State `t` is reached from `s` by the first `k` units. -/
structure UnitsDone (s : State) (k : Nat) (t : State) : Prop where
  frame : t = { s with eng := t.eng, mem := t.mem, past := t.past, raced := t.raced, tick := t.tick }
  eng : t.eng = s.eng.afterUnits s.mem k
  memory : t.mem.wf
  holds : ∀ j < k, UnitHolds s.eng s.mem j t.mem
  other : ∀ a, (∀ j < k, ¬ s.eng.inUnit j a) → t.mem.read a = s.mem.read a
  settled : ∀ a, a ∈ t.raced ↔ a ∈ s.raced ∧ ∀ j < k, ¬ s.eng.inUnit j a

theorem unitsDone_zero {s : State} (hs : ProcReady s) : UnitsDone s 0 s where
  frame := rfl
  eng := (afterUnits_zero hs.udone s.mem).symm
  memory := hs.memory
  holds j hj := absurd hj j.not_lt_zero
  other _ _ := rfl
  settled a := by simp

namespace UnitsDone
variable {s t t' : State} {k : Nat}

theorem udone_toNat (h : UnitsDone s k t) (hk : k < 2 ^ 32) : t.eng.udone.toNat = k := by
  rw [h.eng]
  exact (BitVec.toNat_ofNat _ _).trans (Nat.mod_eq_of_lt hk)

/-- No unit before `k` has touched the samples that unit `k` reads. -/
theorem sources_kept (h : UnitsDone s k t) (hs : ProcReady s) (hk : k < s.eng.nbx * s.eng.nby) {a : Nat}
    (ha : a ∈ s.eng.blockReads k) : t.mem.read a = s.mem.read a :=
  h.other a fun _ hj hunit =>
    hj.ne (eq_of_inUnit_of_mem_blockReads hs.legal hs.placed (hj.trans hk) hk hunit ha)

/-- So unit `k` finds the bytes of the original source plane. -/
theorem blockBytes_kept (h : UnitsDone s k t) (hs : ProcReady s) (hk : k < s.eng.nbx * s.eng.nby) :
    s.eng.blockBytes t.mem k = s.eng.blockBytes s.mem k :=
  List.map_congr_left fun _ ha => h.sources_kept hs hk ha

/-- A unit that is written after the first `k` is one more. -/
theorem succ (h : UnitsDone s k t) (hs : ProcReady s) (hk : k < s.eng.nbx * s.eng.nby)
    (hframe : t' = { t with eng := t'.eng, mem := t'.mem, past := t'.past, raced := t'.raced, tick := t'.tick })
    (heng : t'.eng = s.eng.afterUnits s.mem (k + 1)) (hm : t'.mem.wf) (hw : UnitWritten s.eng s.mem k t t') :
    UnitsDone s (k + 1) t' where
  frame := by rw [hframe, h.frame]
  eng := heng
  memory := hm
  holds j hj := by
    rcases Nat.lt_succ_iff_lt_or_eq.1 hj with hlt | rfl
    · refine (h.holds j hlt).of_agree fun a ha => hw.other a fun hunit => hlt.ne ?_
      exact inUnit_unique hs.legal hs.placed (hlt.trans hk) hk ha hunit
    · exact hw.toUnitHolds
  other a ha := by
    rw [hw.other a (ha k k.lt_succ_self)]
    exact h.other a fun j hj => ha j (hj.trans k.lt_succ_self)
  settled a := by
    rw [hw.settled, h.settled, and_assoc, Nat.forall_lt_succ_right]

/-- The engine's next step is the block step of unit `k`. -/
theorem dispatch (h : UnitsDone s k t) (hs : ProcReady s) (hk : k < s.eng.nbx * s.eng.nby) :
    engineStep t = procBlock t := by
  have hne : t.eng.udone ≠ t.eng.utotal := fun heq => by
    have hudone := h.udone_toNat (hk.trans (units_lt hs.legal))
    have hutotal : t.eng.utotal.toNat = s.eng.nbx * s.eng.nby := by rw [h.eng]; exact hs.utotal
    rw [heq, hutotal] at hudone
    exact hk.ne' hudone
  exact engineStep_eq_procBlock (by rw [h.eng]; exact hs.busy) (by rw [h.eng]; exact hs.creq) hne
    (by rw [h.eng]; exact hs.curop)

/-- That step writes unit `k` of the original samples, and counts it. -/
theorem step (h : UnitsDone s k t) (hs : ProcReady s) (hk : k < s.eng.nbx * s.eng.nby) :
    ∃ t', engineStep t = .next t' ∧ UnitsDone s (k + 1) t' := by
  have hk32 : k < 2 ^ 32 := hk.trans (units_lt hs.legal)
  have hudone := h.udone_toNat hk32
  have hrivals : t.rivals = [] := by rw [h.frame]; exact hs.rivals
  have hraced : ∀ a ∈ t.eng.blockReads t.eng.udone.toNat, a ∉ t.raced := by
    intro a ha hraced
    rw [hudone, h.eng] at ha
    exact hs.sources a (inPlane_of_mem_blockReads ha) ((h.settled a).1 hraced).1
  obtain ⟨t', ht', hwritten, heng⟩ := procBlock_undisturbed (s := t) (by rw [h.eng]; exact hs.legal)
    (by rw [hudone, h.eng]; exact hk) h.memory (by rw [h.frame]; exact hs.denied) (by simp [hrivals]) hraced
  rw [← h.dispatch hs hk] at ht'
  rw [hudone, h.eng] at hwritten heng
  have hbytes := h.blockBytes_kept hs hk
  have herror : (s.eng.afterUnits s.mem k).unitError t.mem k = s.eng.unitError s.mem k :=
    unitError_eq_of_blockBytes (e := s.eng) hbytes
  have hunit : UnitWritten s.eng t.mem k t t' :=
    ⟨⟨hwritten.samples, hwritten.slot⟩, hwritten.other, hwritten.settled⟩
  refine ⟨t', ht', h.succ hs hk (engineStep_frame ht') ?_ (engineStep_mem_wf h.memory ht') (hunit.of_blockBytes hbytes)⟩
  rw [heng, herror]
  exact afterUnits_succ s.eng s.mem hk32

end UnitsDone

/-- Engine steps, the last one set apart. -/
theorem engineRun_succ {s t : State} {n : Nat} (h : engineRun n s = .next t) : engineRun (n + 1) s = engineStep t := by
  induction n generalizing s with
  | zero =>
    cases h
    rw [engineRun]
    cases engineStep t <;> rfl
  | succ n ih =>
    cases hstep : engineStep s with
    | next u =>
      rw [engineRun, hstep] at h ⊢
      exact ih h
    | fault r => simp [engineRun, hstep] at h
    | refused r => simp [engineRun, hstep] at h

/-- The engine does its units one after the other. -/
theorem engineRun_units {s : State} (hs : ProcReady s) {k : Nat} (hk : k ≤ s.eng.nbx * s.eng.nby) :
    ∃ t, engineRun k s = .next t ∧ UnitsDone s k t := by
  induction k with
  | zero => exact ⟨s, rfl, unitsDone_zero hs⟩
  | succ k ih =>
    obtain ⟨t, ht, hdone⟩ := ih (Nat.le_of_succ_le hk)
    obtain ⟨t', ht', hdone'⟩ := hdone.step hs hk
    exact ⟨t', (engineRun_succ ht).trans ht', hdone'⟩

theorem engineStep_eq_complete {s : State} (hb : s.eng.status.busy = true) (hc : s.eng.creq = false)
    (hu : s.eng.udone = s.eng.utotal) : engineStep s = .next (s.setEng s.eng.complete) := by
  simp [engineStep, hb, hc, hu]

/-- After the last unit one step completes the command (rule R126). -/
theorem engineRun_complete {s : State} (hs : ProcReady s) : ∃ t, UnitsDone s (s.eng.nbx * s.eng.nby) t ∧
    engineRun (s.eng.nbx * s.eng.nby + 1) s = .next (t.setEng t.eng.complete) := by
  obtain ⟨t, ht, hdone⟩ := engineRun_units hs (Nat.le_refl _)
  refine ⟨t, hdone, (engineRun_succ ht).trans (engineStep_eq_complete ?_ ?_ ?_)⟩
  · rw [hdone.eng]; exact hs.busy
  · rw [hdone.eng]; exact hs.creq
  · refine BitVec.eq_of_toNat_eq ((hdone.udone_toNat (units_lt hs.legal)).trans ?_)
    rw [hdone.eng]
    exact hs.utotal.symm

/-! ### The outcome of PROC (rules R128, R147, R59) -/

/-- Acceptance while no other engine's command is outstanding, and no source byte in a race, makes ready. -/
theorem procReady_startProc {s : State} (acc : Bool) (hl : s.eng.procLegal) (hp : s.eng.placed) (hm : s.mem.wf)
    (hdenied : s.denied = []) (halone : s.alone)
    (hsources : ∀ a : Nat, s.eng.inPlane s.eng.srcBase s.eng.srcStride a → a ∉ s.raced) :
    ProcReady (s.startProc acc) where
  legal := hl
  placed := hp
  busy := rfl
  creq := rfl
  curop := rfl
  udone := rfl
  utotal := utotal_startProc_toNat hl acc
  memory := hm
  denied := hdenied
  rivals := claim_no_rival (s := s.setEng (s.eng.startProc acc)) halone (List.cons_ne_nil _ _)
  sources := hsources

/-- The regions of PROC become those of its own engine, as all outstanding ones are. -/
theorem startProc_owned {s : State} (halone : s.alone) (acc : Bool) :
    ∀ c ∈ (s.startProc acc).owned, c.engine = s.idx := by
  obtain ⟨howned, -⟩ := halone
  intro c hc
  rw [State.startProc, claim_owned] at hc
  rcases List.mem_append.1 hc with hold | hnew
  · exact howned c hold
  · obtain ⟨r, -, rfl⟩ := List.mem_map.1 hnew
    rfl

/-- The squared errors of all units add up to that of the plane, once its units are done. -/
theorem sum_unitError {e : Engine} {m m' : Memory} (hn : 1 ≤ e.n) (hacc : e.accf = true)
    (h : ∀ k < e.nbx * e.nby, UnitHolds e m k m') :
    ∑ k ∈ Finset.range (e.nbx * e.nby), e.unitError m k =
      ∑ y ∈ Finset.range e.height.toNat, ∑ x ∈ Finset.range e.width.toNat,
        sqDiff (m.read (e.srcAddr y x)) (m'.read (e.dstAddr y x)) := by
  rw [← sum_units hn]
  refine Finset.sum_congr rfl fun k hk => ?_
  rw [Engine.unitError, if_pos hacc, blockError_eq_sum]
  refine Finset.sum_congr rfl fun r hr => Finset.sum_congr rfl fun c hc => ?_
  rw [Finset.mem_range] at hk hr hc
  rw [blockBytes_getD e m hr hc, (h k hk).samples r hr c hc]

theorem sum_unitCount {e : Engine} (hn : 1 ≤ e.n) (hacc : e.accf = true) :
    ∑ k ∈ Finset.range (e.nbx * e.nby), e.unitCount k = e.width.toNat * e.height.toNat := by
  have hplane := sum_units hn fun _ _ => 1
  simp only [Finset.sum_const, Finset.card_range, smul_eq_mul, Nat.mul_one] at hplane
  rw [Nat.mul_comm e.width.toNat, ← hplane]
  exact Finset.sum_congr rfl fun k _ => if_pos hacc

/-- Without ACC the units add nothing. -/
theorem afterUnits_of_not_accf {e : Engine} (hacc : e.accf = false) (m : Memory) (k : Nat) :
    e.afterUnits m k = { e with udone := BitVec.ofNat 32 k } := by
  have herror : ∀ j, e.unitError m j = 0 := fun j => if_neg (by simp [hacc])
  have hcount : ∀ j, e.unitCount j = 0 := fun j => if_neg (by simp [hacc])
  rw [Engine.afterUnits]
  simp only [herror, hcount, Finset.sum_const_zero, accumulate_zero]

/-- With ACC they add the squared error of the plane and the number of its samples. -/
theorem afterUnits_of_accf {e : Engine} {m m' : Memory} (hn : 1 ≤ e.n) (hacc : e.accf = true)
    (h : ∀ k < e.nbx * e.nby, UnitHolds e m k m') :
    e.afterUnits m (e.nbx * e.nby) =
      { e.accumulate
          (((List.range e.height.toNat).map fun y => ((List.range e.width.toNat).map fun x =>
            sqDiff (m.read (e.srcAddr y x)) (m'.read (e.dstAddr y x))).sum).sum)
          (e.width.toNat * e.height.toNat) with udone := BitVec.ofNat 32 (e.nbx * e.nby) } := by
  rw [Engine.afterUnits, sum_unitError hn hacc h, sum_unitCount hn hacc]
  rfl

/-- The host that reads STATUS of an idle engine reads a byte as it is in memory, where no race is left and every claim and rival is this engine's. -/
theorem fetch_after_status_read {s : State} (hb : s.eng.status.busy = false) (howned : ∀ c ∈ s.owned, c.engine = s.idx)
    (hrivals : ∀ r ∈ s.rivals, r.engine = s.idx) :
    ∃ u, hostAccess (.read 32 0x008) s = .next u ∧ ∀ slot a : Nat, a ∉ s.raced → u.fetch none slot a = s.mem.read a := by
  obtain ⟨u, hu, -, -, -, -, hfetch⟩ := (statusReadReleasesTheRegions s).2 hb
  exact ⟨u, hu, fun slot a ha => hfetch slot a ha (fun c hc => .inl (howned c hc)) fun r hr => .inl (hrivals r hr)⟩

/-- Settles O59: acceptance makes ready, the run does every unit on the original samples, and the STATUS read releases the outputs, which are settled. -/
theorem procComputesThePlane : Obligations.ProcComputesThePlane := by
  intro s acc hm hdenied halone hb hl hsources hp e
  have hn : 1 ≤ e.n := n_pos hl
  have hs := procReady_startProc acc hl hp hm hdenied halone hsources
  obtain ⟨t, hdone, hrun⟩ := engineRun_complete hs
  obtain ⟨u, hu, hfetch⟩ := fetch_after_status_read (s := t.setEng t.eng.complete) rfl
    (by rw [setEng_owned, hdone.frame]; exact startProc_owned halone acc)
    (by rw [setEng_rivals, hdone.frame, hs.rivals]; simp)
  refine ⟨s.startProc acc, t.setEng t.eng.complete, u, exec_proc_of_legal hb hl acc, hrun, hu, ?_, ?_, ?_, ?_, ?_, ?_⟩
  · intro d n
    rw [setEng_eng, hdone.eng]
    cases acc with
    | false =>
      rw [afterUnits_of_not_accf rfl]
      simp only [Bool.false_and, Bool.or_false]
      rfl
    | true =>
      rw [afterUnits_of_accf (e := (s.startProc true).eng) hn rfl hdone.holds]
      simp only [Bool.true_and, ← Bool.or_assoc]
      rfl
  · exact hdone.udone_toNat (units_lt hl)
  · exact fun k hk => (hdone.holds k hk).samples
  · exact fun k hk v hv w hw i hi => (hdone.holds k hk).slot v hv w hw i hi fun hrect =>
      not_inSlot_of_inRect hp hk hrect (inSlot_arcAddr k hv hw hi)
  · refine fun a hplane harchive => hdone.other a fun k hk => ?_
    rintro (hrect | hslot)
    · exact hplane (inPlane_of_inRect hrect)
    · exact harchive (inArchive_of_inSlot hk hslot)
  · intro slot a ha
    obtain ⟨k, hk, hunit⟩ := exists_inUnit hn ha
    exact hfetch slot a fun hraced => ((hdone.settled a).1 hraced).2 k hk hunit

end Sys2Proof.Machine

/-! The metrics results: the saturating sums, MCLR, MFIN with its errors, and what PSNRQ and RATIOQ are (rules R138, R142 to R145). -/

namespace Sys2Proof.Machine

/-! ### The saturating add (rule R138) -/

/-- Settles O30: the sum is the smaller of the exact one and the largest accumulator. -/
theorem saturatingAdd : Obligations.SaturatingAdd := by
  intro acc d
  rw [satadd64_toNat]
  exact ⟨fun h => ⟨Nat.min_eq_left h, decide_eq_false (Nat.not_lt.2 h)⟩,
    fun h => ⟨Nat.min_eq_right h.le, decide_eq_true h⟩⟩

/-! ### MCLR and MFIN on an idle engine (rules R142, R143, R203, R206) -/

/-- Settles O11: MCLR is an immediate command, so acceptance and DONE surround its effect. -/
theorem mclrClearsTheSums : Obligations.MclrClearsTheSums :=
  ⟨rfl, fun _ hb => congrArg _ (accept_immediate hb Engine.clearMetrics)⟩

/-- MFIN checks LEVEL first. -/
theorem checkMfin_of_not_levelLegal {e : Engine} (h : ¬ e.levelLegal) : e.checkMfin = some .level := by
  rw [not_and_or, Nat.not_le, Nat.not_le] at h
  rw [Engine.checkMfin, checkLevel_eq, if_pos h]
  rfl

/-- With a legal LEVEL it checks CNT, then MOVF. -/
theorem checkMfin_of_levelLegal {e : Engine} (h : e.levelLegal) : e.checkMfin =
    if e.cnt = 0#64 then some .empty else if e.status.movf = true then some .overflow else none := by
  obtain ⟨hmin, hmax⟩ := h
  rw [Engine.checkMfin, checkLevel_eq, if_neg (not_or.2 ⟨Nat.not_lt.2 hmin, Nat.not_lt.2 hmax⟩), none_orElse']

/-- The engine that has completed MFIN. -/
def Engine.mfinDone (e : Engine) : Engine :=
  { e with
    status := { e.status with done := true, err := false, canc := false, mvalid := true }
    errinfo := 0#32, faddr := 0#32, psnr := e.psnrResult, ratio := BitVec.ofNat 32 (ratioq e.level.toNat) }

section mfin
variable {s : State} (hb : s.eng.status.busy = false)
include hb

/-- A failing check of MFIN takes the error entry. -/
theorem exec_mfin_of_error {x : CmdError} (h : s.eng.checkMfin = some x) :
    exec .mfin s = .next { s with eng := { s.eng with
      status := { s.eng.status with done := false, err := true, canc := false }
      errinfo := x.info, faddr := 0#32, curop := 0#8, accf := false, creq := false } } := by
  have hcheck : s.eng.clearOutcome.checkMfin = some x := h
  rw [← raise_idle hb]
  refine congrArg _ (accept_error hb ?_)
  rw [mfinBody, hcheck]

/-- MFIN that passes its checks writes the results. -/
theorem exec_mfin_of_ok (h : s.eng.checkMfin = none) : exec .mfin s = .next (s.setEng s.eng.mfinDone) := by
  have hcheck : s.eng.clearOutcome.checkMfin = none := h
  refine congrArg _ ((accept_ok hb (e := s.eng.mfinDone) (rs := []) ?_).trans (claim_nil _))
  rw [mfinBody, hcheck]
  rfl

end mfin

/-- Settles O12: each clause fixes what the checks answer, and a success leaves their operands as they were. -/
theorem mfinResultsAndErrors : Obligations.MfinResultsAndErrors := by
  refine ⟨rfl, ?_⟩
  intro s hb failed t
  refine ⟨fun hlevel => exec_mfin_of_error (x := .level) hb (checkMfin_of_not_levelLegal hlevel),
    fun hlevel hcnt => exec_mfin_of_error (x := .empty) hb ?_,
    fun hlevel hcnt hmovf => exec_mfin_of_error (x := .overflow) hb ?_, fun hlevel hcnt hmovf => ?_⟩
  · rw [checkMfin_of_levelLegal hlevel, if_pos hcnt]
  · rw [checkMfin_of_levelLegal hlevel, if_neg hcnt, if_pos hmovf]
  · have hcheck : s.eng.checkMfin = none := by
      rw [checkMfin_of_levelLegal hlevel, if_neg hcnt, if_neg (by simp [hmovf])]
    exact ⟨exec_mfin_of_ok hb hcheck, exec_mfin_of_ok (s := t) hb hcheck⟩

/-! ### PSNRQ as the largest exponent (rule R144) -/

theorem psnrq_of_lt {sse cnt : Nat} (h : 65025 * cnt < sse) : psnrq sse cnt = 0 := if_pos h

/-- Where the ratio is at least 1 the exponents up to PSNRQ are those that the inequality allows. -/
theorem le_psnrq_iff {sse cnt k : Nat} (h : sse ≤ 65025 * cnt) (hk : k ≤ 65535) :
    k ≤ psnrq sse cnt ↔ 10 ^ k * sse ^ 2560 ≤ (65025 * cnt) ^ 2560 := by
  have hzero : psnrAtLeast (65025 * cnt) sse 0 = true := by
    rw [psnrAtLeast, decide_eq_true_eq, Nat.pow_zero, Nat.one_mul]
    exact pow_le_pow_left' h 2560
  obtain ⟨hfound, hmax⟩ := bitSearch_spec psnrAtLeast_anti 16 0 hzero
  rw [psnrq, if_neg (Nat.not_lt.2 h)]
  calc k ≤ bitSearch (psnrAtLeast (65025 * cnt) sse) 16 0
      ↔ psnrAtLeast (65025 * cnt) sse k = true :=
        ⟨fun hle => psnrAtLeast_anti _ _ hle hfound, hmax k (Nat.lt_succ_of_le hk)⟩
    _ ↔ 10 ^ k * sse ^ 2560 ≤ (65025 * cnt) ^ 2560 := decide_eq_true_iff

/-- Settles O13: PSNRQ itself is an exponent that the inequality allows, and no larger one is. -/
theorem psnrIsTheLargestExponent : Obligations.PsnrIsTheLargestExponent := by
  intro sse cnt _
  have hmax : psnrq sse cnt ≤ 65535 := Nat.le_of_lt_succ (psnrq_lt sse cnt)
  exact ⟨psnrq_of_lt, fun h => ⟨(le_psnrq_iff h hmax).1 le_rfl, hmax, fun k hk => (le_psnrq_iff h hk).2⟩⟩

/-- PSNRQ is the one exponent that is allowed while its successor is not. -/
theorem psnrq_eq_of {sse cnt k : Nat} (h : sse ≤ 65025 * cnt) (hk : k < 65535)
    (hle : 10 ^ k * sse ^ 2560 ≤ (65025 * cnt) ^ 2560)
    (hlt : (65025 * cnt) ^ 2560 < 10 ^ (k + 1) * sse ^ 2560) : psnrq sse cnt = k := by
  refine le_antisymm (Nat.le_of_lt_succ ?_) ((le_psnrq_iff h hk.le).2 hle)
  exact Nat.lt_of_not_le fun hsucc => Nat.not_le.2 hlt ((le_psnrq_iff h hk).1 hsucc)

/-! ### PSNRQ as a logarithm (rule R144) -/

/-- 2560 times the decimal logarithm of 65025 * CNT / SSE. -/
noncomputable def psnrLog (sse cnt : Nat) : ℝ := 2560 * Real.logb 10 (65025 * (cnt : ℝ) / (sse : ℝ))

section psnrLog
variable {sse cnt : Nat} (hsse : 0 < sse) (hcnt : 0 < cnt)
include hsse hcnt

/-- The inequality on integers is that of the logarithms. -/
theorem le_psnrLog_iff (k : Nat) : (k : ℝ) ≤ psnrLog sse cnt ↔ 10 ^ k * sse ^ 2560 ≤ (65025 * cnt) ^ 2560 := by
  have hsse' : (0 : ℝ) < sse := Nat.cast_pos.2 hsse
  have hcnt' : (0 : ℝ) < cnt := Nat.cast_pos.2 hcnt
  have hratio : 0 < 65025 * (cnt : ℝ) / sse := by positivity
  calc (k : ℝ) ≤ psnrLog sse cnt
      ↔ (k : ℝ) ≤ Real.logb 10 ((65025 * (cnt : ℝ) / sse) ^ 2560) := by
        rw [psnrLog, Real.logb_pow, Nat.cast_ofNat]
    _ ↔ (10 : ℝ) ^ k ≤ (65025 * (cnt : ℝ) / sse) ^ 2560 := by
        rw [Real.le_logb_iff_rpow_le (by norm_num) (pow_pos hratio _), Real.rpow_natCast]
    _ ↔ (10 : ℝ) ^ k * (sse : ℝ) ^ 2560 ≤ (65025 * (cnt : ℝ)) ^ 2560 := by
        rw [div_pow, le_div_iff₀ (pow_pos hsse' _)]
    _ ↔ 10 ^ k * sse ^ 2560 ≤ (65025 * cnt) ^ 2560 := by exact_mod_cast Iff.rfl

/-- The logarithm is not negative exactly where PSNRQ is searched for. -/
theorem psnrLog_nonneg_iff : 0 ≤ psnrLog sse cnt ↔ sse ≤ 65025 * cnt := by
  have hiff := le_psnrLog_iff hsse hcnt 0
  rwa [Nat.cast_zero, pow_zero, one_mul, pow_le_pow_iff_left₀ sse.zero_le (Nat.zero_le _) (by decide)] at hiff

/-- PSNRQ is the floor of the logarithm, clipped below at 0 and above at 65535. -/
theorem psnrq_eq_clipped_floor : (psnrq sse cnt : Int) = min 65535 (max 0 ⌊psnrLog sse cnt⌋) := by
  have hmax := psnrq_lt sse cnt
  rcases Nat.lt_or_ge (65025 * cnt) sse with hlt | hle
  · have hneg : psnrLog sse cnt < 0 :=
      not_le.1 (mt (psnrLog_nonneg_iff hsse hcnt).1 (Nat.not_le.2 hlt))
    have hfloor := Int.floor_nonpos hneg.le
    rw [psnrq_of_lt hlt]
    omega
  · have hiff : ∀ k : Nat, k ≤ 65535 → (k ≤ psnrq sse cnt ↔ (k : Int) ≤ ⌊psnrLog sse cnt⌋) := fun k hk => by
      rw [le_psnrq_iff hle hk, ← le_psnrLog_iff hsse hcnt k, Int.le_floor, Int.cast_natCast]
    obtain ⟨m, hm⟩ := Int.eq_ofNat_of_zero_le (Int.floor_nonneg.2 ((psnrLog_nonneg_iff hsse hcnt).2 hle))
    have hbelow := (hiff (psnrq sse cnt) (by omega)).1 le_rfl
    have habove := (hiff (min 65535 m) (by omega)).2 (by omega)
    omega

end psnrLog

/-- 2560 times the decimal logarithm of 65025 lies between 12321 and 12322. -/
theorem ten_pow_bounds : 10 ^ 12321 ≤ 65025 ^ 2560 ∧ 65025 ^ 2560 < 10 ^ (12321 + 1) := by decide +kernel

/-- Settles O14: the printed values are decided by the integer inequality, in which n cancels. -/
theorem psnrIsTheFloorOfTheLogarithm : Obligations.PsnrIsTheFloorOfTheLogarithm := by
  refine ⟨fun n hn => ⟨?_, ?_⟩, fun sse cnt hsse hcnt => psnrq_eq_clipped_floor hsse hcnt⟩
  · obtain ⟨hle, hlt⟩ := ten_pow_bounds
    refine psnrq_eq_of (Nat.le_mul_of_pos_left n (by norm_num)) (by norm_num) ?_ ?_
    · rw [mul_pow]
      exact mul_le_mul_left hle _
    · rw [mul_pow]
      exact mul_lt_mul_of_pos_right hlt (pow_pos hn _)
  · refine psnrq_eq_of le_rfl (by norm_num) (Nat.one_mul _).le ?_
    exact lt_mul_of_one_lt_left (pow_pos (Nat.mul_pos (by norm_num) hn) _) (by norm_num)

/-! ### RATIOQ (rule R145) -/

/-- A smaller divisor gives a quotient larger by at least 1, as 6553600 exceeds the square of every divisor. -/
theorem ratioq_lt_ratioq {l m : Nat} (hl : 1 ≤ l) (hlm : l < m) (hm : m ≤ 100) : ratioq l < ratioq m := by
  have hquot : 199 ≤ ratioq l := (Nat.le_div_iff_mul_le (by omega)).2 (by omega)
  have hmul : ratioq l * (200 - l) ≤ 6553600 := Nat.div_mul_le_self _ _
  refine (Nat.le_div_iff_mul_le (by omega)).2 ?_
  calc (ratioq l + 1) * (200 - m)
      ≤ (ratioq l + 1) * (200 - l - 1) := Nat.mul_le_mul_left _ (by omega)
    _ = ratioq l * (200 - l) + (200 - l) - (ratioq l + 1) := by rw [Nat.mul_sub_one, Nat.succ_mul]
    _ ≤ 6553600 := by omega

/-- RATIOQ is 100 / (200 - LEVEL) in UQ16.16, truncated. -/
theorem ratioq_eq_floor {l : Nat} (hl : l ≤ 100) :
    (ratioq l : Int) = ⌊(100 : ℚ) / (200 - (l : ℚ)) * 65536⌋ := by
  have hscaled : (100 : ℚ) / (200 - (l : ℚ)) * 65536 = ((6553600 : Nat) : ℚ) / ((200 - l : Nat) : ℚ) := by
    rw [Nat.cast_sub (by omega), div_mul_eq_mul_div]
    norm_num
  rw [hscaled, Rat.floor_natCast_div_natCast]
  rfl

/-- Settles O15: the value by its formula, and the printed values are evaluated. -/
theorem ratioIncreasesWithLevel : Obligations.RatioIncreasesWithLevel := by
  refine ⟨fun l m hl hlm hm => ratioq_lt_ratioq hl hlm hm, fun l _ hl => ⟨rfl, ratioq_eq_floor hl, ?_⟩, by decide⟩
  exact Nat.div_le_of_le_mul (by omega)

end Sys2Proof.Machine

/-! MACC from acceptance to completion: what one row adds, and that a run adds the squared error of the two planes (rules R139, R140, R137). -/

namespace Sys2Proof.Machine

/-! ### Acceptance (rule R139) -/

/-- The engine that has accepted MACC. -/
def Engine.startMacc (e : Engine) : Engine :=
  { e with
    status := { e.status with busy := true, done := false, err := false, canc := false, mvalid := false }
    errinfo := 0#32, faddr := 0#32, utotal := e.height, udone := 0#32
    curop := 0x02#8, accf := false, creq := false }

/-- The state in which the engine in focus has accepted MACC, whose regions are the two planes. -/
def State.startMacc (s : State) : State :=
  (s.setEng s.eng.startMacc).claim [s.eng.srcRegion, s.eng.dstRegion false]

theorem exec_macc_of_legal {s : State} (hb : s.eng.status.busy = false) (hl : s.eng.planesLegal) :
    exec .macc s = .next s.startMacc := by
  have hcheck : s.eng.clearOutcome.checkMacc = none := (checkMacc_none s.eng.clearOutcome).2 hl
  refine congrArg _ (accept_ok hb ?_)
  rw [maccBody, hcheck]
  rfl

/-- Settles O17: the legal planes pass every check, and the two regions are claimed. -/
theorem maccIsAccepted : Obligations.MaccIsAccepted := by
  refine ⟨rfl, fun s hb hl => ⟨s.startMacc, exec_macc_of_legal hb hl, rfl, rfl, ⟨rfl, rfl, rfl, rfl, rfl⟩,
    rfl, rfl, rfl, rfl, ?_⟩⟩
  exact mem_claim_rivals (s := s.setEng s.eng.startMacc) (List.cons_ne_nil _ _)

/-! ### One row (rules R137, R140) -/

/-- The squared error of bytes that come in pairs is the sum over the pairs. -/
theorem pairError_flatMap {α : Type} (f g : α → Byte) (l : List α) :
    pairError (l.flatMap fun x => [f x, g x]) = (l.map fun x => sqDiff (f x) (g x)).sum := by
  induction l with
  | nil => rfl
  | cons x l ih => rw [List.map_cons, List.sum_cons, ← ih]; rfl

/-- The squared error of a row, column by column. -/
theorem rowError_eq (e : Engine) (m : Memory) (y : Nat) : e.rowError m y =
    ((List.range e.width.toNat).map fun x => sqDiff (m.read (e.srcAddr y x)) (m.read (e.dstAddr y x))).sum := by
  rw [Engine.rowError, Engine.rowReads, List.map_flatMap]
  exact pairError_flatMap _ _ _

/-- The engine after row `y`, counted and added to the sums, the samples being those in memory `m`. -/
def Engine.afterRow (e : Engine) (m : Memory) (y : Nat) : Engine :=
  (e.accumulate (e.rowError m y) e.width.toNat).countUnit

/-- With no refused read, no rival and no byte of the row in a race, the row step adds the row. -/
theorem maccRow_undisturbed {s : State} (hrivals : ∀ r ∈ s.rivals, r.engine ≠ s.idx)
    (hreads : ∀ a ∈ s.eng.rowReads s.eng.udone.toNat, s.mayRead a ∧ a ∉ s.raced) :
    maccRow s = .next { s with tick := s.tick + 1, eng := s.eng.afterRow s.mem s.eng.udone.toNat } := by
  rw [maccRow, readAll_of_alone hrivals 0 hreads]
  rfl

/-- Settles O29: without a race nothing disturbs the row. -/
theorem maccRowStepResult : Obligations.MaccRowStepResult := by
  intro s hquiet hb hc ho hu hreads y d
  obtain ⟨hraced, hrivals⟩ := hquiet
  have hrow : ∀ a ∈ s.eng.rowReads y, s.mayRead a ∧ a ∉ s.raced := by
    intro a ha
    obtain ⟨x, hx, rfl | rfl⟩ := rowReads_mem.1 ha
    · exact ⟨(hreads x hx).1, by simp [hraced]⟩
    · exact ⟨(hreads x hx).2, by simp [hraced]⟩
  have herror : s.eng.rowError s.mem y = d := rowError_eq s.eng s.mem y
  rw [engineStep_eq_maccRow hb hc hu (by rw [ho]; decide), maccRow_undisturbed hrivals hrow, Engine.afterRow, herror]
  rfl

/-! ### A run of rows (rules R140, R247) -/

/-- The engine after rows 0 to `k - 1`. -/
def Engine.afterRows (e : Engine) (m : Memory) (k : Nat) : Engine :=
  { e.accumulate (∑ y ∈ Finset.range k, e.rowError m y) (k * e.width.toNat) with udone := BitVec.ofNat 32 k }

theorem Engine.afterRows_zero {e : Engine} (h : e.udone = 0#32) (m : Memory) : e.afterRows m 0 = e := by
  rw [Engine.afterRows, Finset.sum_range_zero, Nat.zero_mul, accumulate_zero, ← h]

theorem afterRows_udone_toNat (e : Engine) (m : Memory) {k : Nat} (hk : k < 2 ^ 32) :
    (e.afterRows m k).udone.toNat = k := (BitVec.toNat_ofNat _ _).trans (Nat.mod_eq_of_lt hk)

/-- After the last row UDONE is HEIGHT. -/
theorem afterRows_height_udone (e : Engine) (m : Memory) : (e.afterRows m e.height.toNat).udone = e.height :=
  BitVec.eq_of_toNat_eq (afterRows_udone_toNat e m e.height.isLt)

/-- Row `k` after the first `k` rows is one more. -/
theorem afterRow_afterRows (e : Engine) (m : Memory) {k : Nat} (hk : k < 2 ^ 32) :
    (e.afterRows m k).afterRow m k = e.afterRows m (k + 1) := by
  rw [Engine.afterRow, Engine.countUnit, accumulate_udone, afterRows_udone_toNat e m hk]
  simp only [Engine.afterRows, Finset.sum_range_succ, Nat.succ_mul, ← accumulate_accumulate]
  rfl

/-- Memory stays as it is, so that a run of `k` rows has a closed form. -/
def State.afterRows (s : State) (k : Nat) : State := { s with eng := s.eng.afterRows s.mem k, tick := s.tick + k }

theorem State.afterRows_zero {s : State} (h : s.eng.udone = 0#32) : s.afterRows 0 = s := by
  rw [State.afterRows, Engine.afterRows_zero h, Nat.add_zero]

theorem State.afterRows_succ (s : State) {k : Nat} (hk : k < 2 ^ 32) : s.afterRows (k + 1) =
    { s.afterRows k with tick := (s.afterRows k).tick + 1, eng := (s.afterRows k).eng.afterRow s.mem k } := by
  rw [State.afterRows, ← afterRow_afterRows s.eng s.mem hk]
  rfl

/-- MACC has been accepted in `s`, and nothing disturbs it. -/
structure MaccReady (s : State) : Prop where
  legal : s.eng.planesLegal
  busy : s.eng.status.busy = true
  creq : s.eng.creq = false
  curop : s.eng.curop = 0x02#8
  udone : s.eng.udone = 0#32
  utotal : s.eng.utotal = s.eng.height
  denied : s.denied = []
  rivals : s.rivals = []
  planes : ∀ a : Nat, s.eng.inPlane s.eng.srcBase s.eng.srcStride a ∨ s.eng.inPlane s.eng.dstBase s.eng.dstStride a →
    a ∉ s.raced

/-- Acceptance while no other engine's command is outstanding, and no byte of the planes in a race, makes ready. -/
theorem maccReady_startMacc {s : State} (hl : s.eng.planesLegal) (hdenied : s.denied = []) (halone : s.alone)
    (hplanes : ∀ a : Nat, s.eng.inPlane s.eng.srcBase s.eng.srcStride a ∨ s.eng.inPlane s.eng.dstBase s.eng.dstStride a →
      a ∉ s.raced) :
    MaccReady s.startMacc where
  legal := hl
  busy := rfl
  creq := rfl
  curop := rfl
  udone := rfl
  utotal := rfl
  denied := hdenied
  rivals := claim_no_rival (s := s.setEng s.eng.startMacc) halone (List.cons_ne_nil _ _)
  planes := hplanes

namespace MaccReady
variable {s : State} {k : Nat} (hs : MaccReady s)
include hs

/-- A row of the command is read as it is in memory. -/
theorem rowReads_undisturbed (hk : k < s.eng.height.toNat) :
    ∀ a ∈ s.eng.rowReads k, s.mayRead a ∧ a ∉ s.raced := by
  intro a ha
  refine ⟨⟨rowReads_inSpace hs.legal hk a ha, memOK_of_denied_nil hs.denied a .read⟩, hs.planes a ?_⟩
  obtain ⟨x, hx, rfl | rfl⟩ := rowReads_mem.1 ha
  · exact .inl ⟨k, hk, x, hx, rfl⟩
  · exact .inr ⟨k, hk, x, hx, rfl⟩

/-- After `k` rows the engine's next step is row `k`. -/
theorem dispatch (hk : k < s.eng.height.toNat) : engineStep (s.afterRows k) = maccRow (s.afterRows k) := by
  have hne : (s.afterRows k).eng.udone ≠ (s.afterRows k).eng.utotal := fun heq => by
    have hudone : (s.afterRows k).eng.udone.toNat = k := afterRows_udone_toNat _ _ (hk.trans s.eng.height.isLt)
    have hutotal : (s.afterRows k).eng.utotal = s.eng.height := hs.utotal
    rw [heq, hutotal] at hudone
    exact hk.ne' hudone
  have hop : s.eng.curop ≠ 0x01#8 := by rw [hs.curop]; decide
  exact engineStep_eq_maccRow (s := s.afterRows k) hs.busy hs.creq hne hop

/-- That step adds row `k`. -/
theorem step_row (hk : k < s.eng.height.toNat) : engineStep (s.afterRows k) = .next (s.afterRows (k + 1)) := by
  have hk32 : k < 2 ^ 32 := hk.trans s.eng.height.isLt
  have hudone : (s.afterRows k).eng.udone.toNat = k := afterRows_udone_toNat _ _ hk32
  have hrivals : ∀ r ∈ (s.afterRows k).rivals, r.engine ≠ (s.afterRows k).idx := by
    have hnone : (s.afterRows k).rivals = [] := hs.rivals
    simp [hnone]
  have hreads : ∀ a ∈ (s.afterRows k).eng.rowReads (s.afterRows k).eng.udone.toNat,
      (s.afterRows k).mayRead a ∧ a ∉ (s.afterRows k).raced := by
    rw [hudone]
    exact hs.rowReads_undisturbed hk
  rw [hs.dispatch hk, maccRow_undisturbed hrivals hreads, hudone, State.afterRows_succ s hk32]
  rfl

/-- The engine does its rows one after the other. -/
theorem engineRun_rows (hk : k ≤ s.eng.height.toNat) : engineRun k s = .next (s.afterRows k) := by
  induction k with
  | zero => rw [State.afterRows_zero hs.udone, engineRun]
  | succ k ih => exact (engineRun_succ (ih (Nat.le_of_succ_le hk))).trans (hs.step_row hk)

/-- After the last row one step completes the command. -/
theorem engineRun_complete : engineRun (s.eng.height.toNat + 1) s =
    .next ((s.afterRows s.eng.height.toNat).setEng (s.eng.afterRows s.mem s.eng.height.toNat).complete) :=
  (engineRun_succ (hs.engineRun_rows le_rfl)).trans
    (engineStep_eq_complete (s := s.afterRows s.eng.height.toNat) hs.busy hs.creq
      ((afterRows_height_udone s.eng s.mem).trans hs.utotal.symm))

end MaccReady

/-! ### The outcome of MACC (rules R137, R138) -/

/-- Sums that stay below 2 ^ 64 are exact, and MOVF keeps its value. -/
theorem accumulate_exact {e : Engine} {d n : Nat} (hd : e.sse.toNat + d < 2 ^ 64) (hn : e.cnt.toNat + n < 2 ^ 64) :
    (e.accumulate d n).sse.toNat = e.sse.toNat + d ∧ (e.accumulate d n).cnt.toNat = e.cnt.toNat + n ∧
      (e.accumulate d n).status.movf = e.status.movf := by
  obtain ⟨hsse, hsat⟩ := (saturatingAdd e.sse d).1 (Nat.le_pred_of_lt hd)
  obtain ⟨hcnt, hsat'⟩ := (saturatingAdd e.cnt n).1 (Nat.le_pred_of_lt hn)
  refine ⟨hsse, hcnt, ?_⟩
  simp [Engine.accumulate, hsat, hsat']

/-- The squared errors of the rows add up to that of the planes. -/
theorem sum_rowError (e : Engine) (m : Memory) (h : Nat) : ∑ y ∈ Finset.range h, e.rowError m y =
    ((List.range h).map fun y => ((List.range e.width.toNat).map fun x =>
      sqDiff (m.read (e.srcAddr y x)) (m.read (e.dstAddr y x))).sum).sum := by
  simp only [rowError_eq]
  rfl

/-- Settles O60: acceptance makes ready, the run adds every row, and below 2^64 the sums are exact. -/
theorem maccSumsThePlanes : Obligations.MaccSumsThePlanes := by
  intro s hdenied halone hb hl hplanes e total hsse hcnt
  have hs := maccReady_startMacc hl hdenied halone hplanes
  have hrows : ∑ y ∈ Finset.range e.height.toNat, e.rowError s.mem y = total := sum_rowError e s.mem e.height.toNat
  rw [Nat.mul_comm] at hcnt ⊢
  rw [← hrows] at hsse ⊢
  obtain ⟨hsse', hcnt', hmovf⟩ := accumulate_exact hsse hcnt
  exact ⟨s.startMacc, _, exec_macc_of_legal hb hl, hs.engineRun_complete, rfl, rfl, rfl, rfl, hsse', hcnt', hmovf,
    afterRows_height_udone s.startMacc.eng s.mem, rfl⟩

end Sys2Proof.Machine

/-! The control commands, and which step an engine takes: words while busy, NOP, ABORT, SRST, the outcome of an accepted command, and the dispatch of engine steps (rules R156 to R165). -/

namespace Sys2Proof.Machine

/-! ### Issuing a word (rules R13, R156, R157) -/

/-- A word that is a command, written to CMD, does what the command does. -/
theorem issue_of_decode {w : Word} {i : Instr} (h : decode w = .ok i) (s : State) : issue w s = exec i s := by
  rw [issue, h]

/-- The register at 0x004 is CMD, and a write to it issues the word. -/
theorem hostAccess_write_cmd (w : Word) (s : State) : hostAccess (.write 32 0x004 w) s = issue w s :=
  (hostAccess_write (regOf_offset .cmd) w s).trans (if_pos rfl)

/-- Every command but ABORT and SRST goes through acceptance, which a busy engine refuses. -/
theorem exec_busy {i : Instr} {s : State} (hb : s.eng.status.busy = true) (habort : i ≠ .abort) (hsrst : i ≠ .srst) :
    exec i s = .next (s.setEng s.eng.reject) := by
  cases i with
  | abort => exact absurd rfl habort
  | srst => exact absurd rfl hsrst
  | _ => exact congrArg _ (accept_busy hb _)

theorem exec_abort_busy {s : State} (hb : s.eng.status.busy = true) :
    exec .abort s = .next (s.setEng { s.eng with creq := true }) := if_pos hb

theorem exec_abort_idle {s : State} (hb : s.eng.status.busy = false) : exec .abort s = .next s :=
  if_neg (by simp [hb])

/-- Settles O5: the write reaches CMD of the engine in focus, which issues the word. -/
theorem stepRunsTheDecodedCommand : Obligations.StepRunsTheDecodedCommand := by
  intro s t k w i rest hin hfocus hdecode
  calc step s = runEvent (.host k (.write 32 0x004 w)) { s with inputs := rest } := by rw [step, runNext, hin]
    _ = hostAccess (.write 32 0x004 w) t := by rw [runEvent, State.withEngine, hfocus]
    _ = exec i t := by rw [hostAccess_write_cmd, issue_of_decode hdecode]

/-- Settles O6: a word other than ABORT's and SRST's is another command's or none, and is rejected either way. -/
theorem wordsWhileBusy : Obligations.WordsWhileBusy := by
  intro s w hb
  split
  · next habort =>
    subst habort
    exact (issue_of_decode (decode_encode .abort) s).trans (exec_abort_busy hb)
  · next habort =>
    split
    · next hsrst =>
      subst hsrst
      exact issue_of_decode (decode_encode .srst) s
    · next hsrst =>
      cases hdecode : decode w with
      | error d => exact issue_invalid_busy hdecode hb
      | ok i =>
        rw [issue_of_decode hdecode]
        obtain rfl := eq_encode_of_decode hdecode
        exact exec_busy hb (mt (congrArg encode) habort) (mt (congrArg encode) hsrst)

/-! ### The engine's steps (rules R126, R140, R160, R161) -/

theorem engineStep_eq_cancel {s : State} (hb : s.eng.status.busy = true) (hc : s.eng.creq = true) :
    engineStep s = .next (s.setEng s.eng.cancel) := by
  simp [engineStep, hb, hc]

theorem engineStep_idle {s : State} (hb : s.eng.status.busy = false) : engineStep s = .next s := by
  simp [engineStep, hb]

/-- Settles O23: with CREQ set no other line of R160 is reached. -/
theorem cancellationComesFirst : Obligations.CancellationComesFirst := fun _ => engineStep_eq_cancel

/-- Settles O24, line by line of R160. -/
theorem engineStepDispatch : Obligations.EngineStepDispatch := by
  refine fun s => ⟨engineStep_idle, engineStep_eq_complete, engineStep_eq_procBlock, fun hb hc hu ho => ?_⟩
  exact engineStep_eq_maccRow hb hc hu (by rw [ho]; decide)

/-! ### NOP, ABORT and SRST (rules R163 to R165) -/

/-- Settles O7: NOP is an immediate command without an effect of its own. -/
theorem nopSetsDone : Obligations.NopSetsDone :=
  ⟨rfl, fun _ => ⟨fun hb => congrArg _ (accept_immediate hb id), fun hb => exec_busy hb (by decide) (by decide)⟩⟩

/-- Settles O8: the request is CREQ, which the engine's next step meets first. -/
theorem abortRequestsCancellation : Obligations.AbortRequestsCancellation := by
  refine ⟨rfl, fun w => decodeExactlyTheEncodedWords w .abort, fun s => ⟨fun hb => ⟨exec_abort_busy hb, ?_, fun hc => ?_⟩,
    exec_abort_idle⟩⟩
  · exact engineStep_eq_cancel (s := s.setEng { s.eng with creq := true }) hb rfl
  · have hsame : { s.eng with creq := true } = s.eng := by rw [← hc]
    rw [exec_abort_busy hb, hsame, setEng_self]

/-- Settles O9: SRST looks at no state. -/
theorem srstResetsInEveryState : Obligations.SrstResetsInEveryState :=
  ⟨rfl, fun w => decodeExactlyTheEncodedWords w .srst, fun s => ⟨rfl, issue_of_decode (decode_encode .srst) s⟩,
    fun _ => reset_regRead, reset_qm_entry, rfl, rfl, rfl, rfl⟩

/-! ### The outcome of an accepted command (rules R158, R203) -/

/-- Settles O22, by the ways in which an accepted command can end. -/
theorem oneOutcomePerAcceptedCommand : Obligations.OneOutcomePerAcceptedCommand := by
  intro i s t hb habort hsrst h
  rcases exec_cases h with ⟨hi, -⟩ | ⟨hi, -⟩ | ⟨hbusy, -⟩ | ⟨-, -, -, x, rfl⟩ | ⟨-, -, rfl⟩ | ⟨-, -, rfl⟩ |
    ⟨-, -, e, hok, rfl⟩ | ⟨-, hi, e, rs, hok, rfl⟩ | ⟨-, acc, hi, e, rs, hok, rfl⟩
  · exact absurd hi hsrst
  · exact absurd hi habort
  · exact absurd (hb.symm.trans hbusy) (by decide)
  · exact .inr (.inr ⟨rfl, rfl, rfl, rfl, info_ne x, rfl, sameOperands_refl s.eng, ⟨rfl, rfl, rfl, rfl⟩, rfl,
      rfl, rfl, rfl, rfl, rfl, rfl⟩)
  · exact .inr (.inl ⟨hb, rfl, rfl, rfl, rfl, rfl⟩)
  · exact .inr (.inl ⟨hb, rfl, rfl, rfl, rfl, rfl⟩)
  · obtain ⟨rfl, -⟩ := mfinBody_ok hok
    exact .inr (.inl ⟨hb, rfl, rfl, rfl, rfl, rfl⟩)
  · obtain ⟨-, rfl, -⟩ := maccBody_ok hok
    rw [claim_eng, setEng_eng]
    exact .inl ⟨rfl, rfl, rfl, rfl, .inl hi⟩
  · obtain ⟨-, rfl, -⟩ := procBody_ok hok
    rw [claim_eng, setEng_eng]
    exact .inl ⟨rfl, rfl, rfl, rfl, .inr ⟨acc, hi⟩⟩

end Sys2Proof.Machine

/-! A long command from any good state to its end, when no access is refused: each step counts a unit, and one step more completes (rules R160, R167). -/

namespace Sys2Proof.Machine

/-! ### With MemOK true no unit fails (rule R57) -/

theorem readAll_ne_refused {s : State} (hd : s.denied = []) (slot : Nat) (as : List Nat) (a : Nat) :
    s.readAll slot as ≠ .refused a := by
  intro h
  obtain ⟨-, -, -, -, -, hrefused⟩ := readAll_refused h
  exact absurd ((memOK_of_denied_nil hd a .read).symm.trans hrefused) (by decide)

theorem writeAll_ne_refused {s : State} (hd : s.denied = []) (ws : List (Nat × List Byte)) (u : State) (a : Nat) :
    s.writeAll ws ≠ .refused u a := by
  induction ws generalizing s with
  | nil => simp [State.writeAll]
  | cons w ws ih =>
    have hok : (accessBytes w.1 w.2.length).all (fun b => s.memOK b .write) = true :=
      accessBytes_all.2 fun i _ => memOK_of_denied_nil hd _ _
    have hrest := ih (s := s.storeBytes (some s.idx) w.1 w.2) (by rw [storeBytes_frame]; exact hd)
    rw [State.writeAll, hok]
    split
    · simp
    · simpa using hrest

/-- The end of a block counts the unit, with ACCF or without. -/
theorem endBlock_counts (e : Engine) (bytes : List Byte) (p : Block) :
    ∃ d n, e.endBlock bytes p = (e.accumulate d n).countUnit := by
  unfold Engine.endBlock
  dsimp only
  split
  · exact ⟨_, _, rfl⟩
  · exact ⟨0, 0, by rw [accumulate_zero]⟩

/-- With a unit to do and nothing refused, an engine step counts the unit. -/
theorem engineStep_counts {s t : State} (hd : s.denied = []) (hb : s.eng.status.busy = true) (hc : s.eng.creq = false)
    (hu : s.eng.udone ≠ s.eng.utotal) (h : engineStep s = .next t) :
    ∃ d n, t.eng = (s.eng.accumulate d n).countUnit := by
  rcases engineStep_cases h with ⟨hidle, -⟩ | ⟨-, hcreq, -⟩ | ⟨-, -, hdone, -⟩ | ⟨-, -, -, -, h⟩ | ⟨-, -, -, -, h⟩
  · exact absurd (hb.symm.trans hidle) (by decide)
  · exact absurd (hc.symm.trans hcreq) (by decide)
  · exact absurd hdone hu
  · rcases procBlock_cases h with ⟨a, hr, -⟩ | ⟨bytes, q, p, -, -, -, ⟨u, a, hw, -⟩ | ⟨u, -, rfl⟩⟩
    · exact absurd hr (readAll_ne_refused hd _ _ a)
    · exact absurd hw (writeAll_ne_refused (s := { s with tick := s.tick + 1 }) hd _ u a)
    · exact endBlock_counts s.eng bytes p
  · rcases maccRow_cases h with ⟨a, hr, -⟩ | ⟨bytes, -, rfl⟩
    · exact absurd hr (readAll_ne_refused hd _ _ a)
    · exact ⟨_, _, rfl⟩

/-! ### A run of units -/

/-- In the good state `s` a long command is in flight, with no cancellation requested and no access refused. -/
structure InFlight (s : State) : Prop where
  good : s.eng.Inv
  denied : s.denied = []
  busy : s.eng.status.busy = true
  creq : s.eng.creq = false

/-- A step counts a unit that is left, and the command stays in flight. -/
theorem InFlight.step {s : State} (hs : InFlight s) (hu : s.eng.udone ≠ s.eng.utotal) :
    ∃ t, engineStep s = .next t ∧ InFlight t ∧ t.eng.utotal = s.eng.utotal ∧
      t.eng.udone.toNat = s.eng.udone.toNat + 1 := by
  obtain ⟨t, ht⟩ := engineStep_next hs.good
  have hgood : t.eng.Inv := hs.good.of_unitChange (engineStep_unitChange ht)
  have hdenied : t.denied = [] := by rw [engineStep_frame ht]; exact hs.denied
  obtain ⟨d, n, heng⟩ := engineStep_counts hs.denied hs.busy hs.creq hu ht
  refine ⟨t, ht, ⟨hgood, hdenied, ?_, ?_⟩, ?_, ?_⟩ <;> rw [heng]
  · exact hs.busy
  · exact hs.creq
  · rfl
  · exact hs.good.countUnit_udone_toNat hu

/-- As long as units are left, `n` steps count `n` of them. -/
theorem InFlight.run {s : State} (hs : InFlight s) {n : Nat} (hn : n ≤ s.eng.utotal.toNat - s.eng.udone.toNat) :
    ∃ t, engineRun n s = .next t ∧ InFlight t ∧ t.eng.utotal = s.eng.utotal ∧
      t.eng.udone.toNat = s.eng.udone.toNat + n := by
  induction n with
  | zero => exact ⟨s, rfl, hs, rfl, rfl⟩
  | succ n ih =>
    obtain ⟨t, ht, hflight, htotal, hudone⟩ := ih (Nat.le_of_succ_le hn)
    have hleft : t.eng.udone ≠ t.eng.utotal := fun heq => by
      rw [heq, htotal] at hudone
      omega
    obtain ⟨u, hu, hflight', htotal', hudone'⟩ := hflight.step hleft
    exact ⟨u, (engineRun_succ ht).trans hu, hflight', htotal'.trans htotal, by rw [hudone', hudone, Nat.add_assoc]⟩

/-- Settles O58: the units that are left take a step each, after which the engine's next step is completion. -/
theorem longCommandsTakeUtotalPlusOneSteps : Obligations.LongCommandsTakeUtotalPlusOneSteps := by
  intro s hi hd hb hc
  have hs : InFlight s := ⟨hi.engines s.eng (eng_mem_engines s), hd, hb, hc⟩
  refine ⟨?_, fun n hn => ?_⟩
  · obtain ⟨t, ht, hflight, htotal, hudone⟩ := hs.run le_rfl
    have hdone : t.eng.udone = s.eng.utotal :=
      BitVec.eq_of_toNat_eq (hudone.trans (Nat.add_sub_of_le hs.good.units))
    obtain ⟨-, herr, hcanc⟩ := hflight.good.outcome.1 hflight.busy
    refine ⟨t.setEng t.eng.complete, (engineRun_succ ht).trans ?_, rfl, rfl, herr, hcanc, hdone, htotal⟩
    exact engineStep_eq_complete hflight.busy hflight.creq (hdone.trans htotal.symm)
  · obtain ⟨t, ht, hflight, -, -⟩ := hs.run hn
    exact ⟨t, ht, hflight.busy⟩

end Sys2Proof.Machine

/-! Errors and checks: the error words, what a failing check of PROC and MACC does, and that a step leaves every engine but one alone (rules R201, R203, R206, R214). -/

namespace Sys2Proof.Machine

/-! ### The error words and the error entry (rules R201, R206) -/

/-- Class and detail are the two low bytes of ERRINFO. -/
theorem info_eq_detail_cls (x : CmdError) : x.info = BitVec.ofNat 32 (256 * x.detail + x.cls) := by
  cases x <;> rfl

/-- Settles O20: the error entry writes the error's word, whose bytes are detail and class. -/
theorem errorEntryWritesErrinfo : Obligations.ErrorEntryWritesErrinfo := by
  refine ⟨rfl, fun e x a => ?_⟩
  rw [← info_eq_detail_cls]
  rfl

/-! ### The acceptance checks of PROC and MACC (rules R203, R206) -/

/-- A chain of checks, with the error's word in place of the error. -/
theorem map_info_ite (p : Prop) [Decidable p] (x : CmdError) (r : Option CmdError) :
    (if p then some x else r).map CmdError.info = if p then some x.info else r.map CmdError.info :=
  apply_ite (Option.map CmdError.info) p (some x) r

/-- A command that an idle engine finds faulty takes the error entry. -/
theorem accept_error_idle {s : State} (hb : s.eng.status.busy = false) {body : Body} {x : CmdError}
    (h : body s.eng.clearOutcome = .error x) : s.accept body =
      { s with eng := { s.eng with
        status := { s.eng.status with done := false, err := true, canc := false }
        errinfo := x.info, faddr := 0#32, curop := 0#8, accf := false, creq := false } } :=
  (accept_error hb h).trans (raise_idle hb x)

theorem procBody_error {e : Engine} {x : CmdError} (h : e.checkProc = some x) (acc : Bool) :
    procBody acc e = .error x := by
  rw [procBody, h]

theorem maccBody_error {e : Engine} {x : CmdError} (h : e.checkMacc = some x) : maccBody e = .error x := by
  rw [maccBody, h]

/-- Settles O18: the chain is that of `checkProc`, which reads nothing that acceptance clears, and it is empty exactly for legal operands. -/
theorem procChecksInOrder : Obligations.ProcChecksInOrder := by
  intro s acc hb e first
  have hfirst : e.checkProc.map CmdError.info = first := by
    rw [checkProc_eq]
    simp only [map_info_ite]
    rfl
  refine ⟨fun info h => ?_, fun h => ?_⟩
  · obtain ⟨x, hx, rfl⟩ := Option.map_eq_some_iff.1 (hfirst.trans h)
    have hcheck : e.clearOutcome.checkProc = some x := hx
    exact congrArg _ (accept_error_idle hb (procBody_error hcheck acc))
  · have hlegal : e.procLegal := (checkProc_none e).1 (Option.map_eq_none_iff.1 (hfirst.trans h))
    exact ⟨s.startProc acc, exec_proc_of_legal hb hlegal acc, rfl⟩

/-- Settles O19: the chain is that of `checkMacc`, and it is empty exactly for legal planes. -/
theorem maccChecksInOrder : Obligations.MaccChecksInOrder := by
  intro s hb e first
  have hfirst : e.checkMacc.map CmdError.info = first := by
    rw [checkMacc_eq]
    simp only [map_info_ite]
    rfl
  refine ⟨fun info h => ?_, fun h => ?_⟩
  · obtain ⟨x, hx, rfl⟩ := Option.map_eq_some_iff.1 (hfirst.trans h)
    have hcheck : e.clearOutcome.checkMacc = some x := hx
    exact congrArg _ (accept_error_idle hb (maccBody_error hcheck))
  · have hlegal : e.planesLegal := (checkMacc_none e).1 (Option.map_eq_none_iff.1 (hfirst.trans h))
    exact ⟨s.startMacc, exec_macc_of_legal hb hlegal, rfl⟩

/-! ### What a step leaves alone (rules R5, R214) -/

/-- MemOK is data that no step touches. -/
theorem step_denied {s t : State} (h : step s = .next t) : t.denied = s.denied := by
  rcases step_cases h with ⟨-, -, rfl⟩ | ⟨a, rest, -, h⟩ | ⟨a, b, rest, -, h⟩ | ⟨k, ins, u, hf, h⟩
  · rfl
  · rw [hostLoad_cases h]
  · rw [(hostStore_cases h).1, store_denied]
  · obtain ⟨-, -, -, hu⟩ := focus_some hf
    have hdenied : u.denied = s.denied := by rw [hu]
    rw [← hdenied]
    rcases h with ⟨a, rest, -, -, h⟩ | ⟨-, h⟩ | ⟨-, rfl⟩
    · rw [hostAccess_frame h]
    · rw [engineStep_frame h]
    · rfl

/-- Settles O53: a step replaces at most the engine that it names. -/
theorem aStepChangesAtMostOneEngine : Obligations.AStepChangesAtMostOneEngine := by
  intro s t h
  rcases step_engines h with ht | ⟨k, e, e', -, ht, -⟩
  · exact ⟨by rw [ht], step_denied h, 0, fun j _ => by rw [ht]⟩
  · exact ⟨by rw [ht, List.length_set], step_denied h, k, fun j hj => by rw [ht, List.getElem?_set_ne hj.symm]⟩

end Sys2Proof.Machine
